-- ==== Sys2Proof/Word.lean ====
section
/-! DEFINITION. The two word types of 10_state.md rule R21: bytes and nibbles. -/

namespace Sys2Proof

/-- A payload or text byte (R21: "0 to 255, 8 bits"). -/
abbrev Byte := BitVec 8

/-- Half of a byte (R21: "0 to 15, 4 bits"). -/
abbrev Nibble := BitVec 4

end Sys2Proof
end

