-- ==== Sys2Proof/Config.lean ====
section
/-! DEFINITION. The hardwired constants of 00_scope.md rules R5 and R6, and the free values that an `rst` edge
leaves in the registers whose reset value the spec calls unspecified (10_state.md rule R32). -/

namespace Sys2Proof.Config

/-- `ESC`, the first byte of every block (R5). -/
abbrev esc : Byte := 0x1B
/-- `LBR`, the character `[` (R5). The byte value is PRESUMED by the spec itself (93 G1: ASCII); log 15, unsafe. -/
abbrev lbr : Byte := 0x5B
/-- `CODE_END`, the character `m` (R5). PRESUMED by the spec itself (93 G1: ASCII); log 15, unsafe. -/
abbrev codeEnd : Byte := 0x6D
/-- `FILL`, the fill byte the framer writes (R5). -/
abbrev fill : Byte := 0x20
/-- `DIGIT_LO` (R5). PRESUMED by the spec itself (93 G1: ASCII); log 15, unsafe. -/
abbrev digitLo : Byte := 0x30
/-- `DIGIT_HI` (R5). PRESUMED by the spec itself (93 G1: ASCII); log 15, unsafe. -/
abbrev digitHi : Byte := 0x39
/-- `MAX_DIGITS` (R5). -/
abbrev maxDigits : BitVec 2 := 3
/-- The largest value of `NUM_WIDTH` = 8 bits (R5); a larger one is an overflow. -/
abbrev numMax : BitVec 10 := 255
/-- `LOW_BASE`, the number of nibble 0 (R5). -/
abbrev lowBase : Byte := 40
/-- `HIGH_BASE`, the number of nibble 8 (R5). -/
abbrev highBase : Byte := 100
/-- `SENTINEL`, the block value that ends a sequence (R5). -/
abbrev sentinel : BitVec 10 := 0
/-- `AT_LEAST`, the value this hardware takes for the `at_least` field (R6, D8). -/
abbrev atLeast : Byte := 4
/-- The constant `RESET`, the text a host may append (R5, R128). -/
abbrev resetWord : List Byte := [esc, lbr, 0x30, codeEnd, fill]

/-! The free values: no body, so nothing can be proved about them (log 2). Each is read at the counter
`State.resets`, which an `rst` edge advances. -/

/-- What an `rst` edge leaves in `ndig` (R290: unspecified). -/
opaque unspecNdig : Nat → BitVec 2
/-- What an `rst` edge leaves in `acc` (R290: unspecified). -/
opaque unspecAcc : Nat → BitVec 10
/-- What an `rst` edge leaves in `hi_code` (R290: unspecified). -/
opaque unspecHiCode : Nat → BitVec 8
/-- What an `rst` edge leaves in `e_byte` (R290: unspecified). -/
opaque unspecEByte : Nat → BitVec 8
/-- What an `rst` edge leaves in the bit `e_half` (R290: unspecified); `true` is the value 1, low. -/
opaque unspecEHalf : Nat → Bool
/-- What an `rst` edge leaves in `e_pos` (R290: unspecified). -/
opaque unspecEPos : Nat → BitVec 3

end Sys2Proof.Config
end

