-- ==== Sys2Proof/Machine/Items.lean ====
section
/-! DEFINITION. The value types of 10_state.md rule R21 and their numbers on the ports (30_encoding.md rules R82
to R84). -/

namespace Sys2Proof.Machine

/-- The closed set of nine error kinds (60_exceptions.md R250), in the order of the document's table. -/
inductive ErrKind where
  | byteStreamTerminatedUnexpectedly
  | invalidStartByte
  | invalidNumberPrefix
  | noCodeDigitsFound
  | tooManyCodeDigits
  | unexpectedByte
  | invalidCodeValue
  | valueOutOfBounds
  | missingSecondColorCodeBlock
  deriving DecidableEq, Repr

/-- An item of `RAW_IN`, `TEXT_IN` or `TEXT_OUT`: a byte or the end-of-input token (R21, R53). An `EOI` carries
no data: the data signal is ignored (R50, U13). -/
inductive InItem where
  | byte (b : Byte)
  | eoi
  deriving DecidableEq, Repr

/-- An item of `PITEM` (R21): `CODE(c)`, `ERR(kind, info)` or `END(eoi)`. -/
inductive PItem where
  | code (c : Byte)
  | err (k : ErrKind) (info : Byte)
  | fin (eoi : Bool)
  deriving DecidableEq, Repr

/-- An item of `DEC_OUT` (R21): `BYTE(b)`, `ERR(kind, info)` or `END(eoi)`. -/
inductive DItem where
  | byte (b : Byte)
  | err (k : ErrKind) (info : Byte)
  | fin (eoi : Bool)
  deriving DecidableEq, Repr

/-- Which byte of a block the parser expects next (R22). -/
inductive PState where
  | hdr
  | pfx
  | dig
  | fill
  deriving DecidableEq, Repr

/-- Which block of the pair is being written (R24, register `e_half`): 0 = high, 1 = low. -/
inductive Half where
  | high
  | low
  deriving DecidableEq, Repr

/-- The three agents (R20). -/
inductive Agent where
  | enc
  | par
  | dec
  deriving DecidableEq, Repr

/-- `ERRCODE`: the number of an error kind on a port (R83, D6). -/
def errCode : ErrKind → BitVec 4
  | .byteStreamTerminatedUnexpectedly => 1
  | .invalidStartByte => 2
  | .invalidNumberPrefix => 3
  | .noCodeDigitsFound => 4
  | .tooManyCodeDigits => 5
  | .unexpectedByte => 6
  | .invalidCodeValue => 7
  | .valueOutOfBounds => 8
  | .missingSecondColorCodeBlock => 9

/-- The 2-bit encoding of `pstate` (R22, D25). -/
def pstateCode : PState → BitVec 2
  | .hdr => 0
  | .pfx => 1
  | .dig => 2
  | .fill => 3

/-- The bit of `e_half` (R24). -/
def halfCode : Half → BitVec 1
  | .high => 0
  | .low => 1

/-- `e_half` from its bit. -/
def halfOf (low : Bool) : Half := if low then .low else .high

/-- The fields of an item on `pit_*` or `dec_*` (R82): kind, data, err, eoi. -/
structure PortItem where
  kind : BitVec 2
  data : Byte
  err : BitVec 4
  eoi : BitVec 1
  deriving DecidableEq, Repr

/-- A `PItem` on the tap `pit_*` (R82, `KINDCODE`). -/
def pitemPort : PItem → PortItem
  | .code c => { kind := 0, data := c, err := 0, eoi := 0 }
  | .err k info => { kind := 1, data := info, err := errCode k, eoi := 0 }
  | .fin z => { kind := 2, data := 0, err := 0, eoi := BitVec.ofBool z }

/-- A `DItem` on `dec_*` (R82, `KINDCODE`). -/
def ditemPort : DItem → PortItem
  | .byte b => { kind := 0, data := b, err := 0, eoi := 0 }
  | .err k info => { kind := 1, data := info, err := errCode k, eoi := 0 }
  | .fin z => { kind := 2, data := 0, err := 0, eoi := BitVec.ofBool z }

end Sys2Proof.Machine
end

