-- ==== Sys2Proof/Machine/Code.lean ====
section
/-! DEFINITION. The pure functions of the nibble to colour-code mapper and of the code pair (40_code_mapper.md,
41_code_pair.md, the serializer functions of 42_encoder.md rule R124). The instructions `CODE.*` and `PAIR.*` and
the transitions of the agents call these. -/

namespace Sys2Proof.Machine

/-- A number that is a Code: 40 to 47 or 100 to 107 (10_state.md R21, R104). -/
def isCode (c : Byte) : Bool :=
  (decide (40 ≤ c) && decide (c ≤ 47)) || (decide (100 ≤ c) && decide (c ≤ 107))

/-- `CODE.FROM_NIB` (R100). -/
def fromNib (v : Nibble) : Byte :=
  if v.getLsbD 3 then (v &&& 0b0111).zeroExtend 8 + Config.highBase
  else v.zeroExtend 8 + Config.lowBase

/-- `CODE.FROM_LO` (R101): the Code of `b & 0x0F`. -/
def fromLo (b : Byte) : Byte := fromNib ((b &&& 0x0F).truncate 4)

/-- `CODE.FROM_HI` (R102): the Code of `(b & 0xF0) >> 4`. -/
def fromHi (b : Byte) : Byte := fromNib (((b &&& 0xF0) >>> 4).truncate 4)

/-- `CODE.TO_NIB` (R103). The rule gives it a meaning on Codes only, and every meaning checks `isCode` first. Off the
Codes the value here, the wrapped difference, is the model's: DESIGN CHOICE, unsafe (log 9). Only the stream functions,
through `pairToByte`, can ask for it. -/
def toNib (c : Byte) : Nibble :=
  if c < Config.highBase then (c - Config.lowBase).truncate 4
  else (c - Config.highBase + 8).truncate 4

/-- `CODE.TRY_FROM` (R104): checked construction of a Code. -/
def tryFrom (n : Byte) : Except ErrKind Byte :=
  if isCode n then .ok n else .error .valueOutOfBounds

/-- The ASCII digit byte of a decimal digit (R72). -/
def digitByte (d : Nat) : Byte := BitVec.ofNat 8 (0x30 + d % 10)

/-- `ascii_dec` (00_scope.md R13): the shortest decimal spelling, most significant digit first, of a number of
at most three digits. -/
def asciiDec (n : Nat) : List Byte :=
  if n < 10 then [digitByte n]
  else if n < 100 then [digitByte (n / 10), digitByte n]
  else [digitByte (n / 100), digitByte (n / 10), digitByte n]

/-- `CODE.RENDER` (R105): the canonical block of a Code. -/
def render (c : Byte) : List Byte :=
  [Config.esc, Config.lbr] ++ asciiDec c.toNat ++ [Config.codeEnd, Config.fill]

/-- `blk_len` (R124). -/
def blkLen (c : Byte) : Nat := if c < Config.highBase then 6 else 7

/-- `ser_byte` (R124): `CODE.RENDER(c)[i]`, no value at or beyond the block's length. -/
def serByte (c : Byte) (i : Nat) : Option Byte := (render c)[i]?

/-- `PAIR.FROM_BYTE` (R110). -/
def pairFromByte (b : Byte) : Byte × Byte := (fromHi b, fromLo b)

/-- `PAIR.FROM_CODES` (R111). -/
def pairFromCodes (h l : Byte) : Byte × Byte := (h, l)

/-- `PAIR.TO_BYTE` (R112). On numbers that are no Codes the value is that of `toNib`: DESIGN CHOICE, unsafe (log 9). -/
def pairToByte (p : Byte × Byte) : Byte :=
  ((toNib p.1).zeroExtend 8 <<< 4) ||| (toNib p.2).zeroExtend 8

/-- `PAIR.ITER` (R113): high then low. -/
def pairIter (p : Byte × Byte) : List Byte := [p.1, p.2]

end Sys2Proof.Machine
end

