-- ==== Sys2Proof/Machine/State.lean ====
section
/-! DEFINITION. The machine's state: every register of 10_state.md rules R22 to R25, the host's side of the ports
(20_memory.md R50) and the six streams (10_state.md R30) as plain data, and the state after reset (R32). -/

namespace Sys2Proof.Machine

/-- What a combinational operation `CODE.*` or `PAIR.*` answered (40_code_mapper.md, 41_code_pair.md). -/
inductive OpValue where
  | nibble (v : Nibble)
  | code (c : Byte)
  | codeError (k : ErrKind)
  | byte (b : Byte)
  | bytes (bs : List Byte)
  | pair (h l : Byte)
  | codes (cs : List Byte)
  deriving DecidableEq, Repr

/-- Where the host stands in a reset: what R300 (a) lets it do with the items it has offered depends on whether a rising
edge has seen `rst = 1` (R292; log 12). -/
inductive RstPhase where
  /-- `rst` is 0, or it is 1 and neither of the two below holds. -/
  | quiet
  /-- `rst` is 1, an offered item has been taken back, and no rising edge has seen `rst = 1` yet: one must. -/
  | owed
  /-- `rst` is 1 and a rising edge has seen it. -/
  | taken
  deriving DecidableEq, Repr

/-- One turn of the schedule, which the spec leaves free (R20, R305), and what the host may do between edges
(R269, R292, R300); log 6. -/
inductive Turn where
  /-- One agent takes its enabled transition, if it has one (R20). -/
  | agent (a : Agent)
  /-- The parser reads one whole wire word, if one is offered (R180); log 19. -/
  | word
  /-- A rising edge of `clk` at which every agent takes its enabled transition (R52). -/
  | clock
  /-- The host offers more items on `RAW_IN` and on `TEXT_IN` (R53). -/
  | send (raw text : List InItem)
  /-- The host drives `txo_ready` and `dec_ready` (R52: it may raise and lower them at any time). -/
  | ready (txo dec : Bool)
  /-- The host drives `rst` (R290). -/
  | reset (level : Bool)
  /-- The host takes back the items it has offered and the block has not taken, for a reset (R292, R300 (a)). -/
  | withdraw
  deriving DecidableEq, Repr

/-- Registers of the block, the host's pins, the streams, and the model's own four fields (INVENTORY.md). -/
structure State where
  /-- `pstate` (R22). -/
  pstate : PState
  /-- `ndig` (R22). -/
  ndig : BitVec 2
  /-- `acc` (R22). -/
  acc : BitVec 10
  /-- `p_q` (R25), head first. -/
  pQ : List PItem
  /-- `hi_valid` (R23). -/
  hiValid : Bool
  /-- `hi_code` (R23). -/
  hiCode : Byte
  /-- `d_q` (R25), head first. -/
  dQ : List DItem
  /-- `e_busy` (R24). -/
  eBusy : Bool
  /-- `e_byte` (R24). -/
  eByte : Byte
  /-- `e_half` (R24). -/
  eHalf : Half
  /-- `e_pos` (R24). -/
  ePos : BitVec 3
  /-- `e_eoi` (R24). -/
  eEoi : Bool
  /-- The pin `rst` (R50). -/
  rst : Bool
  /-- The pin `txo_ready` (R50). -/
  txoReady : Bool
  /-- The pin `dec_ready` (R50). -/
  decReady : Bool
  /-- What the host has offered on `RAW_IN` and `ENC` has not taken; the head is on the pins (R50, R53; log 3). -/
  rawIn : List InItem
  /-- What the host has offered on `TEXT_IN` and `PAR` has not taken; the head is on the pins (R50, R53; log 3). -/
  textIn : List InItem
  /-- The items transferred on `TEXT_OUT`, oldest first (log 4). -/
  textOut : List InItem
  /-- The Codes the tap `ECODE` has shown, oldest first (R125; log 4). -/
  ecode : List Byte
  /-- The items transferred on `PITEM`, which the tap `pit_*` has shown (R51; log 4). -/
  pitem : List PItem
  /-- The items transferred on `DEC_OUT`, oldest first (log 4). -/
  decOut : List DItem
  /-- The MODEL's own: the last result of a combinational operation (DESIGN CHOICE, log 5). -/
  opOut : Option OpValue
  /-- The MODEL's own: the coming turns (DESIGN CHOICE, log 6). -/
  sched : List Turn
  /-- The MODEL's own: how many `rst` edges there were; picks the free values (log 2). -/
  resets : Nat
  /-- The MODEL's own: where the host stands in a reset (DESIGN CHOICE, log 12). -/
  rstPhase : RstPhase
  deriving DecidableEq, Repr

/-- Why the machine stops. The block itself has no fault that stops it (93_implementation_defined.md, part 1); both
lie outside every state a run reaches (10_state.md R33). -/
inductive Fault where
  /-- Raised by `D.HELD.CODE` (and `P.DELIVER`, which is the same joint step) when `hi_code` or the item's number
  is no Code: R103 "is not defined on other numbers". Safe (log 9). -/
  | notACode
  /-- Raised by `ENC.EMIT` when `e_pos` is at or beyond `blk_len`: R124 "is not defined". Safe (log 10). -/
  | serPastEnd
  deriving DecidableEq, Repr

/-- Why an instruction has no meaning here. -/
inductive Refusal where
  /-- Raised by `exec` for an instruction that has no meaning yet; no arm is left that does. Safe. -/
  | notModelled (mnemonic : String)
  /-- Raised by a transition whose rule's "Enabled when" does not hold, and by a wire word that is not offered at
  `pstate = HDR`: the agent has no such step (R140, R180, R220). The step never asks for one. Safe (log 8). -/
  | notEnabled
  /-- Raised by an operation whose operand of type `Code` is no Code (R103; WellFormed refuses it). Safe (log 9). -/
  | illFormed
  /-- Raised by the turn `withdraw` while `rst = 0` and something is offered, and by the turn that lowers `rst` when
  something was taken back and no rising edge has seen `rst = 1`: R300 (a), to be refused by
  93_implementation_defined.md U16. Safe (log 12). -/
  | hostBreaksHandshake
  deriving DecidableEq, Repr

/-- The answer of one step of this machine. -/
abbrev Out := Host.Outcome State Fault Refusal

/-- The state right after reset (R32, R290). `ndig`, `acc`, `hi_code`, `e_byte`, `e_half` and `e_pos` are
unspecified there: DESIGN CHOICE 0, unsafe (log 1). The pins, the streams and the model's own fields: DESIGN CHOICE
(log 2 to 6, log 12). -/
def State.reset : State where
  pstate := .hdr
  ndig := 0
  acc := 0
  pQ := []
  hiValid := false
  hiCode := 0
  dQ := []
  eBusy := false
  eByte := 0
  eHalf := .high
  ePos := 0
  eEoi := false
  rst := false
  txoReady := false
  decReady := false
  rawIn := []
  textIn := []
  textOut := []
  ecode := []
  pitem := []
  decOut := []
  opOut := none
  sched := []
  resets := 0
  rstPhase := .quiet

end Sys2Proof.Machine
end

