-- ==== Sys2Proof/Machine/Flags.lean ====
section
/-! DEFINITION. The conditions of the parser. The block has no stored flag (10_state.md rule R28): "The conditions the
parser tests (`ndig = 0`, `ndig = 3`, `acc > 255`, `acc = 0`, `acc` in the valid ranges) are combinational functions of
`ndig` and `acc`". -/

namespace Sys2Proof.Machine

/-- `ndig = 0` (R149). -/
def noDigits (ndig : BitVec 2) : Bool := ndig == 0

/-- `ndig = 3` (R148). -/
def digitsFull (ndig : BitVec 2) : Bool := ndig == Config.maxDigits

/-- `acc > 255`, the 8-bit overflow test (R150, R161). -/
def overflows (acc : BitVec 10) : Bool := decide (Config.numMax < acc)

/-- `acc = 0`, the sentinel test (R154). -/
def isSentinel (acc : BitVec 10) : Bool := acc == Config.sentinel

/-- `acc[7:0]`, the block's number (R151). -/
def blockNumber (acc : BitVec 10) : Byte := acc.truncate 8

/-- `CODE.TRY_FROM(acc[7:0]) = Ok(c)` (R155). -/
def numberOk (acc : BitVec 10) : Bool := isCode (blockNumber acc)

end Sys2Proof.Machine
end

