-- ==== Sys2Proof/Syntax.lean ====
section
/-! DEFINITION. The instructions: one constructor per row of spec/opcode_table.json (00_scope.md rule R8). An
operation has its operands (an operand the spec types `Code` is held as a byte; WellFormed checks it); a transition
has none, since the item it reads comes from a stream; a wire word has its fill byte. -/

namespace Sys2Proof

/-- One constructor per row of the opcode table (R8, R88). -/
inductive Instr where
  /-- `CODE.FROM_NIB` (R100). -/
  | codeFromNib (v : Nibble)
  /-- `CODE.FROM_LO` (R101). -/
  | codeFromLo (b : Byte)
  /-- `CODE.FROM_HI` (R102). -/
  | codeFromHi (b : Byte)
  /-- `CODE.TO_NIB` (R103). -/
  | codeToNib (c : Byte)
  /-- `CODE.TRY_FROM` (R104). -/
  | codeTryFrom (n : Byte)
  /-- `CODE.RENDER` (R105). -/
  | codeRender (c : Byte)
  /-- `PAIR.FROM_BYTE` (R110). -/
  | pairFromByte (b : Byte)
  /-- `PAIR.FROM_CODES` (R111). -/
  | pairFromCodes (h l : Byte)
  /-- `PAIR.TO_BYTE` (R112). -/
  | pairToByte (h l : Byte)
  /-- `PAIR.ITER` (R113). -/
  | pairIter (h l : Byte)
  /-- `ENC.BYTE` (R120). -/
  | encByte
  /-- `ENC.EOI` (R121). -/
  | encEoi
  /-- `ENC.EMIT` (R122). -/
  | encEmit
  /-- `ENC.EMIT_EOI` (R123). -/
  | encEmitEoi
  /-- `P.HDR.ESC` (R141). -/
  | pHdrEsc
  /-- `P.HDR.OTHER` (R142). -/
  | pHdrOther
  /-- `P.HDR.EOI` (R143). -/
  | pHdrEoi
  /-- `P.PFX.OTHER` (R144). -/
  | pPfxOther
  /-- `P.PFX.LBR` (R145). -/
  | pPfxLbr
  /-- `P.PFX.EOI` (R146). -/
  | pPfxEoi
  /-- `P.DIG.DIGIT` (R147). -/
  | pDigDigit
  /-- `P.DIG.DIGIT4` (R148). -/
  | pDigDigit4
  /-- `P.DIG.M0` (R149). -/
  | pDigM0
  /-- `P.DIG.MOVF` (R150). -/
  | pDigMovf
  /-- `P.DIG.M` (R151). -/
  | pDigM
  /-- `P.DIG.OTHER` (R152). -/
  | pDigOther
  /-- `P.DIG.EOI` (R153). -/
  | pDigEoi
  /-- `P.FILL.ZERO` (R154). -/
  | pFillZero
  /-- `P.FILL.CODE` (R155). -/
  | pFillCode
  /-- `P.FILL.OOB` (R156). -/
  | pFillOob
  /-- `P.FILL.EOI` (R157). -/
  | pFillEoi
  /-- `P.DELIVER` (R158). -/
  | pDeliver
  /-- `D.EMPTY.CODE` (R221). -/
  | dEmptyCode
  /-- `D.EMPTY.ERR` (R222). -/
  | dEmptyErr
  /-- `D.EMPTY.END` (R223). -/
  | dEmptyEnd
  /-- `D.HELD.CODE` (R224). -/
  | dHeldCode
  /-- `D.HELD.ERR` (R225). -/
  | dHeldErr
  /-- `D.HELD.END0` (R226). -/
  | dHeldEnd0
  /-- `D.HELD.END1` (R227). -/
  | dHeldEnd1
  /-- `D.DELIVER` (R228). -/
  | dDeliver
  /-- `W.C40` (R181). -/
  | wC40 (fill : Byte)
  /-- `W.C41` (R182). -/
  | wC41 (fill : Byte)
  /-- `W.C42` (R183). -/
  | wC42 (fill : Byte)
  /-- `W.C43` (R184). -/
  | wC43 (fill : Byte)
  /-- `W.C44` (R185). -/
  | wC44 (fill : Byte)
  /-- `W.C45` (R186). -/
  | wC45 (fill : Byte)
  /-- `W.C46` (R187). -/
  | wC46 (fill : Byte)
  /-- `W.C47` (R188). -/
  | wC47 (fill : Byte)
  /-- `W.C100` (R189). -/
  | wC100 (fill : Byte)
  /-- `W.C101` (R190). -/
  | wC101 (fill : Byte)
  /-- `W.C102` (R191). -/
  | wC102 (fill : Byte)
  /-- `W.C103` (R192). -/
  | wC103 (fill : Byte)
  /-- `W.C104` (R193). -/
  | wC104 (fill : Byte)
  /-- `W.C105` (R194). -/
  | wC105 (fill : Byte)
  /-- `W.C106` (R195). -/
  | wC106 (fill : Byte)
  /-- `W.C107` (R196). -/
  | wC107 (fill : Byte)
  /-- `W.C040` (R197). -/
  | wC040 (fill : Byte)
  /-- `W.C041` (R198). -/
  | wC041 (fill : Byte)
  /-- `W.C042` (R199). -/
  | wC042 (fill : Byte)
  /-- `W.C043` (R200). -/
  | wC043 (fill : Byte)
  /-- `W.C044` (R201). -/
  | wC044 (fill : Byte)
  /-- `W.C045` (R202). -/
  | wC045 (fill : Byte)
  /-- `W.C046` (R203). -/
  | wC046 (fill : Byte)
  /-- `W.C047` (R204). -/
  | wC047 (fill : Byte)
  /-- `W.END0` (R205). -/
  | wEnd0 (fill : Byte)
  /-- `W.END00` (R206). -/
  | wEnd00 (fill : Byte)
  /-- `W.END000` (R207). -/
  | wEnd000 (fill : Byte)
  deriving DecidableEq, Repr

end Sys2Proof
end

