-- ==== Sys2Proof/WellFormed.lean ====
section
/-! DEFINITION. Which instructions are well-formed: an operand the spec types `Code` is one of the sixteen numbers
(10_state.md rule R21, 40_code_mapper.md rule R103). -/

namespace Sys2Proof

/-- The operands of type `Code` are Codes; every other operand may have any value. -/
def Instr.wf : Instr → Bool
  | .codeToNib c => Machine.isCode c
  | .codeRender c => Machine.isCode c
  | .pairFromCodes h l => Machine.isCode h && Machine.isCode l
  | .pairToByte h l => Machine.isCode h && Machine.isCode l
  | .pairIter h l => Machine.isCode h && Machine.isCode l
  | .codeFromNib _ => true
  | .codeFromLo _ => true
  | .codeFromHi _ => true
  | .codeTryFrom _ => true
  | .pairFromByte _ => true
  | .encByte => true
  | .encEoi => true
  | .encEmit => true
  | .encEmitEoi => true
  | .pHdrEsc => true
  | .pHdrOther => true
  | .pHdrEoi => true
  | .pPfxOther => true
  | .pPfxLbr => true
  | .pPfxEoi => true
  | .pDigDigit => true
  | .pDigDigit4 => true
  | .pDigM0 => true
  | .pDigMovf => true
  | .pDigM => true
  | .pDigOther => true
  | .pDigEoi => true
  | .pFillZero => true
  | .pFillCode => true
  | .pFillOob => true
  | .pFillEoi => true
  | .pDeliver => true
  | .dEmptyCode => true
  | .dEmptyErr => true
  | .dEmptyEnd => true
  | .dHeldCode => true
  | .dHeldErr => true
  | .dHeldEnd0 => true
  | .dHeldEnd1 => true
  | .dDeliver => true
  | .wC40 _ => true
  | .wC41 _ => true
  | .wC42 _ => true
  | .wC43 _ => true
  | .wC44 _ => true
  | .wC45 _ => true
  | .wC46 _ => true
  | .wC47 _ => true
  | .wC100 _ => true
  | .wC101 _ => true
  | .wC102 _ => true
  | .wC103 _ => true
  | .wC104 _ => true
  | .wC105 _ => true
  | .wC106 _ => true
  | .wC107 _ => true
  | .wC040 _ => true
  | .wC041 _ => true
  | .wC042 _ => true
  | .wC043 _ => true
  | .wC044 _ => true
  | .wC045 _ => true
  | .wC046 _ => true
  | .wC047 _ => true
  | .wEnd0 _ => true
  | .wEnd00 _ => true
  | .wEnd000 _ => true

end Sys2Proof
end

