-- ==== Sys2Proof/Decode.lean ====
section
/-! DEFINITION. The decoder of wire words, total on any bytes, which rejects by name, and after it the encoder; both
written from the encodings of 44_wire_words.md (rules R181 to R208) and 30_encoding.md (R70, R71, R78, R79). -/

namespace Sys2Proof

/-- Why a byte sequence is not a wire word, by the position at which it departs from 30_encoding.md rule R70
(R78, R79, R208). -/
inductive Reject where
  /-- The bytes end before the word is complete (R79, last row; R208 "only the beginning of a word"). Safe. -/
  | truncated
  /-- Position 0 is not `ESC` (R79). Safe. -/
  | notEscape (b : Byte)
  /-- Position 1 is not `[` (R79). Safe. -/
  | notBracket (b : Byte)
  /-- `m` with no digit before it (R79). Safe. -/
  | noDigits
  /-- A fourth digit (R79). Safe. -/
  | tooManyDigits
  /-- A byte in the digit field that is neither a digit nor `m` (R79). Safe. -/
  | unexpected (b : Byte)
  /-- The number is 256 to 999 (R78). Safe. -/
  | overflow
  /-- The number is 1 to 39, 48 to 99 or 108 to 255 (R78). Safe. -/
  | outOfBounds
  deriving DecidableEq, Repr

/-- One row of the wire-word part of the opcode table: the bytes before the fill byte, and the instruction
with that fill. -/
structure WordRow where
  lead : List Byte
  build : Byte → Instr

/-- The opcode table: the eight canonical words of the low set (R181 to R188). -/
def rowsLow : List WordRow :=
  [
    { lead := [0x1B, 0x5B, 0x34, 0x30, 0x6D], build := .wC40 },
    { lead := [0x1B, 0x5B, 0x34, 0x31, 0x6D], build := .wC41 },
    { lead := [0x1B, 0x5B, 0x34, 0x32, 0x6D], build := .wC42 },
    { lead := [0x1B, 0x5B, 0x34, 0x33, 0x6D], build := .wC43 },
    { lead := [0x1B, 0x5B, 0x34, 0x34, 0x6D], build := .wC44 },
    { lead := [0x1B, 0x5B, 0x34, 0x35, 0x6D], build := .wC45 },
    { lead := [0x1B, 0x5B, 0x34, 0x36, 0x6D], build := .wC46 },
    { lead := [0x1B, 0x5B, 0x34, 0x37, 0x6D], build := .wC47 } ]

/-- The opcode table: the eight canonical words of the high set (R189 to R196). -/
def rowsHigh : List WordRow :=
  [
    { lead := [0x1B, 0x5B, 0x31, 0x30, 0x30, 0x6D], build := .wC100 },
    { lead := [0x1B, 0x5B, 0x31, 0x30, 0x31, 0x6D], build := .wC101 },
    { lead := [0x1B, 0x5B, 0x31, 0x30, 0x32, 0x6D], build := .wC102 },
    { lead := [0x1B, 0x5B, 0x31, 0x30, 0x33, 0x6D], build := .wC103 },
    { lead := [0x1B, 0x5B, 0x31, 0x30, 0x34, 0x6D], build := .wC104 },
    { lead := [0x1B, 0x5B, 0x31, 0x30, 0x35, 0x6D], build := .wC105 },
    { lead := [0x1B, 0x5B, 0x31, 0x30, 0x36, 0x6D], build := .wC106 },
    { lead := [0x1B, 0x5B, 0x31, 0x30, 0x37, 0x6D], build := .wC107 } ]

/-- The opcode table: the eight leading-zero spellings of the low set (R197 to R204). -/
def rowsLeadingZero : List WordRow :=
  [
    { lead := [0x1B, 0x5B, 0x30, 0x34, 0x30, 0x6D], build := .wC040 },
    { lead := [0x1B, 0x5B, 0x30, 0x34, 0x31, 0x6D], build := .wC041 },
    { lead := [0x1B, 0x5B, 0x30, 0x34, 0x32, 0x6D], build := .wC042 },
    { lead := [0x1B, 0x5B, 0x30, 0x34, 0x33, 0x6D], build := .wC043 },
    { lead := [0x1B, 0x5B, 0x30, 0x34, 0x34, 0x6D], build := .wC044 },
    { lead := [0x1B, 0x5B, 0x30, 0x34, 0x35, 0x6D], build := .wC045 },
    { lead := [0x1B, 0x5B, 0x30, 0x34, 0x36, 0x6D], build := .wC046 },
    { lead := [0x1B, 0x5B, 0x30, 0x34, 0x37, 0x6D], build := .wC047 } ]

/-- The opcode table: the three spellings of the sentinel (R205 to R207). -/
def rowsSentinel : List WordRow :=
  [
    { lead := [0x1B, 0x5B, 0x30, 0x6D], build := .wEnd0 },
    { lead := [0x1B, 0x5B, 0x30, 0x30, 0x6D], build := .wEnd00 },
    { lead := [0x1B, 0x5B, 0x30, 0x30, 0x30, 0x6D], build := .wEnd000 } ]

/-- The 27 wire words (R180). -/
def wordRows : List WordRow := rowsLow ++ rowsHigh ++ rowsLeadingZero ++ rowsSentinel

/-- What is left of `bs` after the bytes `lead`, if `bs` begins with them. -/
def stripLead : List Byte → List Byte → Option (List Byte)
  | [], bs => some bs
  | _ :: _, [] => none
  | x :: xs, b :: bs => if x = b then stripLead xs bs else none

/-- A row read at the front of `bs`: its lead bytes, then one fill byte of any value (R180). -/
def WordRow.read (r : WordRow) (bs : List Byte) : Option (Instr × List Byte) :=
  match stripLead r.lead bs with
  | some (fill :: rest) => some (r.build fill, rest)
  | _ => none

/-- An ASCII digit byte (30_encoding.md R70): `0x30` to `0x39`. -/
def isDigit (b : Byte) : Bool := decide (Config.digitLo ≤ b) && decide (b ≤ Config.digitHi)

/-- The digit field of a sequence that is no wire word, by name (R79): `n` digits with the value `v` are behind. -/
def rejectDigits : Nat → Nat → List Byte → Reject
  | _, _, [] => .truncated
  | n, v, b :: bs =>
    if isDigit b then
      if n < 3 then rejectDigits (n + 1) (v * 10 + (b &&& 0x0F).toNat) bs else .tooManyDigits
    else if b = Config.codeEnd then
      if n = 0 then .noDigits
      else if 255 < v then .overflow
      else if bs = [] then .truncated
      else .outOfBounds
    else .unexpected b

/-- The name under which bytes that are no wire word are rejected (R78, R79). -/
def rejectName : List Byte → Reject
  | [] => .truncated
  | e :: rest =>
    if e = Config.esc then
      match rest with
      | [] => .truncated
      | l :: rest' => if l = Config.lbr then rejectDigits 0 0 rest' else .notBracket l
    else .notEscape e

/-- The wire word at the front of `bs` and what follows it, or the name of the rejection. -/
def decode (bs : List Byte) : Except Reject (Instr × List Byte) :=
  match wordRows.findSome? (fun r => r.read bs) with
  | some x => .ok x
  | none => .error (rejectName bs)

/-! ## The table's match and mask -/

/-- A byte sequence as one number, first byte most significant (R71). -/
def wireNumber (bs : List Byte) : Nat := bs.foldl (fun n b => n * 256 + b.toNat) 0

/-- `match` of a row of the opcode table, its length in bytes and its `mask` (R88, R180). -/
structure MaskRow where
  lengthBytes : Nat
  pattern : Nat
  mask : Nat
  instr : Byte → Instr


/-- Match and mask: the eight canonical words of the low set (R181 to R188). -/
def maskRowsLow : List MaskRow :=
  [
    { lengthBytes := 6, pattern := 0x1B5B34306D00, mask := 0xFFFFFFFFFF00, instr := .wC40 },
    { lengthBytes := 6, pattern := 0x1B5B34316D00, mask := 0xFFFFFFFFFF00, instr := .wC41 },
    { lengthBytes := 6, pattern := 0x1B5B34326D00, mask := 0xFFFFFFFFFF00, instr := .wC42 },
    { lengthBytes := 6, pattern := 0x1B5B34336D00, mask := 0xFFFFFFFFFF00, instr := .wC43 },
    { lengthBytes := 6, pattern := 0x1B5B34346D00, mask := 0xFFFFFFFFFF00, instr := .wC44 },
    { lengthBytes := 6, pattern := 0x1B5B34356D00, mask := 0xFFFFFFFFFF00, instr := .wC45 },
    { lengthBytes := 6, pattern := 0x1B5B34366D00, mask := 0xFFFFFFFFFF00, instr := .wC46 },
    { lengthBytes := 6, pattern := 0x1B5B34376D00, mask := 0xFFFFFFFFFF00, instr := .wC47 } ]

/-- Match and mask: the eight canonical words of the high set (R189 to R196). -/
def maskRowsHigh : List MaskRow :=
  [
    { lengthBytes := 7, pattern := 0x1B5B3130306D00, mask := 0xFFFFFFFFFFFF00, instr := .wC100 },
    { lengthBytes := 7, pattern := 0x1B5B3130316D00, mask := 0xFFFFFFFFFFFF00, instr := .wC101 },
    { lengthBytes := 7, pattern := 0x1B5B3130326D00, mask := 0xFFFFFFFFFFFF00, instr := .wC102 },
    { lengthBytes := 7, pattern := 0x1B5B3130336D00, mask := 0xFFFFFFFFFFFF00, instr := .wC103 },
    { lengthBytes := 7, pattern := 0x1B5B3130346D00, mask := 0xFFFFFFFFFFFF00, instr := .wC104 },
    { lengthBytes := 7, pattern := 0x1B5B3130356D00, mask := 0xFFFFFFFFFFFF00, instr := .wC105 },
    { lengthBytes := 7, pattern := 0x1B5B3130366D00, mask := 0xFFFFFFFFFFFF00, instr := .wC106 },
    { lengthBytes := 7, pattern := 0x1B5B3130376D00, mask := 0xFFFFFFFFFFFF00, instr := .wC107 } ]

/-- Match and mask: the eight leading-zero spellings of the low set (R197 to R204). -/
def maskRowsLeadingZero : List MaskRow :=
  [
    { lengthBytes := 7, pattern := 0x1B5B3034306D00, mask := 0xFFFFFFFFFFFF00, instr := .wC040 },
    { lengthBytes := 7, pattern := 0x1B5B3034316D00, mask := 0xFFFFFFFFFFFF00, instr := .wC041 },
    { lengthBytes := 7, pattern := 0x1B5B3034326D00, mask := 0xFFFFFFFFFFFF00, instr := .wC042 },
    { lengthBytes := 7, pattern := 0x1B5B3034336D00, mask := 0xFFFFFFFFFFFF00, instr := .wC043 },
    { lengthBytes := 7, pattern := 0x1B5B3034346D00, mask := 0xFFFFFFFFFFFF00, instr := .wC044 },
    { lengthBytes := 7, pattern := 0x1B5B3034356D00, mask := 0xFFFFFFFFFFFF00, instr := .wC045 },
    { lengthBytes := 7, pattern := 0x1B5B3034366D00, mask := 0xFFFFFFFFFFFF00, instr := .wC046 },
    { lengthBytes := 7, pattern := 0x1B5B3034376D00, mask := 0xFFFFFFFFFFFF00, instr := .wC047 } ]

/-- Match and mask: the three spellings of the sentinel (R205 to R207). -/
def maskRowsSentinel : List MaskRow :=
  [
    { lengthBytes := 5, pattern := 0x1B5B306D00, mask := 0xFFFFFFFF00, instr := .wEnd0 },
    { lengthBytes := 6, pattern := 0x1B5B30306D00, mask := 0xFFFFFFFFFF00, instr := .wEnd00 },
    { lengthBytes := 7, pattern := 0x1B5B3030306D00, mask := 0xFFFFFFFFFFFF00, instr := .wEnd000 } ]

/-- The table's 27 rows of formats `B1`, `B2`, `B3`. -/
def maskRows : List MaskRow := maskRowsLow ++ maskRowsHigh ++ maskRowsLeadingZero ++ maskRowsSentinel

/-- "a byte sequence of the row's length is that word exactly when `(sequence & mask) = match`" (R88). -/
def MaskRow.fits (r : MaskRow) (bs : List Byte) : Bool :=
  bs.length == r.lengthBytes && (wireNumber bs &&& r.mask) == r.pattern

/-! ## The encoder -/

/-- The bytes of a wire word, with its fill (R181 to R207). An operation or a transition has no bit pattern
(R88: "`match` and `mask` are `null`"). -/
def encode : Instr → Option (List Byte)
  | .codeFromNib _ => none
  | .codeFromLo _ => none
  | .codeFromHi _ => none
  | .codeToNib _ => none
  | .codeTryFrom _ => none
  | .codeRender _ => none
  | .pairFromByte _ => none
  | .pairFromCodes _ _ => none
  | .pairToByte _ _ => none
  | .pairIter _ _ => none
  | .encByte => none
  | .encEoi => none
  | .encEmit => none
  | .encEmitEoi => none
  | .pHdrEsc => none
  | .pHdrOther => none
  | .pHdrEoi => none
  | .pPfxOther => none
  | .pPfxLbr => none
  | .pPfxEoi => none
  | .pDigDigit => none
  | .pDigDigit4 => none
  | .pDigM0 => none
  | .pDigMovf => none
  | .pDigM => none
  | .pDigOther => none
  | .pDigEoi => none
  | .pFillZero => none
  | .pFillCode => none
  | .pFillOob => none
  | .pFillEoi => none
  | .pDeliver => none
  | .dEmptyCode => none
  | .dEmptyErr => none
  | .dEmptyEnd => none
  | .dHeldCode => none
  | .dHeldErr => none
  | .dHeldEnd0 => none
  | .dHeldEnd1 => none
  | .dDeliver => none
  | .wC40 f => some [0x1B, 0x5B, 0x34, 0x30, 0x6D, f]
  | .wC41 f => some [0x1B, 0x5B, 0x34, 0x31, 0x6D, f]
  | .wC42 f => some [0x1B, 0x5B, 0x34, 0x32, 0x6D, f]
  | .wC43 f => some [0x1B, 0x5B, 0x34, 0x33, 0x6D, f]
  | .wC44 f => some [0x1B, 0x5B, 0x34, 0x34, 0x6D, f]
  | .wC45 f => some [0x1B, 0x5B, 0x34, 0x35, 0x6D, f]
  | .wC46 f => some [0x1B, 0x5B, 0x34, 0x36, 0x6D, f]
  | .wC47 f => some [0x1B, 0x5B, 0x34, 0x37, 0x6D, f]
  | .wC100 f => some [0x1B, 0x5B, 0x31, 0x30, 0x30, 0x6D, f]
  | .wC101 f => some [0x1B, 0x5B, 0x31, 0x30, 0x31, 0x6D, f]
  | .wC102 f => some [0x1B, 0x5B, 0x31, 0x30, 0x32, 0x6D, f]
  | .wC103 f => some [0x1B, 0x5B, 0x31, 0x30, 0x33, 0x6D, f]
  | .wC104 f => some [0x1B, 0x5B, 0x31, 0x30, 0x34, 0x6D, f]
  | .wC105 f => some [0x1B, 0x5B, 0x31, 0x30, 0x35, 0x6D, f]
  | .wC106 f => some [0x1B, 0x5B, 0x31, 0x30, 0x36, 0x6D, f]
  | .wC107 f => some [0x1B, 0x5B, 0x31, 0x30, 0x37, 0x6D, f]
  | .wC040 f => some [0x1B, 0x5B, 0x30, 0x34, 0x30, 0x6D, f]
  | .wC041 f => some [0x1B, 0x5B, 0x30, 0x34, 0x31, 0x6D, f]
  | .wC042 f => some [0x1B, 0x5B, 0x30, 0x34, 0x32, 0x6D, f]
  | .wC043 f => some [0x1B, 0x5B, 0x30, 0x34, 0x33, 0x6D, f]
  | .wC044 f => some [0x1B, 0x5B, 0x30, 0x34, 0x34, 0x6D, f]
  | .wC045 f => some [0x1B, 0x5B, 0x30, 0x34, 0x35, 0x6D, f]
  | .wC046 f => some [0x1B, 0x5B, 0x30, 0x34, 0x36, 0x6D, f]
  | .wC047 f => some [0x1B, 0x5B, 0x30, 0x34, 0x37, 0x6D, f]
  | .wEnd0 f => some [0x1B, 0x5B, 0x30, 0x6D, f]
  | .wEnd00 f => some [0x1B, 0x5B, 0x30, 0x30, 0x6D, f]
  | .wEnd000 f => some [0x1B, 0x5B, 0x30, 0x30, 0x30, 0x6D, f]

/-! ## The host's numbering -/

/-- The `k` bytes of `w`, most significant first: the numbering of the opcode table, "first byte on the wire most
significant" (R71, R88). -/
def bytesFirstHigh : Nat → Nat → List Byte
  | 0, _ => []
  | k + 1, w => BitVec.ofNat 8 (w >>> (8 * k)) :: bytesFirstHigh k w

/-- The `k` bytes of `w`, least significant first. -/
def bytesFirstLow : Nat → Nat → List Byte
  | 0, _ => []
  | k + 1, w => BitVec.ofNat 8 w :: bytesFirstLow k (w >>> 8)

/-- The bytes of a table word of `nbits` bits as they travel on the wire. DESIGN CHOICE (log 13), safe: the
table's own numbering (R88) is read first; a number that is no word in it is read with bit 0 in the first byte,
and no number is a word in both. -/
def tableBytes (nbits w : Nat) : List Byte :=
  let bs := bytesFirstHigh (nbits / 8) w
  match decode bs with
  | .ok _ => bs
  | .error _ =>
    let cs := bytesFirstLow (nbits / 8) w
    match decode cs with
    | .ok _ => cs
    | .error _ => bs

/-- The instruction the decoder reads from a table word. -/
def decodeTableWord (nbits w : Nat) : Option Instr :=
  match decode (tableBytes nbits w) with
  | .ok (i, _) => some i
  | .error _ => none

end Sys2Proof
end

