-- ==== Sys2Proof/Machine/Operands.lean ====
section
/-! DEFINITION. The forms an item can have for a transition: the byte classes of 43_parser.md rule R140, and what a
stream offers (20_memory.md R52, R54). -/

namespace Sys2Proof.Machine

/-- Class `ESC` (R140). -/
def isEsc (b : Byte) : Bool := b == Config.esc

/-- Class `LBR` (R140). -/
def isLbr (b : Byte) : Bool := b == Config.lbr

/-- Class `M` (R140). -/
def isM (b : Byte) : Bool := b == Config.codeEnd

/-- The numeric value of a digit byte, `b & 0x0F` (30_encoding.md R74), at the accumulator's width. -/
def digitVal (b : Byte) : BitVec 10 := (b &&& 0x0F).zeroExtend 10

/-- `raw_ready` (R52, R291). -/
def State.rawReady (s : State) : Bool := !s.rst && !s.eBusy && !s.eEoi

/-- `txi_ready` (R52, R291). -/
def State.txiReady (s : State) : Bool := !s.rst && s.pQ.isEmpty

/-- `DEC` is ready for `PITEM` (R52). -/
def State.pitemReady (s : State) : Bool := !s.rst && s.dQ.isEmpty

/-- The bytes at the front of a list of items, up to the first `EOI`. -/
def leadingBytes : List InItem → List Byte
  | .byte b :: xs => b :: leadingBytes xs
  | _ => []

/-- What is left of the items of `TEXT_IN` after the bytes `bs`, if it begins with them. -/
def stripItems : List Byte → List InItem → Option (List InItem)
  | [], xs => some xs
  | b :: bs, .byte c :: xs => if b = c then stripItems bs xs else none
  | _ :: _, _ => none

end Sys2Proof.Machine
end

