-- ==== Sys2Proof/Machine/Ops.lean ====
section
/-! DEFINITION. The shared operations: taking an item from a stream, emitting items, raising an error, writing text,
resetting the registers. Every transition is one of these with its guard and its register writes. -/

namespace Sys2Proof.Machine

/-- The answer where a rule's "Enabled when" does not hold (log 8). -/
def disabled : Out := .refused .notEnabled

/-! ## StreamRead (00_scope.md R11, 20_memory.md R54): the item, and the state with the item removed -/

/-- The next item of `RAW_IN`, when `raw_ready = 1` and the host offers one. -/
def takeRaw (s : State) : Option (InItem × State) :=
  if s.rawReady then
    match s.rawIn with
    | [] => none
    | x :: xs => some (x, { s with rawIn := xs })
  else none

/-- The next item of `TEXT_IN`, when `txi_ready = 1` and the host offers one. -/
def takeText (s : State) : Option (InItem × State) :=
  if s.txiReady then
    match s.textIn with
    | [] => none
    | x :: xs => some (x, { s with textIn := xs })
  else none

/-- The transfer on `PITEM` (R158): the head of `p_q` leaves the queue and shows on the tap (R51), when `DEC` is
ready. The transition that takes it is one joint step with `P.DELIVER` (log 7). -/
def takePItem (s : State) : Option (PItem × State) :=
  if s.pitemReady then
    match s.pQ with
    | [] => none
    | x :: xs => some (x, { s with pQ := xs, pitem := s.pitem ++ [x] })
  else none

/-! ## Emitting -/

/-- `emit PITEM: …` in a parser rule: the items go into `p_q` (R158). -/
def State.emitP (s : State) (xs : List PItem) : State := { s with pQ := s.pQ ++ xs }

/-- `emit DEC_OUT: …` in a decoder rule: the items go into `d_q` (R228). -/
def State.emitD (s : State) (xs : List DItem) : State := { s with dQ := s.dQ ++ xs }

/-- `pstate <- S`, the block's nearest thing to a jump (R10, R27). -/
def State.goto (s : State) (p : PState) : State := { s with pstate := p }

/-! ## Taking an error (the block's exception entry)

`raise Kind(info)` (00_scope.md R12, 60_exceptions.md R263): the item consumed stays consumed, `ERR(kind, info)` is
emitted, `pstate` becomes `HDR`. Nothing is saved, no mode changes, and so there is no return from an error: "No
operation restores anything, because nothing was saved" (R266). -/

/-- `raise Kind(info)` in a parser rule (R12, R263). -/
def State.raise (s : State) (k : ErrKind) (info : Byte) : State := (s.emitP [.err k info]).goto .hdr

/-- `EOI` inside a block (R146, R153, R157): the error, then `END(1)`. -/
def State.raiseEoi (s : State) : State :=
  (s.emitP [.err .byteStreamTerminatedUnexpectedly 0, .fin true]).goto .hdr

/-- The item of a completed block (R143, R154, R155): emitted, and `pstate` becomes `HDR`. -/
def State.finish (s : State) (x : PItem) : State := (s.emitP [x]).goto .hdr

/-! ## The forms of a parser transition: on a byte, on `EOI` -/

/-- "`TEXT_IN` offers `Byte(b)`" with a guard on `b`: read it and do `f b`. -/
def onTextByte (s : State) (guard : Byte → Bool) (f : Byte → State → State) : Out :=
  match takeText s with
  | some (.byte b, s') => if guard b then .next (f b s') else disabled
  | _ => disabled

/-- "`TEXT_IN` offers `EOI`" with a guard: read it and do `f`. -/
def onTextEoi (s : State) (guard : Bool) (f : State → State) : Out :=
  match takeText s with
  | some (.eoi, s') => if guard then .next (f s') else disabled
  | _ => disabled

/-! ## The pair decoder's registers -/

/-- R221: `hi_code <- c; hi_valid <- 1`. -/
def State.holdHigh (s : State) (c : Byte) : State := { s with hiCode := c, hiValid := true }

/-- `hi_valid <- 0` (R224 to R227). -/
def State.dropHigh (s : State) : State := { s with hiValid := false }

/-- R224: the pending high code and `c` make a byte. `CODE.TO_NIB` has no meaning on a number that is no Code
(R103), so the step stops there (log 9). -/
def joinHeld (c : Byte) (s : State) : Out :=
  if isCode s.hiCode && isCode c then
    .next (s.emitD [.byte (pairToByte (pairFromCodes s.hiCode c))]).dropHigh
  else .fault .notACode

/-- The transition table of 45_pair_decoder.md rule R220, on an item just taken from `PITEM`. -/
def decAccept (x : PItem) (s : State) : Out :=
  match s.hiValid, x with
  | false, .code c => .next (s.holdHigh c)
  | false, .err k info => .next (s.emitD [.err k info])
  | false, .fin z => .next (s.emitD [.fin z])
  | true, .code c => joinHeld c s
  | true, .err k info => .next (s.emitD [.err k info]).dropHigh
  | true, .fin false => .next (s.emitD [.err .missingSecondColorCodeBlock 0]).dropHigh
  | true, .fin true => .next (s.emitD [.err .missingSecondColorCodeBlock 0, .fin true]).dropHigh

/-! ## The framer -/

/-- The Code of the block being written (R122: `PAIR.ITER` order). -/
def State.eCode (s : State) : Byte :=
  match s.eHalf with
  | .high => fromHi s.eByte
  | .low => fromLo s.eByte

/-- The registers after the byte at `e_pos` is out (R122). -/
def State.advance (s : State) : State :=
  if s.ePos.toNat + 1 < blkLen s.eCode then { s with ePos := s.ePos + 1 }
  else match s.eHalf with
    | .high => { s with eHalf := .low, ePos := 0 }
    | .low => { s with eBusy := false }

/-- A transfer of `t` on `TEXT_OUT`; at position 0 of a block the tap `ECODE` shows its Code (R122, R125). -/
def State.putText (s : State) (t : Byte) : State :=
  { s with
    textOut := s.textOut ++ [.byte t]
    ecode := if s.ePos = 0 then s.ecode ++ [s.eCode] else s.ecode }

/-! ## Combinational operations, reset -/

/-- The result of a combinational operation: nothing else changes (R100 to R113: "hold no state", log 5). -/
def State.answer (s : State) (v : OpValue) : State := { s with opOut := some v }

/-- An operation whose operands of type `Code` must be Codes (R103, log 9). -/
def answerIf (ok : Bool) (v : OpValue) (s : State) : Out :=
  if ok then .next (s.answer v) else .refused .illFormed

/-- A rising edge with `rst = 1` (R290, R292): every register takes its reset value, the unspecified ones a free
value (log 2); nothing is transferred and nothing is emitted. -/
def State.resetRegs (s : State) : State :=
  { s with
    pstate := .hdr
    ndig := Config.unspecNdig s.resets
    acc := Config.unspecAcc s.resets
    pQ := []
    hiValid := false
    hiCode := Config.unspecHiCode s.resets
    dQ := []
    eBusy := false
    eByte := Config.unspecEByte s.resets
    eHalf := halfOf (Config.unspecEHalf s.resets)
    ePos := Config.unspecEPos s.resets
    eEoi := false
    resets := s.resets + 1
    rstPhase := .taken }

end Sys2Proof.Machine
end

