-- ==== Sys2Proof/Machine/Encoder.lean ====
section
/-! DEFINITION. The transitions `ENC.*` (42_encoder.md). -/

namespace Sys2Proof.Machine

/-- `ENC.BYTE` (R120): accept a payload byte. -/
def execEncByte (s : State) : Out :=
  match takeRaw s with
  | some (.byte b, s') => .next { s' with eByte := b, eHalf := .high, ePos := 0, eBusy := true }
  | _ => disabled

/-- `ENC.EOI` (R121): accept the end of the input stream. -/
def execEncEoi (s : State) : Out :=
  match takeRaw s with
  | some (.eoi, s') => .next { s' with eEoi := true }
  | _ => disabled

/-- `ENC.EMIT` (R122): write the next text byte. The registers change at the transfer, so while `txo_ready = 0` the
byte stays offered and nothing changes (log 20). -/
def execEncEmit (s : State) : Out :=
  if s.rst = true ∨ s.eBusy = false then disabled
  else if s.txoReady = false then .next s
  else match serByte s.eCode s.ePos.toNat with
    | some t => .next (s.putText t).advance
    | none => .fault .serPastEnd

/-- `ENC.EMIT_EOI` (R123): write the end of the output stream; while `txo_ready = 0` it stays offered (log 20). -/
def execEncEmitEoi (s : State) : Out :=
  if s.rst = true ∨ s.eEoi = false then disabled
  else if s.txoReady = false then .next s
  else .next { s with textOut := s.textOut ++ [.eoi], eEoi := false }

end Sys2Proof.Machine
end

