-- ==== Sys2Proof/Machine/Mapper.lean ====
section
/-! DEFINITION. The instructions `CODE.*` (40_code_mapper.md): combinational, they read no stream and write no
register; their result stands in `opOut` (log 5). -/

namespace Sys2Proof.Machine

/-- `CODE.FROM_NIB` (R100). -/
def execCodeFromNib (v : Nibble) (s : State) : Out := .next (s.answer (.code (fromNib v)))

/-- `CODE.FROM_LO` (R101). -/
def execCodeFromLo (b : Byte) (s : State) : Out := .next (s.answer (.code (fromLo b)))

/-- `CODE.FROM_HI` (R102). -/
def execCodeFromHi (b : Byte) (s : State) : Out := .next (s.answer (.code (fromHi b)))

/-- `CODE.TO_NIB` (R103). -/
def execCodeToNib (c : Byte) (s : State) : Out := answerIf (isCode c) (.nibble (toNib c)) s

/-- `CODE.TRY_FROM` (R104): the failure is an answer, not a stop. -/
def execCodeTryFrom (n : Byte) (s : State) : Out :=
  match tryFrom n with
  | .ok c => .next (s.answer (.code c))
  | .error k => .next (s.answer (.codeError k))

/-- `CODE.RENDER` (R105). -/
def execCodeRender (c : Byte) (s : State) : Out := answerIf (isCode c) (.bytes (render c)) s

end Sys2Proof.Machine
end

