-- ==== Sys2Proof/Machine/Pair.lean ====
section
/-! DEFINITION. The instructions `PAIR.*` (41_code_pair.md): combinational, as `CODE.*` (log 5). -/

namespace Sys2Proof.Machine

/-- `PAIR.FROM_BYTE` (R110). -/
def execPairFromByte (b : Byte) (s : State) : Out :=
  .next (s.answer (.pair (pairFromByte b).1 (pairFromByte b).2))

/-- `PAIR.FROM_CODES` (R111): no validation beyond Code's own invariant. -/
def execPairFromCodes (h l : Byte) (s : State) : Out :=
  answerIf (isCode h && isCode l) (.pair (pairFromCodes h l).1 (pairFromCodes h l).2) s

/-- `PAIR.TO_BYTE` (R112). -/
def execPairToByte (h l : Byte) (s : State) : Out :=
  answerIf (isCode h && isCode l) (.byte (pairToByte (h, l))) s

/-- `PAIR.ITER` (R113). -/
def execPairIter (h l : Byte) (s : State) : Out :=
  answerIf (isCode h && isCode l) (.codes (pairIter (h, l))) s

end Sys2Proof.Machine
end

