-- ==== Sys2Proof/Machine/PairDecoder.lean ====
section
/-! DEFINITION. The transitions `D.*` (45_pair_decoder.md rules R221 to R228), one definition each. Each but
`D.DELIVER` reads an item of `PITEM`, which is one joint step with `P.DELIVER` (log 7). -/

namespace Sys2Proof.Machine

/-- `D.EMPTY.CODE` (R221): the high code arrives. -/
def execDEmptyCode (s : State) : Out :=
  match takePItem s with
  | some (.code c, s') => if s.hiValid = false then .next (s'.holdHigh c) else disabled
  | _ => disabled

/-- `D.EMPTY.ERR` (R222): passed on unchanged. -/
def execDEmptyErr (s : State) : Out :=
  match takePItem s with
  | some (.err k info, s') => if s.hiValid = false then .next (s'.emitD [.err k info]) else disabled
  | _ => disabled

/-- `D.EMPTY.END` (R223). -/
def execDEmptyEnd (s : State) : Out :=
  match takePItem s with
  | some (.fin z, s') => if s.hiValid = false then .next (s'.emitD [.fin z]) else disabled
  | _ => disabled

/-- `D.HELD.CODE` (R224): the low code arrives. -/
def execDHeldCode (s : State) : Out :=
  match takePItem s with
  | some (.code c, s') => if s.hiValid = true then joinHeld c s' else disabled
  | _ => disabled

/-- `D.HELD.ERR` (R225): the error is passed on and the pending high code is dropped. -/
def execDHeldErr (s : State) : Out :=
  match takePItem s with
  | some (.err k info, s') => if s.hiValid = true then .next (s'.emitD [.err k info]).dropHigh else disabled
  | _ => disabled

/-- `D.HELD.END0` (R226): a sentinel where the low code was due; no `END` follows. -/
def execDHeldEnd0 (s : State) : Out :=
  match takePItem s with
  | some (.fin false, s') =>
    if s.hiValid = true then .next (s'.emitD [.err .missingSecondColorCodeBlock 0]).dropHigh else disabled
  | _ => disabled

/-- `D.HELD.END1` (R227): the input ends where the low code was due. -/
def execDHeldEnd1 (s : State) : Out :=
  match takePItem s with
  | some (.fin true, s') =>
    if s.hiValid = true then .next (s'.emitD [.err .missingSecondColorCodeBlock 0, .fin true]).dropHigh
    else disabled
  | _ => disabled

/-- `D.DELIVER` (R228): the head of `d_q` goes to the host. -/
def execDDeliver (s : State) : Out :=
  if s.rst = false ∧ s.decReady = true then
    match s.dQ with
    | [] => disabled
    | x :: xs => .next { s with dQ := xs, decOut := s.decOut ++ [x] }
  else disabled

end Sys2Proof.Machine
end

