-- ==== Sys2Proof/Machine/Parser.lean ====
section
/-! DEFINITION. The transitions `P.*` (43_parser.md rules R141 to R158), one definition each. -/

namespace Sys2Proof.Machine

/-! ## State `HDR` -/

/-- `P.HDR.ESC` (R141). -/
def execPHdrEsc (s : State) : Out :=
  onTextByte s (fun b => s.pstate == .hdr && isEsc b) fun _ t => t.goto .pfx

/-- `P.HDR.OTHER` (R142). -/
def execPHdrOther (s : State) : Out :=
  onTextByte s (fun b => s.pstate == .hdr && !isEsc b) fun b t => t.raise .invalidStartByte b

/-- `P.HDR.EOI` (R143): the clean end. -/
def execPHdrEoi (s : State) : Out :=
  onTextEoi s (s.pstate == .hdr) fun t => t.finish (.fin true)

/-! ## State `PFX` -/

/-- `P.PFX.OTHER` (R144). -/
def execPPfxOther (s : State) : Out :=
  onTextByte s (fun b => s.pstate == .pfx && !isLbr b) fun b t => t.raise .invalidNumberPrefix b

/-- `P.PFX.LBR` (R145): `ndig <- 0; acc <- 0; pstate <- DIG`. -/
def execPPfxLbr (s : State) : Out :=
  onTextByte s (fun b => s.pstate == .pfx && isLbr b) fun _ t => { t with ndig := 0, acc := 0, pstate := .dig }

/-- `P.PFX.EOI` (R146). -/
def execPPfxEoi (s : State) : Out :=
  onTextEoi s (s.pstate == .pfx) State.raiseEoi

/-! ## State `DIG` -/

/-- `P.DIG.DIGIT` (R147): `acc <- acc * 10 + d; ndig <- ndig + 1`. -/
def execPDigDigit (s : State) : Out :=
  onTextByte s (fun b => s.pstate == .dig && isDigit b && !digitsFull s.ndig) fun b t =>
    { t with acc := t.acc * 10 + digitVal b, ndig := t.ndig + 1 }

/-- `P.DIG.DIGIT4` (R148): a fourth digit. -/
def execPDigDigit4 (s : State) : Out :=
  onTextByte s (fun b => s.pstate == .dig && isDigit b && digitsFull s.ndig) fun _ t =>
    t.raise .tooManyCodeDigits Config.atLeast

/-- `P.DIG.M0` (R149): `m` with no digit. -/
def execPDigM0 (s : State) : Out :=
  onTextByte s (fun b => s.pstate == .dig && isM b && noDigits s.ndig) fun _ t => t.raise .noCodeDigitsFound 0

/-- `P.DIG.MOVF` (R150): `m` after a value above 255. -/
def execPDigMovf (s : State) : Out :=
  onTextByte s (fun b => s.pstate == .dig && isM b && !noDigits s.ndig && overflows s.acc) fun _ t =>
    t.raise .invalidCodeValue 0

/-- `P.DIG.M` (R151): `m` after a value of 0 to 255. -/
def execPDigM (s : State) : Out :=
  onTextByte s (fun b => s.pstate == .dig && isM b && !noDigits s.ndig && !overflows s.acc) fun _ t => t.goto .fill

/-- `P.DIG.OTHER` (R152): neither a digit nor `m`. -/
def execPDigOther (s : State) : Out :=
  onTextByte s (fun b => s.pstate == .dig && !isDigit b && !isM b) fun b t => t.raise .unexpectedByte b

/-- `P.DIG.EOI` (R153). -/
def execPDigEoi (s : State) : Out :=
  onTextEoi s (s.pstate == .dig) State.raiseEoi

/-! ## State `FILL`: the fill byte is read and not looked at -/

/-- `P.FILL.ZERO` (R154): the sentinel. -/
def execPFillZero (s : State) : Out :=
  onTextByte s (fun _ => s.pstate == .fill && isSentinel s.acc) fun _ t => t.finish (.fin false)

/-- `P.FILL.CODE` (R155): `CODE(acc[7:0])`. -/
def execPFillCode (s : State) : Out :=
  onTextByte s (fun _ => s.pstate == .fill && numberOk s.acc) fun _ t =>
    t.finish (.code (blockNumber t.acc))

/-- `P.FILL.OOB` (R156): a number outside both ranges. -/
def execPFillOob (s : State) : Out :=
  onTextByte s (fun _ => s.pstate == .fill && !isSentinel s.acc && !numberOk s.acc) fun _ t =>
    t.raise .valueOutOfBounds 0

/-- `P.FILL.EOI` (R157): `EOI` where the fill byte is due. -/
def execPFillEoi (s : State) : Out :=
  onTextEoi s (s.pstate == .fill) State.raiseEoi

/-! ## Delivery -/

/-- `P.DELIVER` (R158): the head of `p_q` goes to `DEC`, which takes it by the transition of rule R220; one joint
step (log 7). -/
def execPDeliver (s : State) : Out :=
  match takePItem s with
  | some (x, s') => decAccept x s'
  | none => disabled

end Sys2Proof.Machine
end

