-- ==== Sys2Proof/Machine/WireWords.lean ====
section
/-! DEFINITION. The wire words `W.*` (44_wire_words.md): a word read from `pstate = HDR` takes the parser through the
transitions its rule lists under *Path* (log 19). -/

namespace Sys2Proof.Machine

/-- Transitions one after another; the first that does not answer a next state ends the path. -/
def alongPath : List (State → Out) → State → Out
  | [], s => .next s
  | f :: fs, s =>
    match f s with
    | .next s' => alongPath fs s'
    | .fault r => .fault r
    | .refused r => .refused r

/-- A word's *Path* up to the fill byte (R181 to R207): rules R141, R145, R147 once per digit, R151. -/
def pathToFill (digits : Nat) : List (State → Out) :=
  [execPHdrEsc, execPPfxLbr] ++ List.replicate digits execPDigDigit ++ [execPDigM]

/-- A wire word: "recognised only from `pstate = HDR`" (R180), when `TEXT_IN` offers its bytes. -/
def readWord (bs : List Byte) (path : List (State → Out)) (s : State) : Out :=
  if s.pstate = .hdr ∧ (stripItems bs s.textIn).isSome = true then alongPath path s else disabled

/-- A word that spells a Code with the given digit bytes: its last transition is R155. -/
def readCode (digits : List Byte) (fill : Byte) (s : State) : Out :=
  readWord ([Config.esc, Config.lbr] ++ digits ++ [Config.codeEnd, fill])
    (pathToFill digits.length ++ [execPFillCode]) s

/-- A spelling of the sentinel: its last transition is R154. -/
def readSentinel (digits : List Byte) (fill : Byte) (s : State) : Out :=
  readWord ([Config.esc, Config.lbr] ++ digits ++ [Config.codeEnd, fill])
    (pathToFill digits.length ++ [execPFillZero]) s

/-- `W.C40` (R181): `1B 5B 34 30 6D ??`, result `CODE(40)`. -/
def execWC40 (fill : Byte) (s : State) : Out := readCode [0x34, 0x30] fill s

/-- `W.C41` (R182): `1B 5B 34 31 6D ??`, result `CODE(41)`. -/
def execWC41 (fill : Byte) (s : State) : Out := readCode [0x34, 0x31] fill s

/-- `W.C42` (R183): `1B 5B 34 32 6D ??`, result `CODE(42)`. -/
def execWC42 (fill : Byte) (s : State) : Out := readCode [0x34, 0x32] fill s

/-- `W.C43` (R184): `1B 5B 34 33 6D ??`, result `CODE(43)`. -/
def execWC43 (fill : Byte) (s : State) : Out := readCode [0x34, 0x33] fill s

/-- `W.C44` (R185): `1B 5B 34 34 6D ??`, result `CODE(44)`. -/
def execWC44 (fill : Byte) (s : State) : Out := readCode [0x34, 0x34] fill s

/-- `W.C45` (R186): `1B 5B 34 35 6D ??`, result `CODE(45)`. -/
def execWC45 (fill : Byte) (s : State) : Out := readCode [0x34, 0x35] fill s

/-- `W.C46` (R187): `1B 5B 34 36 6D ??`, result `CODE(46)`. -/
def execWC46 (fill : Byte) (s : State) : Out := readCode [0x34, 0x36] fill s

/-- `W.C47` (R188): `1B 5B 34 37 6D ??`, result `CODE(47)`. -/
def execWC47 (fill : Byte) (s : State) : Out := readCode [0x34, 0x37] fill s

/-- `W.C100` (R189): `1B 5B 31 30 30 6D ??`, result `CODE(100)`. -/
def execWC100 (fill : Byte) (s : State) : Out := readCode [0x31, 0x30, 0x30] fill s

/-- `W.C101` (R190): `1B 5B 31 30 31 6D ??`, result `CODE(101)`. -/
def execWC101 (fill : Byte) (s : State) : Out := readCode [0x31, 0x30, 0x31] fill s

/-- `W.C102` (R191): `1B 5B 31 30 32 6D ??`, result `CODE(102)`. -/
def execWC102 (fill : Byte) (s : State) : Out := readCode [0x31, 0x30, 0x32] fill s

/-- `W.C103` (R192): `1B 5B 31 30 33 6D ??`, result `CODE(103)`. -/
def execWC103 (fill : Byte) (s : State) : Out := readCode [0x31, 0x30, 0x33] fill s

/-- `W.C104` (R193): `1B 5B 31 30 34 6D ??`, result `CODE(104)`. -/
def execWC104 (fill : Byte) (s : State) : Out := readCode [0x31, 0x30, 0x34] fill s

/-- `W.C105` (R194): `1B 5B 31 30 35 6D ??`, result `CODE(105)`. -/
def execWC105 (fill : Byte) (s : State) : Out := readCode [0x31, 0x30, 0x35] fill s

/-- `W.C106` (R195): `1B 5B 31 30 36 6D ??`, result `CODE(106)`. -/
def execWC106 (fill : Byte) (s : State) : Out := readCode [0x31, 0x30, 0x36] fill s

/-- `W.C107` (R196): `1B 5B 31 30 37 6D ??`, result `CODE(107)`. -/
def execWC107 (fill : Byte) (s : State) : Out := readCode [0x31, 0x30, 0x37] fill s

/-- `W.C040` (R197): `1B 5B 30 34 30 6D ??`, result `CODE(40)`. -/
def execWC040 (fill : Byte) (s : State) : Out := readCode [0x30, 0x34, 0x30] fill s

/-- `W.C041` (R198): `1B 5B 30 34 31 6D ??`, result `CODE(41)`. -/
def execWC041 (fill : Byte) (s : State) : Out := readCode [0x30, 0x34, 0x31] fill s

/-- `W.C042` (R199): `1B 5B 30 34 32 6D ??`, result `CODE(42)`. -/
def execWC042 (fill : Byte) (s : State) : Out := readCode [0x30, 0x34, 0x32] fill s

/-- `W.C043` (R200): `1B 5B 30 34 33 6D ??`, result `CODE(43)`. -/
def execWC043 (fill : Byte) (s : State) : Out := readCode [0x30, 0x34, 0x33] fill s

/-- `W.C044` (R201): `1B 5B 30 34 34 6D ??`, result `CODE(44)`. -/
def execWC044 (fill : Byte) (s : State) : Out := readCode [0x30, 0x34, 0x34] fill s

/-- `W.C045` (R202): `1B 5B 30 34 35 6D ??`, result `CODE(45)`. -/
def execWC045 (fill : Byte) (s : State) : Out := readCode [0x30, 0x34, 0x35] fill s

/-- `W.C046` (R203): `1B 5B 30 34 36 6D ??`, result `CODE(46)`. -/
def execWC046 (fill : Byte) (s : State) : Out := readCode [0x30, 0x34, 0x36] fill s

/-- `W.C047` (R204): `1B 5B 30 34 37 6D ??`, result `CODE(47)`. -/
def execWC047 (fill : Byte) (s : State) : Out := readCode [0x30, 0x34, 0x37] fill s

/-- `W.END0` (R205): `1B 5B 30 6D ??`, result `END(0)`. -/
def execWEnd0 (fill : Byte) (s : State) : Out := readSentinel [0x30] fill s

/-- `W.END00` (R206): `1B 5B 30 30 6D ??`, result `END(0)`. -/
def execWEnd00 (fill : Byte) (s : State) : Out := readSentinel [0x30, 0x30] fill s

/-- `W.END000` (R207): `1B 5B 30 30 30 6D ??`, result `END(0)`. -/
def execWEnd000 (fill : Byte) (s : State) : Out := readSentinel [0x30, 0x30, 0x30] fill s

end Sys2Proof.Machine
end

