-- ==== Sys2Proof/Machine/Dispatch.lean ====
section
/-! DEFINITION. One arm per instruction, each one direct call of its meaning. -/

namespace Sys2Proof.Machine

def exec (i : Instr) (s : State) : Host.Outcome State Fault Refusal :=
  match i with
  | .codeFromNib v => Sys2Proof.Machine.execCodeFromNib v s
  | .codeFromLo b => Sys2Proof.Machine.execCodeFromLo b s
  | .codeFromHi b => Sys2Proof.Machine.execCodeFromHi b s
  | .codeToNib c => Sys2Proof.Machine.execCodeToNib c s
  | .codeTryFrom n => Sys2Proof.Machine.execCodeTryFrom n s
  | .codeRender c => Sys2Proof.Machine.execCodeRender c s
  | .pairFromByte b => Sys2Proof.Machine.execPairFromByte b s
  | .pairFromCodes h l => Sys2Proof.Machine.execPairFromCodes h l s
  | .pairToByte h l => Sys2Proof.Machine.execPairToByte h l s
  | .pairIter h l => Sys2Proof.Machine.execPairIter h l s
  | .encByte => Sys2Proof.Machine.execEncByte s
  | .encEoi => Sys2Proof.Machine.execEncEoi s
  | .encEmit => Sys2Proof.Machine.execEncEmit s
  | .encEmitEoi => Sys2Proof.Machine.execEncEmitEoi s
  | .pHdrEsc => Sys2Proof.Machine.execPHdrEsc s
  | .pHdrOther => Sys2Proof.Machine.execPHdrOther s
  | .pHdrEoi => Sys2Proof.Machine.execPHdrEoi s
  | .pPfxOther => Sys2Proof.Machine.execPPfxOther s
  | .pPfxLbr => Sys2Proof.Machine.execPPfxLbr s
  | .pPfxEoi => Sys2Proof.Machine.execPPfxEoi s
  | .pDigDigit => Sys2Proof.Machine.execPDigDigit s
  | .pDigDigit4 => Sys2Proof.Machine.execPDigDigit4 s
  | .pDigM0 => Sys2Proof.Machine.execPDigM0 s
  | .pDigMovf => Sys2Proof.Machine.execPDigMovf s
  | .pDigM => Sys2Proof.Machine.execPDigM s
  | .pDigOther => Sys2Proof.Machine.execPDigOther s
  | .pDigEoi => Sys2Proof.Machine.execPDigEoi s
  | .pFillZero => Sys2Proof.Machine.execPFillZero s
  | .pFillCode => Sys2Proof.Machine.execPFillCode s
  | .pFillOob => Sys2Proof.Machine.execPFillOob s
  | .pFillEoi => Sys2Proof.Machine.execPFillEoi s
  | .pDeliver => Sys2Proof.Machine.execPDeliver s
  | .dEmptyCode => Sys2Proof.Machine.execDEmptyCode s
  | .dEmptyErr => Sys2Proof.Machine.execDEmptyErr s
  | .dEmptyEnd => Sys2Proof.Machine.execDEmptyEnd s
  | .dHeldCode => Sys2Proof.Machine.execDHeldCode s
  | .dHeldErr => Sys2Proof.Machine.execDHeldErr s
  | .dHeldEnd0 => Sys2Proof.Machine.execDHeldEnd0 s
  | .dHeldEnd1 => Sys2Proof.Machine.execDHeldEnd1 s
  | .dDeliver => Sys2Proof.Machine.execDDeliver s
  | .wC40 fill => Sys2Proof.Machine.execWC40 fill s
  | .wC41 fill => Sys2Proof.Machine.execWC41 fill s
  | .wC42 fill => Sys2Proof.Machine.execWC42 fill s
  | .wC43 fill => Sys2Proof.Machine.execWC43 fill s
  | .wC44 fill => Sys2Proof.Machine.execWC44 fill s
  | .wC45 fill => Sys2Proof.Machine.execWC45 fill s
  | .wC46 fill => Sys2Proof.Machine.execWC46 fill s
  | .wC47 fill => Sys2Proof.Machine.execWC47 fill s
  | .wC100 fill => Sys2Proof.Machine.execWC100 fill s
  | .wC101 fill => Sys2Proof.Machine.execWC101 fill s
  | .wC102 fill => Sys2Proof.Machine.execWC102 fill s
  | .wC103 fill => Sys2Proof.Machine.execWC103 fill s
  | .wC104 fill => Sys2Proof.Machine.execWC104 fill s
  | .wC105 fill => Sys2Proof.Machine.execWC105 fill s
  | .wC106 fill => Sys2Proof.Machine.execWC106 fill s
  | .wC107 fill => Sys2Proof.Machine.execWC107 fill s
  | .wC040 fill => Sys2Proof.Machine.execWC040 fill s
  | .wC041 fill => Sys2Proof.Machine.execWC041 fill s
  | .wC042 fill => Sys2Proof.Machine.execWC042 fill s
  | .wC043 fill => Sys2Proof.Machine.execWC043 fill s
  | .wC044 fill => Sys2Proof.Machine.execWC044 fill s
  | .wC045 fill => Sys2Proof.Machine.execWC045 fill s
  | .wC046 fill => Sys2Proof.Machine.execWC046 fill s
  | .wC047 fill => Sys2Proof.Machine.execWC047 fill s
  | .wEnd0 fill => Sys2Proof.Machine.execWEnd0 fill s
  | .wEnd00 fill => Sys2Proof.Machine.execWEnd00 fill s
  | .wEnd000 fill => Sys2Proof.Machine.execWEnd000 fill s

end Sys2Proof.Machine
end

