-- ==== Sys2Proof/Machine/Select.lean ====
section
/-! DEFINITION. Which instruction an agent takes next: the selection tables of 42_encoder.md (start), 43_parser.md rule
R140, 45_pair_decoder.md rule R220, and the fetch of a wire word. `none` means that the agent has no enabled step and
waits (R54, R301). -/

namespace Sys2Proof.Machine

/-- The table at the start of 42_encoder.md. In its unreachable row (`e_busy = 1` and `e_eoi = 1`) no transition is
named, and none is selected: DESIGN CHOICE, safe (log 17). -/
def encSelect (s : State) : Option Instr :=
  match s.eBusy, s.eEoi, s.rawIn with
  | false, false, .byte _ :: _ => some .encByte
  | false, false, .eoi :: _ => some .encEoi
  | false, false, [] => none
  | true, false, _ => some .encEmit
  | false, true, _ => some .encEmitEoi
  | true, true, _ => none

/-- Rule R140 on a byte. -/
def parSelectByte (s : State) (b : Byte) : Instr :=
  match s.pstate with
  | .hdr => if isEsc b then .pHdrEsc else .pHdrOther
  | .pfx => if isLbr b then .pPfxLbr else .pPfxOther
  | .dig =>
    if isDigit b then
      if digitsFull s.ndig then .pDigDigit4 else .pDigDigit
    else if isM b then
      if noDigits s.ndig then .pDigM0
      else if overflows s.acc then .pDigMovf
      else .pDigM
    else .pDigOther
  | .fill =>
    if isSentinel s.acc then .pFillZero
    else if numberOk s.acc then .pFillCode
    else .pFillOob

/-- Rule R140 on `EOI`. -/
def parSelectEoi (s : State) : Instr :=
  match s.pstate with
  | .hdr => .pHdrEoi
  | .pfx => .pPfxEoi
  | .dig => .pDigEoi
  | .fill => .pFillEoi

/-- The parser's enabled transition: rule R140 while `p_q` is empty, `P.DELIVER` (R158) while it is not and `DEC` is
ready. -/
def parSelect (s : State) : Option Instr :=
  match s.pQ with
  | [] =>
    match s.textIn with
    | .byte b :: _ => some (parSelectByte s b)
    | .eoi :: _ => some (parSelectEoi s)
    | [] => none
  | _ :: _ => if s.dQ.isEmpty then some .pDeliver else none

/-- Rule R220. -/
def decSelectItem (s : State) (x : PItem) : Instr :=
  match s.hiValid, x with
  | false, .code _ => .dEmptyCode
  | false, .err _ _ => .dEmptyErr
  | false, .fin _ => .dEmptyEnd
  | true, .code _ => .dHeldCode
  | true, .err _ _ => .dHeldErr
  | true, .fin false => .dHeldEnd0
  | true, .fin true => .dHeldEnd1

/-- `D.DELIVER`, when `d_q` is not empty and the host raises `dec_ready` (R228). -/
def decOutSelect (s : State) : Option Instr :=
  if s.dQ.isEmpty = false ∧ s.decReady = true then some .dDeliver else none

/-- The pair decoder's enabled transition: rule R220 while `d_q` is empty, `D.DELIVER` while it is not. -/
def decSelect (s : State) : Option Instr :=
  match s.dQ, s.pQ with
  | [], x :: _ => some (decSelectItem s x)
  | [], [] => none
  | _ :: _, _ => decOutSelect s

/-- The fetch of a wire word (R180): at `pstate = HDR`, with `p_q` empty, the word whose bytes `TEXT_IN` offers. -/
def wordSelect (s : State) : Option Instr :=
  if s.pstate = .hdr ∧ s.pQ.isEmpty = true then
    match decode (leadingBytes s.textIn) with
    | .ok (i, _) => some i
    | .error _ => none
  else none

/-- The enabled transition of an agent (R20). -/
def agentSelect (a : Agent) (s : State) : Option Instr :=
  match a with
  | .enc => encSelect s
  | .par => parSelect s
  | .dec => decSelect s

/-- What moves at one rising edge at which every agent moves (R52): `ENC`'s transition, `PAR`'s (an input or the
joint transfer on `PITEM`), and `D.DELIVER`. The transfer on `PITEM` needs `d_q` empty and `D.DELIVER` needs it not
empty, so `DEC` moves at most once. -/
def clockSelect (s : State) : List Instr :=
  (encSelect s).toList ++ (parSelect s).toList ++ (decOutSelect s).toList

/-- Who moves when the schedule says nothing (DESIGN CHOICE, log 6): a wire word, else `PAR`, else `DEC`, else
`ENC`. -/
def autoSelect (s : State) : Option Instr :=
  ((wordSelect s).or (parSelect s)).or ((decSelect s).or (encSelect s))

end Sys2Proof.Machine
end

