-- ==== Sys2Proof/Machine/Turns.lean ====
section
/-! DEFINITION. One turn of the schedule (R20, R52, R290, R305), over the meanings. -/

namespace Sys2Proof.Machine

/-- Instructions one after another: transitions of different agents at one edge (they share no register, R20). -/
def runAll : List Instr → State → Out
  | [], s => .next s
  | i :: is, s =>
    match exec i s with
    | .next s' => runAll is s'
    | .fault r => .fault r
    | .refused r => .refused r

/-- A rising edge of `clk`: with `rst = 1` the registers are reset and nothing moves (R290); else what `pick` selects
moves, and where it selects nothing the state stays (R301). -/
def edge (pick : State → List Instr) (s : State) : Out :=
  if s.rst then .next s.resetRegs else runAll (pick s) s

/-- The host takes back what it has offered. With `rst = 1` the items are its to withdraw (R292), but where no rising
edge has seen `rst = 1` yet, one must before `rst` falls. With `rst = 0` it breaks the handshake (R300 (a)), which is
refused (U16, log 12). -/
def withdraw (s : State) : Out :=
  if s.rawIn = [] ∧ s.textIn = [] then .next s
  else if s.rst then
    .next { s with rawIn := [], textIn := [], rstPhase := if s.rstPhase = .taken then .taken else .owed }
  else .refused .hostBreaksHandshake

/-- The host drives `rst` (R290). Lowering it when an item was taken back and no rising edge has seen `rst = 1` would
leave that item withdrawn between two edges with `rst = 0`: refused (R300 (a), U16, log 12). -/
def driveRst (level : Bool) (s : State) : Out :=
  if level then .next { s with rst := true, rstPhase := if s.rst then s.rstPhase else .quiet }
  else if s.rst = true ∧ s.rstPhase = .owed then .refused .hostBreaksHandshake
  else .next { s with rst := false, rstPhase := .quiet }

/-- One turn (log 6). -/
def turn (t : Turn) (s : State) : Out :=
  match t with
  | .agent a => edge (fun s => (agentSelect a s).toList) s
  | .word => edge (fun s => (wordSelect s).toList) s
  | .clock => edge clockSelect s
  | .send raw text => .next { s with rawIn := s.rawIn ++ raw, textIn := s.textIn ++ text }
  | .ready txo dec => .next { s with txoReady := txo, decReady := dec }
  | .reset level => driveRst level s
  | .withdraw => withdraw s

/-- One step: the next turn of the schedule, or, when it says nothing, one move of the default order (log 6). -/
def stepTurn (s : State) : Out :=
  match s.sched with
  | [] => edge (fun s => (autoSelect s).toList) s
  | t :: ts => turn t { s with sched := ts }

/-- A wire word put where the parser reads its next block: at the head of `TEXT_IN`, with the parser at `HDR`, its
queue empty, no reset and no turn before it (log 18). -/
def placeWord (s : State) (bs : List Byte) : State :=
  { s with
    pstate := .hdr
    pQ := []
    rst := false
    rstPhase := .quiet
    sched := []
    textIn := bs.map .byte ++ s.textIn }

end Sys2Proof.Machine
end

