-- ==== Sys2Proof/Machine/Step.lean ====
section
/-! DEFINITION. The step, and the host's way to put a word where the step fetches it. -/

namespace Sys2Proof.Machine

/-- One step of the machine. -/
def step (s : State) : Host.Outcome State Fault Refusal := stepTurn s

/-- `s` with the table word `w` as the next thing the parser reads (log 13, log 18). -/
def State.withFetchWord (s : State) (nbits w : Nat) : State := placeWord s (tableBytes nbits w)

end Sys2Proof.Machine
end

