-- ==== Sys2Proof/Machine/Streams.lean ====
section
/-! DEFINITION. What the agents compute on whole streams: 42_encoder.md R126, 43_parser.md R159 and R160,
45_pair_decoder.md R229, 46_codec.md R240 to R243. These are functions of item sequences only, written from the
transition tables and not from the meanings; the statements tie the two together (20_memory.md R62). -/

namespace Sys2Proof.Machine

/-! ## The encoder (R126, R240) -/

/-- `encode_codes`, the document's `encode` (R126, R240). -/
def encodeCodes (bs : List Byte) : List Byte := (bs.map fun b => pairIter (pairFromByte b)).flatten

/-- `encode_text` (R126, R240). -/
def encodeText (bs : List Byte) : List Byte := ((encodeCodes bs).map render).flatten

/-- What `ENC` writes for one item of `RAW_IN` (R126). -/
def encodeItem : InItem → List InItem
  | .byte b => (encodeText [b]).map .byte
  | .eoi => [.eoi]

/-- What `ENC` writes on `TEXT_OUT` for the items of `RAW_IN`, streams one after another (R126, R299). -/
def encodeItems (xs : List InItem) : List InItem := (xs.map encodeItem).flatten

/-! ## The parser (R159, R241) -/

/-- The parser's registers (R22). -/
structure ParRegs where
  pstate : PState
  ndig : BitVec 2
  acc : BitVec 10
  deriving DecidableEq, Repr

/-- The registers of the parser in a state. -/
def State.parRegs (s : State) : ParRegs := { pstate := s.pstate, ndig := s.ndig, acc := s.acc }

/-- The parser between blocks. R159 writes `(HDR, -, -)`: `ndig` and `acc` are dead there (R35), and the value
written here is read by nothing. -/
def parStart : ParRegs := { pstate := .hdr, ndig := 0, acc := 0 }

/-- `step(s, x)` of R159 on a byte: rule R140's table. -/
def parStepByte (r : ParRegs) (b : Byte) : ParRegs × List PItem :=
  match r.pstate with
  | .hdr =>
    if b = Config.esc then ({ r with pstate := .pfx }, [])
    else (r, [.err .invalidStartByte b])
  | .pfx =>
    if b = Config.lbr then ({ pstate := .dig, ndig := 0, acc := 0 }, [])
    else ({ r with pstate := .hdr }, [.err .invalidNumberPrefix b])
  | .dig =>
    if Config.digitLo ≤ b ∧ b ≤ Config.digitHi then
      if r.ndig < Config.maxDigits then
        ({ r with ndig := r.ndig + 1, acc := r.acc * 10 + (b &&& 0x0F).zeroExtend 10 }, [])
      else ({ r with pstate := .hdr }, [.err .tooManyCodeDigits Config.atLeast])
    else if b = Config.codeEnd then
      if r.ndig = 0 then ({ r with pstate := .hdr }, [.err .noCodeDigitsFound 0])
      else if 255 < r.acc then ({ r with pstate := .hdr }, [.err .invalidCodeValue 0])
      else ({ r with pstate := .fill }, [])
    else ({ r with pstate := .hdr }, [.err .unexpectedByte b])
  | .fill =>
    if r.acc = 0 then ({ r with pstate := .hdr }, [.fin false])
    else
      match tryFrom (r.acc.truncate 8) with
      | .ok c => ({ r with pstate := .hdr }, [.code c])
      | .error k => ({ r with pstate := .hdr }, [.err k 0])

/-- `step(s, x)` of R159. -/
def parStep (r : ParRegs) (x : InItem) : ParRegs × List PItem :=
  match x with
  | .byte b => parStepByte r b
  | .eoi =>
    match r.pstate with
    | .hdr => (r, [.fin true])
    | _ => ({ r with pstate := .hdr }, [.err .byteStreamTerminatedUnexpectedly 0, .fin true])

/-- `parse_items` (R159). -/
def parseItems (r : ParRegs) : List InItem → List PItem
  | [] => []
  | x :: rest => (parStep r x).2 ++ parseItems (parStep r x).1 rest

/-- The parser's registers after a list of items. -/
def parRun (r : ParRegs) : List InItem → ParRegs
  | [] => r
  | x :: rest => parRun (parStep r x).1 rest

/-- A text stream as items: its bytes, then `EOI` (R53). -/
def textStream (ts : List Byte) : List InItem := ts.map .byte ++ [.eoi]

/-- `parse` (R241). -/
def parse (ts : List Byte) : List PItem := parseItems parStart (textStream ts)

/-- One unit of work (R159, R160): from `HDR` to the next `HDR`. What all its transitions emit, how many items it
consumes, and what follows; `none` when the items end inside it. -/
def unitOfWork (r : ParRegs) (n : Nat) : List InItem → Option (List PItem × Nat × List InItem)
  | [] => none
  | x :: rest =>
    if (parStep r x).1.pstate = .hdr then some ((parStep r x).2, n + 1, rest)
    else (unitOfWork (parStep r x).1 (n + 1) rest).map fun u => ((parStep r x).2 ++ u.1, u.2)

/-! ## The pair decoder (R229, R242) -/

/-- `dstep(h, x)` of R229: rule R220's table. It does not test `isCode`: on a pending number or a `CODE` item that is no
Code, which no stream carries (R33 (c)), the byte it joins is the value of `toNib` there, which R103 leaves undefined.
DESIGN CHOICE, unsafe (log 9); the meaning `joinHeld` stops there instead. -/
def decStep (h : Option Byte) (x : PItem) : Option Byte × List DItem :=
  match h, x with
  | none, .code c => (some c, [])
  | none, .err k info => (none, [.err k info])
  | none, .fin z => (none, [.fin z])
  | some hi, .code c => (none, [.byte (pairToByte (hi, c))])
  | some _, .err k info => (none, [.err k info])
  | some _, .fin false => (none, [.err .missingSecondColorCodeBlock 0])
  | some _, .fin true => (none, [.err .missingSecondColorCodeBlock 0, .fin true])

/-- `decode_items` (R229). -/
def decodeItems (h : Option Byte) : List PItem → List DItem
  | [] => []
  | x :: rest => (decStep h x).2 ++ decodeItems (decStep h x).1 rest

/-- The pending high code of a state, as R229 writes it. -/
def State.held (s : State) : Option Byte := if s.hiValid then some s.hiCode else none

/-- `decode` (R242). -/
def decodeText (ts : List Byte) : List DItem := decodeItems none (parse ts)

/-! ## The document's view (R243) -/

/-- `until_end` on `PITEM`: cut before the first `END` (R243). -/
def untilEndP : List PItem → List PItem
  | [] => []
  | .fin _ :: _ => []
  | .code c :: rest => .code c :: untilEndP rest
  | .err k i :: rest => .err k i :: untilEndP rest

/-- `until_end` on `DEC_OUT` (R243). -/
def untilEndD : List DItem → List DItem
  | [] => []
  | .fin _ :: _ => []
  | .byte b :: rest => .byte b :: untilEndD rest
  | .err k i :: rest => .err k i :: untilEndD rest

/-- `doc_parse` (R243). -/
def docParse (ts : List Byte) : List PItem := untilEndP (parse ts)

/-- `doc_decode` (R243). -/
def docDecode (ts : List Byte) : List DItem := untilEndD (decodeText ts)

/-! ## What a state still owes (R62): delivered, held and still to come -/

/-- Every item of `PITEM`, delivered, queued and still to come from the items offered. -/
def State.pitemAll (s : State) : List PItem := s.pitem ++ s.pQ ++ parseItems s.parRegs s.textIn

/-- Every item of `DEC_OUT`, delivered, queued and still to come. -/
def State.decAll (s : State) : List DItem :=
  s.decOut ++ s.dQ ++ decodeItems s.held (s.pQ ++ parseItems s.parRegs s.textIn)

/-- The text bytes of an accepted byte that are not yet out (R122). -/
def State.textOwed (s : State) : List Byte :=
  if s.eBusy then
    (render s.eCode).drop s.ePos.toNat ++
      (match s.eHalf with
       | .high => render (fromLo s.eByte)
       | .low => [])
  else []

/-- Every item of `TEXT_OUT`, written, owed and still to come. In the unreachable row `e_busy = 1` and `e_eoi = 1` the
bytes owed stand before the `EOI`: DESIGN CHOICE, unsafe (log 17). -/
def State.textAll (s : State) : List InItem :=
  s.textOut ++ s.textOwed.map .byte ++ (if s.eEoi then [.eoi] else []) ++ encodeItems s.rawIn

/-- The Codes of the accepted byte that the tap has not shown yet (R125). -/
def State.codesOwed (s : State) : List Byte :=
  if s.eBusy then
    (if s.ePos = 0 then [s.eCode] else []) ++
      (match s.eHalf with
       | .high => [fromLo s.eByte]
       | .low => [])
  else []

/-- The payload bytes among items. -/
def payload : List InItem → List Byte
  | [] => []
  | .byte b :: xs => b :: payload xs
  | .eoi :: xs => payload xs

/-- Every Code of the tap `ECODE`, shown, owed and still to come. -/
def State.codesAll (s : State) : List Byte := s.ecode ++ s.codesOwed ++ encodeCodes (payload s.rawIn)

end Sys2Proof.Machine
end

