-- ==== Sys2Proof/Machine/Variants.lean ====
section
/-! DEFINITION. The parser with its open parameters as an argument (00_scope.md R6; 92_eei_decisions.md, "Open parameters
in one place"; 93_implementation_defined.md U1, U5, U6). This hardware takes the values of `Params.default`, and only
those are in the machine; the other values are here because the spec gives their text (log 15). The fourth parameter,
`P_AFTER_END`, at its other value is the document's view `until_end` (R243), in Streams.lean. -/

namespace Sys2Proof.Machine

/-- `P_FILL_EOI` (R6, R157, D12). -/
inductive FillEoi where
  | error
  | accept
  deriving DecidableEq, Repr

/-- `P_OVF_POINT` (R6, R150, D9). -/
inductive OvfPoint where
  | atTerminator
  | perDigit
  deriving DecidableEq, Repr

/-- The open parameters of the parser (R6). -/
structure Params where
  atLeast : Byte
  fillEoi : FillEoi
  ovfPoint : OvfPoint
  deriving DecidableEq, Repr

/-- The values this hardware takes (R6). -/
def Params.default : Params := { atLeast := Config.atLeast, fillEoi := .error, ovfPoint := .atTerminator }

/-- The item of a block whose number is complete (R154, R155, R156). -/
def blockItem (acc : BitVec 10) : PItem :=
  if isSentinel acc then .fin false
  else if numberOk acc then .code (blockNumber acc)
  else .err .valueOutOfBounds 0

/-- Rule R140's table with the parameters. `per_digit`: "raise `InvalidCodeValue` at the digit that makes the value
exceed 255"; `accept`: "behave as rule R154, R155 or R156 according to `acc`, then emit `END(1)`" (R157). -/
def parStepWith (p : Params) (r : ParRegs) (x : InItem) : ParRegs × List PItem :=
  let home : ParRegs := { r with pstate := .hdr }
  match r.pstate, x with
  | .hdr, .byte b => if isEsc b then ({ r with pstate := .pfx }, []) else (home, [.err .invalidStartByte b])
  | .hdr, .eoi => (home, [.fin true])
  | .pfx, .byte b =>
    if isLbr b then ({ pstate := .dig, ndig := 0, acc := 0 }, []) else (home, [.err .invalidNumberPrefix b])
  | .dig, .byte b =>
    if isDigit b then
      if digitsFull r.ndig then (home, [.err .tooManyCodeDigits p.atLeast])
      else if p.ovfPoint = .perDigit ∧ overflows (r.acc * 10 + digitVal b) = true then
        (home, [.err .invalidCodeValue 0])
      else ({ r with ndig := r.ndig + 1, acc := r.acc * 10 + digitVal b }, [])
    else if isM b then
      if noDigits r.ndig then (home, [.err .noCodeDigitsFound 0])
      else if overflows r.acc then (home, [.err .invalidCodeValue 0])
      else ({ r with pstate := .fill }, [])
    else (home, [.err .unexpectedByte b])
  | .fill, .byte _ => (home, [blockItem r.acc])
  | .fill, .eoi =>
    if p.fillEoi = .accept then (home, [blockItem r.acc, .fin true])
    else (home, [.err .byteStreamTerminatedUnexpectedly 0, .fin true])
  | _, .eoi => (home, [.err .byteStreamTerminatedUnexpectedly 0, .fin true])

/-- `parse_items` with the parameters. -/
def parseItemsWith (p : Params) (r : ParRegs) : List InItem → List PItem
  | [] => []
  | x :: rest => (parStepWith p r x).2 ++ parseItemsWith p (parStepWith p r x).1 rest

/-- `parse` with the parameters. -/
def parseWith (p : Params) (ts : List Byte) : List PItem := parseItemsWith p parStart (textStream ts)

end Sys2Proof.Machine
end

