-- ==== Sys2Proof/Machine/Ports.lean ====
section
/-! DEFINITION. The output ports (20_memory.md R50, R51; 42_encoder.md R125; 70_reset_and_hazards.md R291): functions of
the registers and the input pins. A payload is `none` where the spec promises no value (93_implementation_defined.md
U14, log 16). The taps are those of a rising edge at which every agent moves (turn `clock`, R52). -/

namespace Sys2Proof.Machine

/-- The output ports of the block. -/
structure OutPins where
  rawReady : Bool
  txiReady : Bool
  txoValid : Bool
  txoData : Option Byte
  txoEoi : Option Bool
  decValid : Bool
  decItem : Option PortItem
  pitValid : Bool
  pitItem : PortItem
  ecodeValid : Bool
  ecodeNum : Byte
  deriving DecidableEq, Repr

/-- An item's fields all 0: what a tap shows while its valid is 0 (R51). -/
def portZero : PortItem := { kind := 0, data := 0, err := 0, eoi := 0 }

/-- The outputs while `rst = 1`: every one is 0 (R291). -/
def resetPins : OutPins where
  rawReady := false
  txiReady := false
  txoValid := false
  txoData := some 0
  txoEoi := some false
  decValid := false
  decItem := some portZero
  pitValid := false
  pitItem := portZero
  ecodeValid := false
  ecodeNum := 0

/-- The item `ENC` offers on `TEXT_OUT` (table at the start of 42_encoder.md, R122, R123). In the table's unreachable row,
`e_busy = 1` and `e_eoi = 1`, whose `txo_valid` cell is blank, it is the text byte and not `EOI`: DESIGN CHOICE, unsafe
(log 17). With `e_busy = 1` and `e_pos` at or beyond the block's length, also unreachable, nothing is offered: DESIGN
CHOICE, unsafe (log 10). -/
def txoOffer (s : State) : Option InItem :=
  if s.eBusy then (serByte s.eCode s.ePos.toNat).map .byte
  else if s.eEoi then some .eoi
  else none

/-- `txo_data` of an item: the text byte, `0x00` with `txo_eoi = 1` (R50, D32). -/
def txoDataOf : InItem → Byte
  | .byte b => b
  | .eoi => 0

/-- `txo_eoi` of an item (R50). -/
def txoEoiOf : InItem → Bool
  | .byte _ => false
  | .eoi => true

/-- The item that moves from `PAR` to `DEC` at this edge (R52, R158). -/
def pitTap (s : State) : Option PItem := if s.dQ.isEmpty then s.pQ.head? else none

/-- The Code of the block whose first byte moves out at this edge (R125). None in the unreachable row `e_busy = 1` and
`e_eoi = 1`, where no transition is selected and nothing moves: DESIGN CHOICE, unsafe (log 17). -/
def ecodeTap (s : State) : Option Byte :=
  if s.eBusy = true ∧ s.eEoi = false ∧ s.txoReady = true ∧ s.ePos = 0 then some s.eCode else none

/-- All output ports. -/
def outPins (s : State) : OutPins :=
  if s.rst then resetPins
  else
    { rawReady := s.rawReady
      txiReady := s.txiReady
      txoValid := (txoOffer s).isSome
      txoData := (txoOffer s).map txoDataOf
      txoEoi := (txoOffer s).map txoEoiOf
      decValid := !s.dQ.isEmpty
      decItem := s.dQ.head?.map ditemPort
      pitValid := (pitTap s).isSome
      pitItem := ((pitTap s).map pitemPort).getD portZero
      ecodeValid := (ecodeTap s).isSome
      ecodeNum := (ecodeTap s).getD 0 }

/-- The input ports of a stream, from what the host offers (R50): valid, data, eoi. The data of an `EOI` and the
payload while valid is 0 have no value here, since the block ignores them (U13). -/
structure InPort where
  valid : Bool
  data : Option Byte
  eoi : Option Bool
  deriving DecidableEq, Repr

/-- The pins of an input stream whose untaken items are `xs`. -/
def inPort : List InItem → InPort
  | [] => { valid := false, data := none, eoi := none }
  | .byte b :: _ => { valid := true, data := some b, eoi := some false }
  | .eoi :: _ => { valid := true, data := none, eoi := some true }

end Sys2Proof.Machine
end

