-- ==== Sys2Proof/Safety.lean ====
section
/-! DEFINITION. The invariants of 10_state.md rule R33 and 30_encoding.md rule R85, and the terms in which the
statements speak of runs. -/

namespace Sys2Proof.Machine

/-- Every kind but the pair decoder's own (R222: "Only the parser's eight kinds can arrive here"). -/
def parserKind (k : ErrKind) : Bool := k != .missingSecondColorCodeBlock

/-- The `info` byte a kind carries (R84): 4 for `TooManyCodeDigits`, any byte for the three kinds that carry the
offending byte, 0 for the five others. -/
def infoOk (k : ErrKind) (info : Byte) : Bool :=
  match k with
  | .invalidStartByte => info != Config.esc
  | .invalidNumberPrefix => info != Config.lbr
  | .unexpectedByte => !isDigit info && !isM info
  | .tooManyCodeDigits => info == Config.atLeast
  | _ => info == 0

/-- An item `PITEM` may carry (R33 (c), R84, R222). -/
def pitemOk : PItem → Bool
  | .code c => isCode c
  | .err k info => parserKind k && infoOk k info
  | .fin _ => true

/-- An item `DEC_OUT` may carry (R84). -/
def ditemOk : DItem → Bool
  | .byte _ => true
  | .err k info => infoOk k info
  | .fin _ => true

/-- R33 (a), (b): the accumulator. -/
abbrev parInv (r : ParRegs) : Prop :=
  ((r.pstate = .dig ∨ r.pstate = .fill) → r.acc.toNat < 10 ^ r.ndig.toNat) ∧
  (r.pstate = .fill → r.ndig ≠ 0 ∧ r.acc ≤ 255)

/-- R33 (e), and the unreachable row of 42_encoder.md's table. -/
abbrev encInv (s : State) : Prop :=
  (s.eBusy = true → s.ePos.toNat < blkLen s.eCode) ∧ ¬ (s.eBusy = true ∧ s.eEoi = true)

/-- R33 (c), (f). -/
abbrev decInv (s : State) : Prop :=
  (s.hiValid = true → isCode s.hiCode = true) ∧ s.pQ.length ≤ 2 ∧ s.dQ.length ≤ 2 ∧
  (∀ x ∈ s.pQ, pitemOk x = true) ∧ (∀ x ∈ s.pitem, pitemOk x = true) ∧
  (∀ x ∈ s.dQ, ditemOk x = true) ∧ (∀ x ∈ s.decOut, ditemOk x = true) ∧ (∀ c ∈ s.ecode, isCode c = true)

/-- The host's phase in a reset is `quiet` while `rst = 0` (log 12). -/
abbrev hostInv (s : State) : Prop := s.rst = false → s.rstPhase = .quiet

/-- The invariants of rule R33, with what R84 and R85 say of the items on the streams. -/
abbrev Inv (s : State) : Prop := parInv s.parRegs ∧ encInv s ∧ decInv s ∧ hostInv s

/-- A turn in which the host does not change what the streams will carry: an edge, or the ready pins. -/
def Turn.quiet : Turn → Bool
  | .agent _ => true
  | .word => true
  | .clock => true
  | .ready _ _ => true
  | .send _ _ => false
  | .reset _ => false
  | .withdraw => false

/-- A turn in which the host acts between edges. -/
def Turn.byHost : Turn → Bool
  | .agent _ => false
  | .word => false
  | .clock => false
  | .send _ _ => true
  | .ready _ _ => true
  | .reset _ => true
  | .withdraw => true

/-- Every coming turn is quiet. -/
def State.quiet (s : State) : Bool := s.sched.all Turn.quiet

/-- The state with every dead register at one value: `ndig` and `acc` outside `DIG` and `FILL`, `hi_code` without
`hi_valid`, `e_byte`, `e_half` and `e_pos` without `e_busy` (R35), and without the model's reset counter. -/
def State.live (s : State) : State :=
  { s with
    ndig := if s.pstate = .dig ∨ s.pstate = .fill then s.ndig else 0
    acc := if s.pstate = .dig ∨ s.pstate = .fill then s.acc else 0
    hiCode := if s.hiValid then s.hiCode else 0
    eByte := if s.eBusy then s.eByte else 0
    eHalf := if s.eBusy then s.eHalf else .high
    ePos := if s.eBusy then s.ePos else 0
    resets := 0 }

/-- The state after reset with a host that offers the given items, takes everything at once, and leaves the
schedule to the block. -/
def freshWith (raw text : List InItem) : State :=
  { State.reset with rawIn := raw, textIn := text, txoReady := true, decReady := true }

/-- Nothing is owed and nothing is offered: both paths are as after reset (R299). -/
abbrev State.idle (s : State) : Prop :=
  s.pstate = .hdr ∧ s.pQ = [] ∧ s.hiValid = false ∧ s.dQ = [] ∧ s.eBusy = false ∧ s.eEoi = false ∧
  s.rawIn = [] ∧ s.textIn = []

/-- The items a wire word makes the parser emit (44_wire_words.md, *Result*). -/
def wordResult : Instr → Option PItem
  | .wC40 _ => some (.code 40)
  | .wC41 _ => some (.code 41)
  | .wC42 _ => some (.code 42)
  | .wC43 _ => some (.code 43)
  | .wC44 _ => some (.code 44)
  | .wC45 _ => some (.code 45)
  | .wC46 _ => some (.code 46)
  | .wC47 _ => some (.code 47)
  | .wC100 _ => some (.code 100)
  | .wC101 _ => some (.code 101)
  | .wC102 _ => some (.code 102)
  | .wC103 _ => some (.code 103)
  | .wC104 _ => some (.code 104)
  | .wC105 _ => some (.code 105)
  | .wC106 _ => some (.code 106)
  | .wC107 _ => some (.code 107)
  | .wC040 _ => some (.code 40)
  | .wC041 _ => some (.code 41)
  | .wC042 _ => some (.code 42)
  | .wC043 _ => some (.code 43)
  | .wC044 _ => some (.code 44)
  | .wC045 _ => some (.code 45)
  | .wC046 _ => some (.code 46)
  | .wC047 _ => some (.code 47)
  | .wEnd0 _ => some (.fin false)
  | .wEnd00 _ => some (.fin false)
  | .wEnd000 _ => some (.fin false)
  | .codeFromNib _ => none
  | .codeFromLo _ => none
  | .codeFromHi _ => none
  | .codeToNib _ => none
  | .codeTryFrom _ => none
  | .codeRender _ => none
  | .pairFromByte _ => none
  | .pairFromCodes _ _ => none
  | .pairToByte _ _ => none
  | .pairIter _ _ => none
  | .encByte => none
  | .encEoi => none
  | .encEmit => none
  | .encEmitEoi => none
  | .pHdrEsc => none
  | .pHdrOther => none
  | .pHdrEoi => none
  | .pPfxOther => none
  | .pPfxLbr => none
  | .pPfxEoi => none
  | .pDigDigit => none
  | .pDigDigit4 => none
  | .pDigM0 => none
  | .pDigMovf => none
  | .pDigM => none
  | .pDigOther => none
  | .pDigEoi => none
  | .pFillZero => none
  | .pFillCode => none
  | .pFillOob => none
  | .pFillEoi => none
  | .pDeliver => none
  | .dEmptyCode => none
  | .dEmptyErr => none
  | .dEmptyEnd => none
  | .dHeldCode => none
  | .dHeldErr => none
  | .dHeldEnd0 => none
  | .dHeldEnd1 => none
  | .dDeliver => none

end Sys2Proof.Machine
end

