-- ==== Sys2Proof/Certificates/Slice0/Obligations.lean ====
section
/-! DEFINITION. The statements for the provers. Each docstring names the rule of spec/ it formalises, or says that it
rests on a choice of the model and names the log entry. -/

namespace Sys2Proof.Machine

/-- The number of a nibble, in exact arithmetic (30_encoding.md R76): written apart from `fromNib`. -/
def nibNumber (v : Nat) : Nat := if v < 8 then v + 40 else v % 8 + 100

/-- The sixteen numbers that are Codes (10_state.md R21): written apart from `isCode`. -/
abbrev CodeNumber (n : Nat) : Prop := (40 ≤ n ∧ n ≤ 47) ∨ (100 ≤ n ∧ n ≤ 107)

/-- The decimal value of digit bytes, most significant first (30_encoding.md R74), in exact arithmetic. -/
def decimalValue (ds : List Byte) : Nat := ds.foldl (fun v d => v * 10 + (d.toNat - 0x30)) 0

/-- A block with the given digits and fill. -/
def blockBytes (ds : List Byte) (f : Byte) : List Byte := [0x1B, 0x5B] ++ ds ++ [0x6D, f]

/-- The seventeen parser transitions that read an item (43_parser.md R140). -/
def parserInputs : List Instr :=
  [.pHdrEsc, .pHdrOther, .pHdrEoi, .pPfxOther, .pPfxLbr, .pPfxEoi, .pDigDigit, .pDigDigit4, .pDigM0, .pDigMovf,
    .pDigM, .pDigOther, .pDigEoi, .pFillZero, .pFillCode, .pFillOob, .pFillEoi]

/-- The seven pair decoder transitions that read an item (45_pair_decoder.md R220). -/
def decoderInputs : List Instr :=
  [.dEmptyCode, .dEmptyErr, .dEmptyEnd, .dHeldCode, .dHeldErr, .dHeldEnd0, .dHeldEnd1]

/-- The four transitions of `ENC` (42_encoder.md). -/
def encoderTransitions : List Instr := [.encByte, .encEoi, .encEmit, .encEmitEoi]

/-- What the parser may read: no reset, its queue empty, at `p`, the item `x` offered before `rest` (R140). -/
abbrev ParserReads (s : State) (p : PState) (x : InItem) (rest : List InItem) : Prop :=
  s.rst = false ∧ s.pQ = [] ∧ s.pstate = p ∧ s.textIn = x :: rest

/-- What the pair decoder may read: no reset, its queue empty, `hi_valid = hv`, the item `x` at the head of `p_q`
before `rest` (R220). -/
abbrev DecoderReads (s : State) (hv : Bool) (x : PItem) (rest : List PItem) : Prop :=
  s.rst = false ∧ s.dQ = [] ∧ s.hiValid = hv ∧ s.pQ = x :: rest

/-- A wire word completes: read from `pstate = HDR` with any fill byte, it leaves its item in `p_q`, its bytes are
gone from `TEXT_IN`, the parser is at `HDR`, and of the rest of the state only `ndig` and `acc` changed, which hold
the word's digits (R180, R35). -/
def WordCompletes (i : Byte → Instr) (ds : List Byte) (x : PItem) : Prop :=
  ∀ (s : State) (f : Byte) (rest : List InItem),
    s.rst = false → s.pQ = [] → s.pstate = .hdr → s.textIn = (blockBytes ds f).map .byte ++ rest →
    exec (i f) s = .next
      { s with textIn := rest, pQ := [x], ndig := BitVec.ofNat 2 ds.length, acc := BitVec.ofNat 10 (decimalValue ds) }

/-- The turn is an edge of the clock (R290: "at every rising edge"), scheduled or by default. -/
def EdgeNext (s : State) : Prop :=
  s.sched = [] ∨ ∃ t ts, s.sched = t :: ts ∧ (t = .word ∨ t = .clock ∨ ∃ a, t = .agent a)

/-- The next turn leaves the offered streams and `rst` alone. -/
def QuietNext (s : State) : Prop := ∀ u, s.sched.head? = some u → u.quiet = true

/-- The item that a rejected byte sequence makes the parser emit (R78, R79); none while it only begins a block. -/
def rejectItem : Reject → Option PItem
  | .truncated => none
  | .notEscape b => some (.err .invalidStartByte b)
  | .notBracket b => some (.err .invalidNumberPrefix b)
  | .noDigits => some (.err .noCodeDigitsFound 0)
  | .tooManyDigits => some (.err .tooManyCodeDigits 4)
  | .unexpected b => some (.err .unexpectedByte b)
  | .overflow => some (.err .invalidCodeValue 0)
  | .outOfBounds => some (.err .valueOutOfBounds 0)

/-- The parser's errors among its items, as `DEC` may pass them on (R268). -/
def errorsP (xs : List PItem) : List (ErrKind × Byte) :=
  xs.filterMap fun x => match x with
    | .err k i => some (k, i)
    | _ => none

/-- The parser's errors among the decoder's items (R268). -/
def errorsD (xs : List DItem) : List (ErrKind × Byte) :=
  xs.filterMap fun x => match x with
    | .err k i => if k = .missingSecondColorCodeBlock then none else some (k, i)
    | _ => none

end Sys2Proof.Machine

open Sys2Proof Sys2Proof.Machine

/-! ## The mapper and the pair -/

/-- 40_code_mapper.md R100, R101, R102. -/
def Obligations.FromNibFromLoFromHiAnswerTheCode : Prop :=
  ∀ (v : Nibble) (b : Byte) (s : State),
    (∃ c : Byte, exec (.codeFromNib v) s = .next { s with opOut := some (.code c) } ∧ c.toNat = nibNumber v.toNat) ∧
    (∃ c : Byte, exec (.codeFromLo b) s = .next { s with opOut := some (.code c) } ∧
      c.toNat = nibNumber (b.toNat % 16)) ∧
    (∃ c : Byte, exec (.codeFromHi b) s = .next { s with opOut := some (.code c) } ∧
      c.toNat = nibNumber (b.toNat / 16))

/-- 40_code_mapper.md R103 on the sixteen Codes, and R104: `Ok` on the two ranges, `Err(ValueOutOfBounds)`, code 8, on
every other number. -/
def Obligations.ToNibAndTryFromOnTheTwoRanges : Prop :=
  ∀ (n : Byte) (s : State),
    (CodeNumber n.toNat →
      (∃ v : Nibble, exec (.codeToNib n) s = .next { s with opOut := some (.nibble v) } ∧
        v.toNat = if n.toNat < 100 then n.toNat - 40 else n.toNat - 100 + 8) ∧
      exec (.codeTryFrom n) s = .next { s with opOut := some (.code n) }) ∧
    (¬ CodeNumber n.toNat →
      exec (.codeTryFrom n) s = .next { s with opOut := some (.codeError .valueOutOfBounds) }) ∧
    errCode .valueOutOfBounds = 8

/-- 40_code_mapper.md R105 and 42_encoder.md R124: the canonical block and the serializer's table, which agree. -/
def Obligations.RenderAndSerializerWriteTheCanonicalBlock : Prop :=
  ∀ (s : State),
    (∀ k : Nat, k < 8 →
      exec (.codeRender (BitVec.ofNat 8 (40 + k))) s =
        .next { s with opOut := some (.bytes [0x1B, 0x5B, 0x34, BitVec.ofNat 8 (0x30 + k), 0x6D, 0x20]) } ∧
      blkLen (BitVec.ofNat 8 (40 + k)) = 6 ∧
      (List.range 6).map (serByte (BitVec.ofNat 8 (40 + k))) =
        [some 0x1B, some 0x5B, some 0x34, some (BitVec.ofNat 8 (0x30 + k)), some 0x6D, some 0x20]) ∧
    (∀ k : Nat, k < 8 →
      exec (.codeRender (BitVec.ofNat 8 (100 + k))) s =
        .next { s with opOut := some (.bytes [0x1B, 0x5B, 0x31, 0x30, BitVec.ofNat 8 (0x30 + k), 0x6D, 0x20]) } ∧
      blkLen (BitVec.ofNat 8 (100 + k)) = 7 ∧
      (List.range 7).map (serByte (BitVec.ofNat 8 (100 + k))) =
        [some 0x1B, some 0x5B, some 0x31, some 0x30, some (BitVec.ofNat 8 (0x30 + k)), some 0x6D, some 0x20])

/-- 41_code_pair.md R110, R111, R112, R113. -/
def Obligations.PairOperationsSplitJoinAndKeepTheOrder : Prop :=
  ∀ s : State,
    (∀ b : Byte, ∃ h l : Byte,
      exec (.pairFromByte b) s = .next { s with opOut := some (.pair h l) } ∧
      h.toNat = nibNumber (b.toNat / 16) ∧ l.toNat = nibNumber (b.toNat % 16)) ∧
    (∀ h l : Byte, CodeNumber h.toNat → CodeNumber l.toNat →
      exec (.pairFromCodes h l) s = .next { s with opOut := some (.pair h l) } ∧
      exec (.pairIter h l) s = .next { s with opOut := some (.codes [h, l]) } ∧
      ∃ b : Byte, exec (.pairToByte h l) s = .next { s with opOut := some (.byte b) } ∧
        b.toNat / 16 = (if h.toNat < 100 then h.toNat - 40 else h.toNat - 100 + 8) ∧
        b.toNat % 16 = (if l.toNat < 100 then l.toNat - 40 else l.toNat - 100 + 8))

/-- The model's choice (log 9, log 10), all of it outside every state a run reaches: an operand that the spec types
`Code` and that is no Code is ill-formed and refused; the pair decoder stops where it would join such a number
(40_code_mapper.md: "The function is not defined on other numbers"); the framer stops where `ser_byte` has no byte
(42_encoder.md: "is not defined for `i` at or beyond `blk_len(c)`"). -/
def Obligations.ValuesOutsideTheirTypeStop : Prop :=
  (∀ (c : Byte) (s : State), ¬ CodeNumber c.toNat →
    exec (.codeToNib c) s = .refused .illFormed ∧ exec (.codeRender c) s = .refused .illFormed) ∧
  (∀ (h l : Byte) (s : State), ¬ (CodeNumber h.toNat ∧ CodeNumber l.toNat) →
    exec (.pairFromCodes h l) s = .refused .illFormed ∧ exec (.pairToByte h l) s = .refused .illFormed ∧
    exec (.pairIter h l) s = .refused .illFormed) ∧
  (∀ (s : State) (rest : List PItem) (c : Byte), DecoderReads s true (.code c) rest →
    ¬ (CodeNumber s.hiCode.toNat ∧ CodeNumber c.toNat) →
    exec .dHeldCode s = .fault .notACode ∧ exec .pDeliver s = .fault .notACode) ∧
  (∀ s : State, s.rst = false → s.eBusy = true → s.txoReady = true → blkLen s.eCode ≤ s.ePos.toNat →
    exec .encEmit s = .fault .serPastEnd) ∧
  (∀ i : Instr, i.wf = false → ∀ s : State, exec i s = .refused .illFormed)

/-- 40_code_mapper.md R106 (b), (c) and 41_code_pair.md R114 (a), (b), (c), (d). -/
def Obligations.MapperAndPairAreBijections : Prop :=
  (∀ v : Nibble, toNib (fromNib v) = v) ∧
  (∀ c : Byte, CodeNumber c.toNat → fromNib (toNib c) = c) ∧
  (∀ n : Byte, tryFrom n = .ok n ↔ ∃ v : Nibble, fromNib v = n) ∧
  (∀ b : Byte, pairToByte (pairFromByte b) = b) ∧
  (∀ h l : Byte, CodeNumber h.toNat → CodeNumber l.toNat →
    pairFromByte (pairToByte (h, l)) = (h, l) ∧
    (pairIter (pairFromCodes h l)).head? = some h ∧
    (pairToByte (l, h)).toNat = (pairToByte (h, l)).toNat % 16 * 16 + (pairToByte (h, l)).toNat / 16)

/-! ## The encoder -/

/-- 42_encoder.md R120, R121, R123: accepting a byte, accepting `EOI`, and writing `EOI` at the transfer. -/
def Obligations.EncoderTakesItemsAndEndsTheText : Prop :=
  ∀ s : State, s.rst = false →
    (∀ (rest : List InItem) (b : Byte), s.eBusy = false → s.eEoi = false → s.rawIn = .byte b :: rest →
      exec .encByte s = .next { s with rawIn := rest, eByte := b, eHalf := .high, ePos := 0, eBusy := true }) ∧
    (∀ rest : List InItem, s.eBusy = false → s.eEoi = false → s.rawIn = .eoi :: rest →
      exec .encEoi s = .next { s with rawIn := rest, eEoi := true }) ∧
    (s.eEoi = true → s.txoReady = true →
      exec .encEmitEoi s = .next { s with textOut := s.textOut ++ [.eoi], eEoi := false })

/-- 42_encoder.md R122: what is written, what the tap shows, and how `e_pos`, `e_half` and `e_busy` move, at the
transfer. -/
def Obligations.EncEmitWritesTheNextByte : Prop :=
  ∀ (s : State) (c t : Byte), s.rst = false → s.eBusy = true → s.txoReady = true →
    c = (if s.eHalf = .high then fromHi s.eByte else fromLo s.eByte) → (render c)[s.ePos.toNat]? = some t →
    exec .encEmit s = .next
      { s with
        textOut := s.textOut ++ [.byte t]
        ecode := if s.ePos = 0 then s.ecode ++ [c] else s.ecode
        ePos := if s.ePos.toNat + 1 < (render c).length then s.ePos + 1
          else if s.eHalf = .high then 0 else s.ePos
        eHalf := if s.ePos.toNat + 1 < (render c).length then s.eHalf else .low
        eBusy := if s.ePos.toNat + 1 < (render c).length then true
          else if s.eHalf = .high then true else false }

/-- 42_encoder.md, table and "At most one of the four is enabled in any state": in every state but the unreachable
one, two transitions of `ENC` that are not refused are the same, and one is selected where there is work. The last two
clauses are the model's reading of "the register updates take effect at the transfer" (log 20): while `txo_ready = 0`
nothing changes. -/
def Obligations.EncoderIsDeterministic : Prop :=
  ∀ s : State, ¬ (s.eBusy = true ∧ s.eEoi = true) →
    (∀ i ∈ encoderTransitions, ∀ j ∈ encoderTransitions,
      (∀ r, exec i s ≠ .refused r) → (∀ r, exec j s ≠ .refused r) → i = j) ∧
    (s.rst = false → (s.eBusy = true ∨ s.eEoi = true ∨ s.rawIn ≠ []) →
      ∃ i ∈ encoderTransitions, encSelect s = some i ∧ ∀ r, exec i s ≠ .refused r) ∧
    (s.rst = false → s.eBusy = true → s.txoReady = false → exec .encEmit s = .next s) ∧
    (s.rst = false → s.eEoi = true → s.txoReady = false → exec .encEmitEoi s = .next s)

/-- 42_encoder.md R127 (b), (c): length and alphabet of the text. -/
def Obligations.EncodedTextLengthAndAlphabet : Prop :=
  ∀ bs : List Byte,
    (encodeCodes bs).length = 2 * bs.length ∧
    (encodeText bs).length =
      12 * bs.length + (bs.filter fun b => 8 ≤ b.toNat / 16).length + (bs.filter fun b => 8 ≤ b.toNat % 16).length ∧
    (∀ t ∈ encodeText bs, t = 0x1B ∨ t = 0x5B ∨ t = 0x6D ∨ t = 0x20 ∨ (0x30 ≤ t ∧ t ≤ 0x37))

/-! ## The parser -/

/-- 43_parser.md R141, R142, R143. -/
def Obligations.ParserAtHeader : Prop :=
  ∀ (s : State) (rest : List InItem),
    (ParserReads s .hdr (.byte 0x1B) rest → exec .pHdrEsc s = .next { s with textIn := rest, pstate := .pfx }) ∧
    (∀ b : Byte, b ≠ 0x1B → ParserReads s .hdr (.byte b) rest →
      exec .pHdrOther s = .next { s with textIn := rest, pstate := .hdr, pQ := [.err .invalidStartByte b] }) ∧
    (ParserReads s .hdr .eoi rest →
      exec .pHdrEoi s = .next { s with textIn := rest, pstate := .hdr, pQ := [.fin true] })

/-- 43_parser.md R144, R145, R146. -/
def Obligations.ParserAtSecondByte : Prop :=
  ∀ (s : State) (rest : List InItem),
    (∀ b : Byte, b ≠ 0x5B → ParserReads s .pfx (.byte b) rest →
      exec .pPfxOther s = .next { s with textIn := rest, pstate := .hdr, pQ := [.err .invalidNumberPrefix b] }) ∧
    (ParserReads s .pfx (.byte 0x5B) rest →
      exec .pPfxLbr s = .next { s with textIn := rest, ndig := 0, acc := 0, pstate := .dig }) ∧
    (ParserReads s .pfx .eoi rest →
      exec .pPfxEoi s = .next
        { s with textIn := rest, pstate := .hdr, pQ := [.err .byteStreamTerminatedUnexpectedly 0, .fin true] })

/-- 43_parser.md R147, R148, R161: a digit; exact below 100, so that three digits never wrap; a fourth one is an
error. -/
def Obligations.ParserTakesThreeDigits : Prop :=
  ∀ (s : State) (rest : List InItem) (b : Byte), 0x30 ≤ b → b ≤ 0x39 → ParserReads s .dig (.byte b) rest →
    (s.ndig < 3 →
      exec .pDigDigit s = .next
        { s with textIn := rest, ndig := s.ndig + 1, acc := s.acc * 10 + BitVec.ofNat 10 (b.toNat - 0x30) } ∧
      (s.acc.toNat < 100 →
        (s.acc * 10 + BitVec.ofNat 10 (b.toNat - 0x30)).toNat = s.acc.toNat * 10 + (b.toNat - 0x30))) ∧
    (s.ndig = 3 →
      exec .pDigDigit4 s = .next { s with textIn := rest, pstate := .hdr, pQ := [.err .tooManyCodeDigits 0x04] })

/-- 43_parser.md R149, R150, R151. -/
def Obligations.ParserAtTerminator : Prop :=
  ∀ (s : State) (rest : List InItem), ParserReads s .dig (.byte 0x6D) rest →
    (s.ndig = 0 →
      exec .pDigM0 s = .next { s with textIn := rest, pstate := .hdr, pQ := [.err .noCodeDigitsFound 0] }) ∧
    (1 ≤ s.ndig → 255 < s.acc.toNat →
      exec .pDigMovf s = .next { s with textIn := rest, pstate := .hdr, pQ := [.err .invalidCodeValue 0] }) ∧
    (1 ≤ s.ndig → s.acc.toNat ≤ 255 → exec .pDigM s = .next { s with textIn := rest, pstate := .fill })

/-- 43_parser.md R152, R153. -/
def Obligations.ParserLeavesTheDigitField : Prop :=
  ∀ (s : State) (rest : List InItem),
    (∀ b : Byte, ¬ (0x30 ≤ b ∧ b ≤ 0x39) → b ≠ 0x6D → ParserReads s .dig (.byte b) rest →
      exec .pDigOther s = .next { s with textIn := rest, pstate := .hdr, pQ := [.err .unexpectedByte b] }) ∧
    (ParserReads s .dig .eoi rest →
      exec .pDigEoi s = .next
        { s with textIn := rest, pstate := .hdr, pQ := [.err .byteStreamTerminatedUnexpectedly 0, .fin true] })

/-- 43_parser.md R154, R155, R156, R157: the fill byte may have any value. -/
def Obligations.ParserAtFillByte : Prop :=
  ∀ (s : State) (rest : List InItem),
    (∀ b : Byte, ParserReads s .fill (.byte b) rest →
      (s.acc = 0 → exec .pFillZero s = .next { s with textIn := rest, pstate := .hdr, pQ := [.fin false] }) ∧
      (CodeNumber s.acc.toNat →
        exec .pFillCode s = .next
          { s with textIn := rest, pstate := .hdr, pQ := [.code (BitVec.ofNat 8 s.acc.toNat)] }) ∧
      (1 ≤ s.acc.toNat → s.acc.toNat ≤ 255 → ¬ CodeNumber s.acc.toNat →
        exec .pFillOob s = .next { s with textIn := rest, pstate := .hdr, pQ := [.err .valueOutOfBounds 0] })) ∧
    (ParserReads s .fill .eoi rest →
      exec .pFillEoi s = .next
        { s with textIn := rest, pstate := .hdr, pQ := [.err .byteStreamTerminatedUnexpectedly 0, .fin true] })

/-- 43_parser.md R140: "Every combination of state, item and register values selects exactly one row, so the parser is
total and deterministic". The row selected runs and gives what R159's `step` gives; every other row is not enabled,
and none is while `p_q` is not empty, `rst = 1` or nothing is offered. The refusal is the model's form (log 8). -/
def Obligations.ParserIsTotalAndDeterministic : Prop :=
  (∀ (s : State) (x : InItem) (rest : List InItem), s.rst = false → s.pQ = [] → s.textIn = x :: rest →
    ∃ i ∈ parserInputs, parSelect s = some i ∧
      exec i s = .next
        { s with
          textIn := rest
          pstate := (parStep s.parRegs x).1.pstate
          ndig := (parStep s.parRegs x).1.ndig
          acc := (parStep s.parRegs x).1.acc
          pQ := (parStep s.parRegs x).2 } ∧
      ∀ j ∈ parserInputs, j ≠ i → exec j s = .refused .notEnabled) ∧
  (∀ s : State, (s.rst = true ∨ s.pQ ≠ [] ∨ s.textIn = []) →
    ∀ j ∈ parserInputs, exec j s = .refused .notEnabled)

/-- 43_parser.md R159, R160, R162: a unit of work reads one to seven items and what follows is untouched, emits one
item, or the two of an `EOI` inside a block; seven items always complete one. -/
def Obligations.UnitOfWorkIsShort : Prop :=
  ∀ (xs : List InItem),
    (∀ out n rest, unitOfWork parStart 0 xs = some (out, n, rest) →
      1 ≤ n ∧ n ≤ 7 ∧ xs.length = n + rest.length ∧ xs.drop n = rest ∧
      (out.length = 1 ∨ out = [.err .byteStreamTerminatedUnexpectedly 0, .fin true])) ∧
    (7 ≤ xs.length → unitOfWork parStart 0 xs ≠ none)

/-- 30_encoding.md R78, 43_parser.md R160: what a block of one to three digits means, by its number, and what is left
unread. -/
def Obligations.BlockMeansItsNumber : Prop :=
  ∀ (ds : List Byte) (f : Byte) (rest : List InItem),
    (∀ d ∈ ds, 0x30 ≤ d ∧ d ≤ 0x39) → 1 ≤ ds.length → ds.length ≤ 3 →
    let r := unitOfWork parStart 0 ((blockBytes ds f).map .byte ++ rest)
    (decimalValue ds = 0 → r = some ([.fin false], ds.length + 4, rest)) ∧
    (CodeNumber (decimalValue ds) →
      r = some ([.code (BitVec.ofNat 8 (decimalValue ds))], ds.length + 4, rest)) ∧
    (1 ≤ decimalValue ds → decimalValue ds ≤ 255 → ¬ CodeNumber (decimalValue ds) →
      r = some ([.err .valueOutOfBounds 0], ds.length + 4, rest)) ∧
    (255 < decimalValue ds → r = some ([.err .invalidCodeValue 0], ds.length + 3, .byte f :: rest))

/-- 43_parser.md R159, 45_pair_decoder.md R229: the last item of a stream that ends with `EOI` is `END(1)`, and
`END(1)` occurs nowhere else, on `PITEM` and on `DEC_OUT`. -/
def Obligations.StreamsEndWithOneEnd : Prop :=
  ∀ ts : List Byte,
    (∃ xs : List PItem, parse ts = xs ++ [.fin true] ∧ PItem.fin true ∉ xs) ∧
    (∃ ys : List DItem, decodeText ts = ys ++ [.fin true] ∧ DItem.fin true ∉ ys)

/-- 00_scope.md R6, 92_eei_decisions.md: the parser with its open parameters, at the values this hardware takes, is the
parser. -/
def Obligations.DefaultParametersGiveTheParser : Prop :=
  (∀ (r : ParRegs) (x : InItem), parStepWith Params.default r x = parStep r x) ∧
  (∀ ts : List Byte, parseWith Params.default ts = parse ts)

/-! ## The pair decoder -/

/-- 43_parser.md R158 with 45_pair_decoder.md R220: the transfer on `PITEM` is one joint step (log 7): `p_q` loses its
head, the tap shows it, and the decoder does what `dstep` says. -/
def Obligations.DeliverIsOneJointStep : Prop :=
  ∀ (s : State) (x : PItem) (rest : List PItem), s.rst = false → s.dQ = [] → s.pQ = x :: rest →
    (∀ c : Byte, x = .code c → s.hiValid = true → CodeNumber s.hiCode.toNat ∧ CodeNumber c.toNat) →
    exec .pDeliver s = .next
      { s with
        pQ := rest
        pitem := s.pitem ++ [x]
        hiValid := (decStep s.held x).1.isSome
        hiCode := (decStep s.held x).1.getD s.hiCode
        dQ := (decStep s.held x).2 }

/-- 45_pair_decoder.md R221, R222, R223. -/
def Obligations.DecoderWithoutAHighCode : Prop :=
  ∀ (s : State) (rest : List PItem),
    (∀ c : Byte, DecoderReads s false (.code c) rest →
      exec .dEmptyCode s = .next
        { s with pQ := rest, pitem := s.pitem ++ [.code c], hiCode := c, hiValid := true }) ∧
    (∀ (k : ErrKind) (i : Byte), DecoderReads s false (.err k i) rest →
      exec .dEmptyErr s = .next { s with pQ := rest, pitem := s.pitem ++ [.err k i], dQ := [.err k i] }) ∧
    (∀ z : Bool, DecoderReads s false (.fin z) rest →
      exec .dEmptyEnd s = .next { s with pQ := rest, pitem := s.pitem ++ [.fin z], dQ := [.fin z] })

/-- 45_pair_decoder.md R224. -/
def Obligations.DecoderJoinsThePair : Prop :=
  ∀ (s : State) (rest : List PItem) (c : Byte), DecoderReads s true (.code c) rest →
    CodeNumber s.hiCode.toNat → CodeNumber c.toNat → ∃ b : Byte,
      exec .dHeldCode s = .next
        { s with pQ := rest, pitem := s.pitem ++ [.code c], dQ := [.byte b], hiValid := false } ∧
      b.toNat / 16 = (toNib s.hiCode).toNat ∧ b.toNat % 16 = (toNib c).toNat

/-- 45_pair_decoder.md R225, R226, R227. -/
def Obligations.DecoderDropsTheHighCode : Prop :=
  ∀ (s : State) (rest : List PItem),
    (∀ (k : ErrKind) (i : Byte), DecoderReads s true (.err k i) rest →
      exec .dHeldErr s = .next
        { s with pQ := rest, pitem := s.pitem ++ [.err k i], dQ := [.err k i], hiValid := false }) ∧
    (DecoderReads s true (.fin false) rest →
      exec .dHeldEnd0 s = .next
        { s with
          pQ := rest
          pitem := s.pitem ++ [.fin false]
          dQ := [.err .missingSecondColorCodeBlock 0]
          hiValid := false }) ∧
    (DecoderReads s true (.fin true) rest →
      exec .dHeldEnd1 s = .next
        { s with
          pQ := rest
          pitem := s.pitem ++ [.fin true]
          dQ := [.err .missingSecondColorCodeBlock 0, .fin true]
          hiValid := false })

/-- 45_pair_decoder.md R228. -/
def Obligations.DecoderDeliversItsHead : Prop :=
  ∀ (s : State) (x : DItem) (rest : List DItem), s.rst = false → s.decReady = true → s.dQ = x :: rest →
    exec .dDeliver s = .next { s with dQ := rest, decOut := s.decOut ++ [x] }

/-- 45_pair_decoder.md R220: "Every combination selects exactly one row, so the decoder is total and deterministic."
The refusal is the
model's form (log 8). -/
def Obligations.DecoderIsTotalAndDeterministic : Prop :=
  (∀ (s : State) (x : PItem) (rest : List PItem), s.rst = false → s.dQ = [] → s.pQ = x :: rest →
    ∃ i ∈ decoderInputs, decSelect s = some i ∧ exec i s = exec .pDeliver s ∧
      (∀ r, exec i s ≠ .refused r) ∧ ∀ j ∈ decoderInputs, j ≠ i → exec j s = .refused .notEnabled) ∧
  (∀ s : State, (s.rst = true ∨ s.dQ ≠ [] ∨ s.pQ = []) →
    exec .pDeliver s = .refused .notEnabled ∧ ∀ j ∈ decoderInputs, exec j s = .refused .notEnabled) ∧
  (∀ s : State, (s.rst = true ∨ s.dQ = [] ∨ s.decReady = false) → exec .dDeliver s = .refused .notEnabled)

/-- 45_pair_decoder.md R230 (c), (e), 60_exceptions.md R268: errors pass unchanged and in order, and `2N` Codes
followed by `END(1)` give `N` bytes and `END(1)`. For numbers that are no Codes the second clause rests on the model's
choice (log 9). -/
def Obligations.DecoderPassesErrorsAndPairsCodes : Prop :=
  (∀ (h : Option Byte) (xs : List PItem), (∀ x ∈ xs, pitemOk x = true) →
    errorsD (decodeItems h xs) = errorsP xs) ∧
  (∀ ps : List (Byte × Byte),
    decodeItems none ((ps.map fun p => [PItem.code p.1, PItem.code p.2]).flatten ++ [.fin true]) =
      ps.map (fun p => .byte (pairToByte p)) ++ [.fin true])

/-! ## The wire words -/

/-- 44_wire_words.md R181 to R196: the canonical words. -/
def Obligations.CanonicalWordsGiveTheirCode : Prop :=
  WordCompletes .wC40 [0x34, 0x30] (.code 40) ∧ WordCompletes .wC41 [0x34, 0x31] (.code 41) ∧
  WordCompletes .wC42 [0x34, 0x32] (.code 42) ∧ WordCompletes .wC43 [0x34, 0x33] (.code 43) ∧
  WordCompletes .wC44 [0x34, 0x34] (.code 44) ∧ WordCompletes .wC45 [0x34, 0x35] (.code 45) ∧
  WordCompletes .wC46 [0x34, 0x36] (.code 46) ∧ WordCompletes .wC47 [0x34, 0x37] (.code 47) ∧
  WordCompletes .wC100 [0x31, 0x30, 0x30] (.code 100) ∧ WordCompletes .wC101 [0x31, 0x30, 0x31] (.code 101) ∧
  WordCompletes .wC102 [0x31, 0x30, 0x32] (.code 102) ∧ WordCompletes .wC103 [0x31, 0x30, 0x33] (.code 103) ∧
  WordCompletes .wC104 [0x31, 0x30, 0x34] (.code 104) ∧ WordCompletes .wC105 [0x31, 0x30, 0x35] (.code 105) ∧
  WordCompletes .wC106 [0x31, 0x30, 0x36] (.code 106) ∧ WordCompletes .wC107 [0x31, 0x30, 0x37] (.code 107)

/-- 44_wire_words.md R197 to R207: the leading-zero spellings and the sentinel. -/
def Obligations.OtherSpellingsGiveTheirItem : Prop :=
  WordCompletes .wC040 [0x30, 0x34, 0x30] (.code 40) ∧ WordCompletes .wC041 [0x30, 0x34, 0x31] (.code 41) ∧
  WordCompletes .wC042 [0x30, 0x34, 0x32] (.code 42) ∧ WordCompletes .wC043 [0x30, 0x34, 0x33] (.code 43) ∧
  WordCompletes .wC044 [0x30, 0x34, 0x34] (.code 44) ∧ WordCompletes .wC045 [0x30, 0x34, 0x35] (.code 45) ∧
  WordCompletes .wC046 [0x30, 0x34, 0x36] (.code 46) ∧ WordCompletes .wC047 [0x30, 0x34, 0x37] (.code 47) ∧
  WordCompletes .wEnd0 [0x30] (.fin false) ∧ WordCompletes .wEnd00 [0x30, 0x30] (.fin false) ∧
  WordCompletes .wEnd000 [0x30, 0x30, 0x30] (.fin false)

/-- 44_wire_words.md R180: "A word is recognised only from `pstate = HDR`", and only when its bytes are offered. The
refusal is the model's form (log 8, log 19). -/
def Obligations.WordsAreRecognisedOnlyAtHeader : Prop :=
  ∀ (i : Instr) (bs : List Byte) (s : State), encode i = some bs →
    (s.rst = true ∨ s.pQ ≠ [] ∨ s.pstate ≠ .hdr ∨ (∀ rest, s.textIn ≠ bs.map .byte ++ rest)) →
    exec i s = .refused .notEnabled

/-! ## Decoding and encoding -/

/-- 44_wire_words.md R181 to R207: every encoding decodes to its instruction, with any fill byte and whatever follows;
the instructions that have an encoding are the wire words. -/
def Obligations.DecodeOfEncodeIsTheWord : Prop :=
  (∀ (i : Instr) (bs rest : List Byte), encode i = some bs → decode (bs ++ rest) = .ok (i, rest)) ∧
  (∀ i : Instr, (encode i).isSome = (wordResult i).isSome)

/-- The other direction: bytes the decoder accepts are the encoding of what it answers, followed by the rest, and the
answer is well-formed. -/
def Obligations.EncodeOfDecodeIsTheBytes : Prop :=
  ∀ (bs rest : List Byte) (i : Instr), decode bs = .ok (i, rest) →
    i.wf = true ∧ ∃ es, encode i = some es ∧ bs = es ++ rest

/-- 30_encoding.md R71, R88, 44_wire_words.md R180: "a sequence `w` of the word's length is the word exactly when
`(w & mask) = match`", and the opcode table's own number of a word, with any fill byte, decodes to the word. -/
def Obligations.MaskAndMatchAreTheDecoder : Prop :=
  ∀ r ∈ maskRows,
    (∀ bs : List Byte, r.fits bs = true ↔ ∃ f : Byte, encode (r.instr f) = some bs ∧ decode bs = .ok (r.instr f, [])) ∧
    (∀ f : Byte, decodeTableWord (8 * r.lengthBytes) (r.pattern + f.toNat) = some (r.instr f))

/-- A few words written out from 44_wire_words.md. -/
def Obligations.WrittenOutWordsDecode : Prop :=
  decode [0x1B, 0x5B, 0x34, 0x34, 0x6D, 0x20] = .ok (.wC44 0x20, []) ∧
  decode [0x1B, 0x5B, 0x31, 0x30, 0x30, 0x6D, 0x1B] = .ok (.wC100 0x1B, []) ∧
  decode [0x1B, 0x5B, 0x30, 0x34, 0x37, 0x6D, 0x00] = .ok (.wC047 0x00, []) ∧
  decode [0x1B, 0x5B, 0x30, 0x6D, 0x20] = .ok (.wEnd0 0x20, []) ∧
  decode [0x1B, 0x5B, 0x34, 0x38, 0x6D, 0x20] = .error .outOfBounds

/-- 44_wire_words.md R180, R208: the words are exactly what the parser answers with a Code or `END(0)`: a decoded word
is one unit of work with the word's *Result*, and no other byte sequence has such a unit of work. -/
def Obligations.WordsAreWhatTheParserAccepts : Prop :=
  (∀ (bs rest : List Byte) (i : Instr), decode bs = .ok (i, rest) →
    ∃ x n, wordResult i = some x ∧ unitOfWork parStart 0 (bs.map .byte) = some ([x], n, rest.map .byte)) ∧
  (∀ (bs : List Byte) (x : PItem) (n : Nat) (xs : List InItem),
    unitOfWork parStart 0 (bs.map .byte) = some ([x], n, xs) → ((∃ c, x = .code c) ∨ x = .fin false) →
    ∃ i rest, decode bs = .ok (i, rest) ∧ wordResult i = some x ∧ xs = rest.map .byte)

/-- 30_encoding.md R78, R79, 44_wire_words.md R208: the name under which bytes are rejected is the error the parser
reports for them, or none while they only begin a block. -/
def Obligations.RejectionNamesTheParsersError : Prop :=
  ∀ (bs : List Byte) (r : Reject), decode bs = .error r →
    (unitOfWork parStart 0 (bs.map .byte)).map (fun u => u.1) = (rejectItem r).map fun x => [x]

/-! ## The step, the host, reset -/

/-- 44_wire_words.md R180: when the bytes offered at `HDR` decode to a word, the step at that state is `exec` of the
word: by the model's default order with an empty schedule, and with the turn `word` (log 6, log 19), where the step
also takes the turn off the schedule. The word completes. -/
def Obligations.StepRunsTheDecodedWord : Prop :=
  ∀ (s : State) (i : Instr) (rest : List Byte), s.rst = false → s.pQ = [] → s.pstate = .hdr →
    decode (leadingBytes s.textIn) = .ok (i, rest) →
    (s.sched = [] → step s = exec i s) ∧
    (∀ ts, s.sched = .word :: ts → step s = exec i { s with sched := ts }) ∧
    i.wf = true ∧ ∃ t x, exec i s = .next t ∧ wordResult i = some x ∧ t.pQ = [x] ∧ t.pstate = .hdr

/-- 10_state.md R20, 70_reset_and_hazards.md R301: in an agent's turn the step is `exec` of the transition its table
selects, and where none is enabled the agent waits. The turn is the model's form of the free schedule (log 6). -/
def Obligations.StepRunsTheSelectedTransition : Prop :=
  ∀ (s : State) (a : Agent) (ts : List Turn), s.rst = false → s.sched = .agent a :: ts →
    (∀ i, agentSelect a { s with sched := ts } = some i → step s = exec i { s with sched := ts }) ∧
    (agentSelect a { s with sched := ts } = none → step s = .next { s with sched := ts })

/-- The host's `withFetchWord` (log 18): the very next step runs the instruction the table word decodes to. -/
def Obligations.FetchedTableWordRunsNext : Prop :=
  ∀ (s : State) (nbits w : Nat) (i : Instr), decodeTableWord nbits w = some i →
    step (s.withFetchWord nbits w) = exec i (s.withFetchWord nbits w) ∧
    ∃ t, exec i (s.withFetchWord nbits w) = .next t

/-- 20_memory.md R50 to R52, R54, 42_encoder.md R125: at an edge at which every agent moves, exactly the streams whose
valid and ready are both 1 move, by one item, and the taps show what moved. -/
def Obligations.ClockEdgeMovesWhatIsValidAndReady : Prop :=
  ∀ (s : State) (ts : List Turn), Inv s → s.rst = false → s.sched = .clock :: ts →
    ∃ t, step s = .next t ∧ t.sched = ts ∧
      t.rawIn = (if (outPins s).rawReady then s.rawIn.tail else s.rawIn) ∧
      t.textIn = (if (outPins s).txiReady then s.textIn.tail else s.textIn) ∧
      t.textOut = s.textOut ++ (if s.txoReady then (txoOffer s).toList else []) ∧
      t.decOut = s.decOut ++ (if s.decReady then s.dQ.head?.toList else []) ∧
      t.pitem = s.pitem ++ (pitTap s).toList ∧
      t.ecode = s.ecode ++ (ecodeTap s).toList

/-- 20_memory.md R50, R51, R52, 42_encoder.md (table at the start, R125), 45_pair_decoder.md R228 and
70_reset_and_hazards.md R291: with `rst = 0` every valid, ready and payload is the stated function of the registers; a
tap whose valid is 0 shows 0; while `rst = 1` every output is 0; what the outputs are with the registers at their reset
values (vector X6). The taps are those of an edge at which every agent moves (log 6). -/
def Obligations.OutputsFollowTheRegistersAndReset : Prop :=
  (∀ s : State, s.rst = false →
    ((outPins s).rawReady = true ↔ s.eBusy = false ∧ s.eEoi = false) ∧
    ((outPins s).txiReady = true ↔ s.pQ = []) ∧
    (encInv s →
      ((outPins s).txoValid = true ↔ s.eBusy = true ∨ s.eEoi = true) ∧
      (s.eBusy = true →
        (outPins s).txoData =
          (render (if s.eHalf = .high then fromHi s.eByte else fromLo s.eByte))[s.ePos.toNat]? ∧
        (outPins s).txoEoi = some false) ∧
      (s.eEoi = true → (outPins s).txoData = some 0 ∧ (outPins s).txoEoi = some true) ∧
      ((outPins s).ecodeValid = true ↔ s.eBusy = true ∧ s.ePos = 0 ∧ s.txoReady = true) ∧
      ((outPins s).ecodeValid = true →
        (outPins s).ecodeNum = if s.eHalf = .high then fromHi s.eByte else fromLo s.eByte)) ∧
    ((outPins s).ecodeValid = false → (outPins s).ecodeNum = 0) ∧
    ((outPins s).decValid = true ↔ s.dQ ≠ []) ∧
    (∀ x rest, s.dQ = x :: rest → (outPins s).decItem = some (ditemPort x)) ∧
    ((outPins s).pitValid = true ↔ s.pQ ≠ [] ∧ s.dQ = []) ∧
    (∀ x rest, s.pQ = x :: rest → s.dQ = [] → (outPins s).pitItem = pitemPort x) ∧
    ((outPins s).pitValid = false → (outPins s).pitItem = { kind := 0, data := 0, err := 0, eoi := 0 })) ∧
  (∀ s : State, s.rst = true → outPins s =
    { rawReady := false, txiReady := false, txoValid := false, txoData := some 0, txoEoi := some false,
      decValid := false, decItem := some { kind := 0, data := 0, err := 0, eoi := 0 }, pitValid := false,
      pitItem := { kind := 0, data := 0, err := 0, eoi := 0 }, ecodeValid := false, ecodeNum := 0 }) ∧
  (∀ s : State, s.rst = false → s.pQ = [] → s.dQ = [] → s.eBusy = false → s.eEoi = false →
    (outPins s).rawReady = true ∧ (outPins s).txiReady = true ∧ (outPins s).txoValid = false ∧
    (outPins s).decValid = false ∧ (outPins s).pitValid = false ∧ (outPins s).ecodeValid = false)

/-- 20_memory.md R52: "The producer, having raised valid, keeps valid at 1 and every payload signal of the stream
unchanged until the transfer has happened; it does not make valid depend on the same stream's ready." On `TEXT_OUT` and
`DEC_OUT`, over any step, whoever moves, that leaves `rst` at 0: an item offered is transferred, which needs the host's
ready, or it is offered still and nothing was transferred. In the unreachable row `e_busy = 1` and `e_eoi = 1` what is
offered is the model's choice (log 17). -/
def Obligations.OfferedOutputsStayUntilTheTransfer : Prop :=
  (∀ s t : State, s.rst = false → step s = .next t → t.rst = false →
    (∀ x, txoOffer s = some x →
      (s.txoReady = true ∧ t.textOut = s.textOut ++ [x]) ∨
      (t.textOut = s.textOut ∧ (outPins t).txoValid = true ∧ (outPins t).txoData = (outPins s).txoData ∧
        (outPins t).txoEoi = (outPins s).txoEoi)) ∧
    (∀ x rest, s.dQ = x :: rest →
      (s.decReady = true ∧ t.decOut = s.decOut ++ [x]) ∨
      (t.decOut = s.decOut ∧ (outPins t).decValid = true ∧ (outPins t).decItem = (outPins s).decItem))) ∧
  (∀ (s : State) (x d : Bool),
    (outPins { s with txoReady := x, decReady := d }).txoValid = (outPins s).txoValid ∧
    (outPins { s with txoReady := x, decReady := d }).txoData = (outPins s).txoData ∧
    (outPins { s with txoReady := x, decReady := d }).txoEoi = (outPins s).txoEoi ∧
    (outPins { s with txoReady := x, decReady := d }).decValid = (outPins s).decValid ∧
    (outPins { s with txoReady := x, decReady := d }).decItem = (outPins s).decItem)

/-- 30_encoding.md R82, R83: the fields and numbers an item has on a port; R85: what is never driven on `pit_*` and
`dec_*`. -/
def Obligations.ReservedPortCodesAreNeverDriven : Prop :=
  ((∀ c : Byte, pitemPort (.code c) = { kind := 0, data := c, err := 0, eoi := 0 }) ∧
    (∀ b : Byte, ditemPort (.byte b) = { kind := 0, data := b, err := 0, eoi := 0 }) ∧
    (∀ (k : ErrKind) (i : Byte), pitemPort (.err k i) = { kind := 1, data := i, err := errCode k, eoi := 0 } ∧
      ditemPort (.err k i) = { kind := 1, data := i, err := errCode k, eoi := 0 }) ∧
    (∀ z : Bool, pitemPort (.fin z) = { kind := 2, data := 0, err := 0, eoi := if z then 1 else 0 } ∧
      ditemPort (.fin z) = { kind := 2, data := 0, err := 0, eoi := if z then 1 else 0 }) ∧
    errCode .byteStreamTerminatedUnexpectedly = 1 ∧ errCode .invalidStartByte = 2 ∧
    errCode .invalidNumberPrefix = 3 ∧ errCode .noCodeDigitsFound = 4 ∧ errCode .tooManyCodeDigits = 5 ∧
    errCode .unexpectedByte = 6 ∧ errCode .invalidCodeValue = 7 ∧ errCode .valueOutOfBounds = 8 ∧
    errCode .missingSecondColorCodeBlock = 9) ∧
  (∀ s : State, Inv s →
    ((outPins s).pitItem.kind ≠ 3 ∧ (outPins s).pitItem.err ≤ 8 ∧
      ((outPins s).pitItem.kind = 1 ↔ (outPins s).pitItem.err ≠ 0) ∧
      ((outPins s).pitValid = true → (outPins s).pitItem.kind = 0 → CodeNumber (outPins s).pitItem.data.toNat)) ∧
    (∀ p, (outPins s).decItem = some p → p.kind ≠ 3 ∧ p.err ≤ 9 ∧ (p.kind = 1 ↔ p.err ≠ 0)))

/-- 10_state.md R32: the values the spec gives for reset. -/
def Obligations.ResetGivesTheStatedValues : Prop :=
  State.reset.pstate = .hdr ∧ State.reset.pQ = [] ∧ State.reset.hiValid = false ∧ State.reset.dQ = [] ∧
  State.reset.eBusy = false ∧ State.reset.eEoi = false

/-- 70_reset_and_hazards.md R290, R292: at an edge with `rst = 1` the registers take their reset values, nothing is
transferred and nothing is emitted. The six unspecified registers are left open. Which turns are edges, and that the
default order is one, is the model's choice (log 6); so is `rstPhase`, a field of the model's own (log 12). -/
def Obligations.ResetEdgeDiscardsEverything : Prop :=
  ∀ s : State, s.rst = true → EdgeNext s →
    ∃ t, step s = .next t ∧ t.pstate = .hdr ∧ t.hiValid = false ∧ t.eBusy = false ∧ t.eEoi = false ∧
      t.pQ = [] ∧ t.dQ = [] ∧ t.rawIn = s.rawIn ∧ t.textIn = s.textIn ∧ t.textOut = s.textOut ∧
      t.ecode = s.ecode ∧ t.pitem = s.pitem ∧ t.decOut = s.decOut ∧ t.opOut = s.opOut ∧
      t.rst = s.rst ∧ t.rstPhase = .taken ∧ t.txoReady = s.txoReady ∧ t.decReady = s.decReady

/-- 70_reset_and_hazards.md R292, R300 (a), 93_implementation_defined.md U16: what the host may do between edges. With
`rst = 0` it cannot take an offered item back; with `rst = 1` it can, and then `rst` cannot fall before a rising edge has
seen it. The turns are the model's form (log 3, log 6, log 12). -/
def Obligations.HostTurnsKeepTheHandshake : Prop :=
  ∀ (s : State) (ts : List Turn),
    (∀ raw text, s.sched = .send raw text :: ts →
      step s = .next { s with sched := ts, rawIn := s.rawIn ++ raw, textIn := s.textIn ++ text }) ∧
    (∀ x d, s.sched = .ready x d :: ts → step s = .next { s with sched := ts, txoReady := x, decReady := d }) ∧
    (s.sched = .reset true :: ts →
      step s = .next { s with sched := ts, rst := true, rstPhase := if s.rst = true then s.rstPhase else .quiet }) ∧
    (s.sched = .reset false :: ts → (s.rst = false ∨ s.rstPhase ≠ .owed) →
      step s = .next { s with sched := ts, rst := false, rstPhase := .quiet }) ∧
    (s.sched = .reset false :: ts → s.rst = true → s.rstPhase = .owed → step s = .refused .hostBreaksHandshake) ∧
    (s.sched = .withdraw :: ts → s.rawIn = [] → s.textIn = [] → step s = .next { s with sched := ts }) ∧
    (s.sched = .withdraw :: ts → (s.rawIn ≠ [] ∨ s.textIn ≠ []) → s.rst = true →
      step s = .next
        { s with
          sched := ts
          rawIn := []
          textIn := []
          rstPhase := if s.rstPhase = .taken then .taken else .owed }) ∧
    (s.sched = .withdraw :: ts → (s.rawIn ≠ [] ∨ s.textIn ≠ []) → s.rst = false →
      step s = .refused .hostBreaksHandshake)

/-- 70_reset_and_hazards.md R300 (a) between two rising edges with `rst = 0`: whatever the host does between them, what
it offered is offered still, at the head and unchanged: a trace in which it is not does not complete (U16). The turns
are the model's form (log 12). -/
def Obligations.OfferedInputsStayBetweenEdges : Prop :=
  ∀ (s t : State) (p : List Turn), s.rst = false → s.rstPhase = .quiet → (p.all Turn.byHost) = true →
    core.run p.length { s with sched := p } = .next t → t.rst = false →
    s.rawIn <+: t.rawIn ∧ s.textIn <+: t.textIn

/-! ## Invariants and safety -/

/-- 10_state.md R33 holds after reset. -/
def Obligations.ResetMeetsTheInvariants : Prop := Inv State.reset

/-- 10_state.md R33, 30_encoding.md R84, R85: every step keeps the invariants, whoever moves and whatever the host
does. -/
def Obligations.EveryStepKeepsTheInvariants : Prop := ∀ s t : State, Inv s → step s = .next t → Inv t

/-- 93_implementation_defined.md, end of part 1: "the block has no fault that stops it, and no input, however malformed,
leads to a state without a defined next step". The one stop left is the host's breach of R300 (a): taking back an offered
item with `rst = 0`, or lowering `rst` after that without a rising edge (log 12). -/
def Obligations.NothingTheHostSendsStopsTheBlock : Prop :=
  ∀ s : State, Inv s →
    (∃ t, step s = .next t) ∨
    (step s = .refused .hostBreaksHandshake ∧
      ((s.rst = false ∧ ∃ ts, s.sched = .withdraw :: ts) ∨
        (s.rst = true ∧ s.rstPhase = .owed ∧ ∃ ts, s.sched = .reset false :: ts)))

/-! ## Whole streams -/

/-- 20_memory.md R61, R62 (a), 43_parser.md R159, 45_pair_decoder.md R229: whatever moves, what `PITEM` and `DEC_OUT`
have carried, hold and will carry for the items offered does not change. In a state that
holds a number that is no Code, what is still to come rests on the model's choice (log 9). -/
def Obligations.DecodePathIsConserved : Prop :=
  ∀ s t : State, s.rst = false → QuietNext s → step s = .next t → t.pitemAll = s.pitemAll ∧ t.decAll = s.decAll

/-- 20_memory.md R61, R62 (a), 42_encoder.md R125, R126: the same for `TEXT_OUT` and the tap `ECODE`. In the
unreachable row `e_busy = 1` and `e_eoi = 1` what is still owed is the model's choice (log 17). -/
def Obligations.EncodePathIsConserved : Prop :=
  ∀ s t : State, s.rst = false → QuietNext s → step s = .next t → t.textAll = s.textAll ∧ t.codesAll = s.codesAll

/-- 20_memory.md R62 (a): "not of the clock, not of when the host raises valid or ready, not of the interleaving of
agents": two runs of one state under two schedules and two settings of the ready pins agree, item by item, as far as
both have come, on all four streams. -/
def Obligations.StreamsDoNotDependOnTheSchedule : Prop :=
  ∀ (s a b : State) (m n : Nat) (p q : List Turn) (w x y z : Bool),
    s.rst = false → (p.all Turn.quiet) = true → (q.all Turn.quiet) = true →
    core.run m { s with sched := p, txoReady := w, decReady := x } = .next a →
    core.run n { s with sched := q, txoReady := y, decReady := z } = .next b →
    (a.pitem <+: b.pitem ∨ b.pitem <+: a.pitem) ∧ (a.decOut <+: b.decOut ∨ b.decOut <+: a.decOut) ∧
    (a.textOut <+: b.textOut ∨ b.textOut <+: a.textOut) ∧ (a.ecode <+: b.ecode ∨ b.ecode <+: a.ecode)

/-- 46_codec.md R240 to R242, 70_reset_and_hazards.md R301: a host that offers one stream on each path and takes
everything gets, after finitely many steps, `encode_text`, the Codes, `parse` and `decode`, and both paths are idle.
The schedule is the model's default order (log 6). -/
def Obligations.RunsDeliverWholeStreams : Prop :=
  ∀ bs ts : List Byte, ∃ (n : Nat) (t : State),
    core.run n (freshWith (textStream bs) (textStream ts)) = .next t ∧ t.idle ∧
    t.textOut = (encodeText bs).map .byte ++ [.eoi] ∧ t.ecode = encodeCodes bs ∧
    t.pitem = parse ts ∧ t.decOut = decodeText ts

/-- 46_codec.md R244: the round trip, in the hardware's and in the document's view. -/
def Obligations.RoundTripOfTheCodec : Prop :=
  ∀ bs : List Byte,
    decodeText (encodeText bs) = bs.map .byte ++ [.fin true] ∧ docDecode (encodeText bs) = bs.map .byte

/-- 46_codec.md R247 (c), (d), (e): `RESET` after a text, between two texts, and between the blocks of a pair. -/
def Obligations.ResetWordEndsASequence : Prop :=
  ∀ (xs ys : List Byte) (b : Byte),
    decodeText (encodeText xs ++ Config.resetWord) = xs.map .byte ++ [.fin false, .fin true] ∧
    docDecode (encodeText xs ++ Config.resetWord) = xs.map .byte ∧
    decodeText (encodeText xs ++ Config.resetWord ++ encodeText ys) =
      xs.map .byte ++ [.fin false] ++ ys.map .byte ++ [.fin true] ∧
    decodeText (encodeText xs ++ render (fromHi b) ++ Config.resetWord ++ encodeText ys) =
      xs.map .byte ++ [.err .missingSecondColorCodeBlock 0] ++ ys.map .byte ++ [.fin true]

/-- 70_reset_and_hazards.md R299: streams that follow one another without reset do not influence one another. -/
def Obligations.ConsecutiveStreamsAreIndependent : Prop :=
  ∀ (ts : List Byte) (xs : List InItem),
    parseItems parStart (textStream ts ++ xs) = parse ts ++ parseItems parStart xs ∧
    decodeItems none (parseItems parStart (textStream ts ++ xs)) =
      decodeText ts ++ decodeItems none (parseItems parStart xs)

/-- 10_state.md R35, R33 (d): dead registers are never read: two states that agree on everything live step alike, show
the same ports, and agree again. So no output depends on an unspecified reset value (93 U12). -/
def Obligations.DeadRegistersAreNeverRead : Prop :=
  ∀ s t : State, s.live = t.live →
    outPins s = outPins t ∧
    (∀ s', step s = .next s' → ∃ t', step t = .next t' ∧ s'.live = t'.live) ∧
    (∀ f, step s = .fault f → step t = .fault f) ∧ (∀ r, step s = .refused r → step t = .refused r)
end

