-- ==== Sys2Proof/Laws/State.lean ====
section
/-! SUPPORT. One lemma per field per named update of the state: what each update writes, and that it leaves the other
fields. All are true by unfolding the update. -/

namespace Sys2Proof.Machine

variable (s : State)

@[simp] theorem State.emitP_pstate (xs : List PItem) : (s.emitP xs).pstate = s.pstate := rfl
@[simp] theorem State.emitP_ndig (xs : List PItem) : (s.emitP xs).ndig = s.ndig := rfl
@[simp] theorem State.emitP_acc (xs : List PItem) : (s.emitP xs).acc = s.acc := rfl
@[simp] theorem State.emitP_pQ (xs : List PItem) : (s.emitP xs).pQ = s.pQ ++ xs := rfl
@[simp] theorem State.emitP_hiValid (xs : List PItem) : (s.emitP xs).hiValid = s.hiValid := rfl
@[simp] theorem State.emitP_hiCode (xs : List PItem) : (s.emitP xs).hiCode = s.hiCode := rfl
@[simp] theorem State.emitP_dQ (xs : List PItem) : (s.emitP xs).dQ = s.dQ := rfl
@[simp] theorem State.emitP_eBusy (xs : List PItem) : (s.emitP xs).eBusy = s.eBusy := rfl
@[simp] theorem State.emitP_eByte (xs : List PItem) : (s.emitP xs).eByte = s.eByte := rfl
@[simp] theorem State.emitP_eHalf (xs : List PItem) : (s.emitP xs).eHalf = s.eHalf := rfl
@[simp] theorem State.emitP_ePos (xs : List PItem) : (s.emitP xs).ePos = s.ePos := rfl
@[simp] theorem State.emitP_eEoi (xs : List PItem) : (s.emitP xs).eEoi = s.eEoi := rfl
@[simp] theorem State.emitP_rst (xs : List PItem) : (s.emitP xs).rst = s.rst := rfl
@[simp] theorem State.emitP_txoReady (xs : List PItem) : (s.emitP xs).txoReady = s.txoReady := rfl
@[simp] theorem State.emitP_decReady (xs : List PItem) : (s.emitP xs).decReady = s.decReady := rfl
@[simp] theorem State.emitP_rawIn (xs : List PItem) : (s.emitP xs).rawIn = s.rawIn := rfl
@[simp] theorem State.emitP_textIn (xs : List PItem) : (s.emitP xs).textIn = s.textIn := rfl
@[simp] theorem State.emitP_textOut (xs : List PItem) : (s.emitP xs).textOut = s.textOut := rfl
@[simp] theorem State.emitP_ecode (xs : List PItem) : (s.emitP xs).ecode = s.ecode := rfl
@[simp] theorem State.emitP_pitem (xs : List PItem) : (s.emitP xs).pitem = s.pitem := rfl
@[simp] theorem State.emitP_decOut (xs : List PItem) : (s.emitP xs).decOut = s.decOut := rfl
@[simp] theorem State.emitP_opOut (xs : List PItem) : (s.emitP xs).opOut = s.opOut := rfl
@[simp] theorem State.emitP_sched (xs : List PItem) : (s.emitP xs).sched = s.sched := rfl
@[simp] theorem State.emitP_resets (xs : List PItem) : (s.emitP xs).resets = s.resets := rfl
@[simp] theorem State.emitP_rstPhase (xs : List PItem) : (s.emitP xs).rstPhase = s.rstPhase := rfl

@[simp] theorem State.emitD_pstate (xs : List DItem) : (s.emitD xs).pstate = s.pstate := rfl
@[simp] theorem State.emitD_ndig (xs : List DItem) : (s.emitD xs).ndig = s.ndig := rfl
@[simp] theorem State.emitD_acc (xs : List DItem) : (s.emitD xs).acc = s.acc := rfl
@[simp] theorem State.emitD_pQ (xs : List DItem) : (s.emitD xs).pQ = s.pQ := rfl
@[simp] theorem State.emitD_hiValid (xs : List DItem) : (s.emitD xs).hiValid = s.hiValid := rfl
@[simp] theorem State.emitD_hiCode (xs : List DItem) : (s.emitD xs).hiCode = s.hiCode := rfl
@[simp] theorem State.emitD_dQ (xs : List DItem) : (s.emitD xs).dQ = s.dQ ++ xs := rfl
@[simp] theorem State.emitD_eBusy (xs : List DItem) : (s.emitD xs).eBusy = s.eBusy := rfl
@[simp] theorem State.emitD_eByte (xs : List DItem) : (s.emitD xs).eByte = s.eByte := rfl
@[simp] theorem State.emitD_eHalf (xs : List DItem) : (s.emitD xs).eHalf = s.eHalf := rfl
@[simp] theorem State.emitD_ePos (xs : List DItem) : (s.emitD xs).ePos = s.ePos := rfl
@[simp] theorem State.emitD_eEoi (xs : List DItem) : (s.emitD xs).eEoi = s.eEoi := rfl
@[simp] theorem State.emitD_rst (xs : List DItem) : (s.emitD xs).rst = s.rst := rfl
@[simp] theorem State.emitD_txoReady (xs : List DItem) : (s.emitD xs).txoReady = s.txoReady := rfl
@[simp] theorem State.emitD_decReady (xs : List DItem) : (s.emitD xs).decReady = s.decReady := rfl
@[simp] theorem State.emitD_rawIn (xs : List DItem) : (s.emitD xs).rawIn = s.rawIn := rfl
@[simp] theorem State.emitD_textIn (xs : List DItem) : (s.emitD xs).textIn = s.textIn := rfl
@[simp] theorem State.emitD_textOut (xs : List DItem) : (s.emitD xs).textOut = s.textOut := rfl
@[simp] theorem State.emitD_ecode (xs : List DItem) : (s.emitD xs).ecode = s.ecode := rfl
@[simp] theorem State.emitD_pitem (xs : List DItem) : (s.emitD xs).pitem = s.pitem := rfl
@[simp] theorem State.emitD_decOut (xs : List DItem) : (s.emitD xs).decOut = s.decOut := rfl
@[simp] theorem State.emitD_opOut (xs : List DItem) : (s.emitD xs).opOut = s.opOut := rfl
@[simp] theorem State.emitD_sched (xs : List DItem) : (s.emitD xs).sched = s.sched := rfl
@[simp] theorem State.emitD_resets (xs : List DItem) : (s.emitD xs).resets = s.resets := rfl
@[simp] theorem State.emitD_rstPhase (xs : List DItem) : (s.emitD xs).rstPhase = s.rstPhase := rfl

@[simp] theorem State.goto_pstate (p : PState) : (s.goto p).pstate = p := rfl
@[simp] theorem State.goto_ndig (p : PState) : (s.goto p).ndig = s.ndig := rfl
@[simp] theorem State.goto_acc (p : PState) : (s.goto p).acc = s.acc := rfl
@[simp] theorem State.goto_pQ (p : PState) : (s.goto p).pQ = s.pQ := rfl
@[simp] theorem State.goto_hiValid (p : PState) : (s.goto p).hiValid = s.hiValid := rfl
@[simp] theorem State.goto_hiCode (p : PState) : (s.goto p).hiCode = s.hiCode := rfl
@[simp] theorem State.goto_dQ (p : PState) : (s.goto p).dQ = s.dQ := rfl
@[simp] theorem State.goto_eBusy (p : PState) : (s.goto p).eBusy = s.eBusy := rfl
@[simp] theorem State.goto_eByte (p : PState) : (s.goto p).eByte = s.eByte := rfl
@[simp] theorem State.goto_eHalf (p : PState) : (s.goto p).eHalf = s.eHalf := rfl
@[simp] theorem State.goto_ePos (p : PState) : (s.goto p).ePos = s.ePos := rfl
@[simp] theorem State.goto_eEoi (p : PState) : (s.goto p).eEoi = s.eEoi := rfl
@[simp] theorem State.goto_rst (p : PState) : (s.goto p).rst = s.rst := rfl
@[simp] theorem State.goto_txoReady (p : PState) : (s.goto p).txoReady = s.txoReady := rfl
@[simp] theorem State.goto_decReady (p : PState) : (s.goto p).decReady = s.decReady := rfl
@[simp] theorem State.goto_rawIn (p : PState) : (s.goto p).rawIn = s.rawIn := rfl
@[simp] theorem State.goto_textIn (p : PState) : (s.goto p).textIn = s.textIn := rfl
@[simp] theorem State.goto_textOut (p : PState) : (s.goto p).textOut = s.textOut := rfl
@[simp] theorem State.goto_ecode (p : PState) : (s.goto p).ecode = s.ecode := rfl
@[simp] theorem State.goto_pitem (p : PState) : (s.goto p).pitem = s.pitem := rfl
@[simp] theorem State.goto_decOut (p : PState) : (s.goto p).decOut = s.decOut := rfl
@[simp] theorem State.goto_opOut (p : PState) : (s.goto p).opOut = s.opOut := rfl
@[simp] theorem State.goto_sched (p : PState) : (s.goto p).sched = s.sched := rfl
@[simp] theorem State.goto_resets (p : PState) : (s.goto p).resets = s.resets := rfl
@[simp] theorem State.goto_rstPhase (p : PState) : (s.goto p).rstPhase = s.rstPhase := rfl

@[simp] theorem State.raise_pstate (k : ErrKind) (info : Byte) : (s.raise k info).pstate = (.hdr : PState) := rfl
@[simp] theorem State.raise_ndig (k : ErrKind) (info : Byte) : (s.raise k info).ndig = s.ndig := rfl
@[simp] theorem State.raise_acc (k : ErrKind) (info : Byte) : (s.raise k info).acc = s.acc := rfl
@[simp] theorem State.raise_pQ (k : ErrKind) (info : Byte) : (s.raise k info).pQ = s.pQ ++ [.err k info] := rfl
@[simp] theorem State.raise_hiValid (k : ErrKind) (info : Byte) : (s.raise k info).hiValid = s.hiValid := rfl
@[simp] theorem State.raise_hiCode (k : ErrKind) (info : Byte) : (s.raise k info).hiCode = s.hiCode := rfl
@[simp] theorem State.raise_dQ (k : ErrKind) (info : Byte) : (s.raise k info).dQ = s.dQ := rfl
@[simp] theorem State.raise_eBusy (k : ErrKind) (info : Byte) : (s.raise k info).eBusy = s.eBusy := rfl
@[simp] theorem State.raise_eByte (k : ErrKind) (info : Byte) : (s.raise k info).eByte = s.eByte := rfl
@[simp] theorem State.raise_eHalf (k : ErrKind) (info : Byte) : (s.raise k info).eHalf = s.eHalf := rfl
@[simp] theorem State.raise_ePos (k : ErrKind) (info : Byte) : (s.raise k info).ePos = s.ePos := rfl
@[simp] theorem State.raise_eEoi (k : ErrKind) (info : Byte) : (s.raise k info).eEoi = s.eEoi := rfl
@[simp] theorem State.raise_rst (k : ErrKind) (info : Byte) : (s.raise k info).rst = s.rst := rfl
@[simp] theorem State.raise_txoReady (k : ErrKind) (info : Byte) : (s.raise k info).txoReady = s.txoReady := rfl
@[simp] theorem State.raise_decReady (k : ErrKind) (info : Byte) : (s.raise k info).decReady = s.decReady := rfl
@[simp] theorem State.raise_rawIn (k : ErrKind) (info : Byte) : (s.raise k info).rawIn = s.rawIn := rfl
@[simp] theorem State.raise_textIn (k : ErrKind) (info : Byte) : (s.raise k info).textIn = s.textIn := rfl
@[simp] theorem State.raise_textOut (k : ErrKind) (info : Byte) : (s.raise k info).textOut = s.textOut := rfl
@[simp] theorem State.raise_ecode (k : ErrKind) (info : Byte) : (s.raise k info).ecode = s.ecode := rfl
@[simp] theorem State.raise_pitem (k : ErrKind) (info : Byte) : (s.raise k info).pitem = s.pitem := rfl
@[simp] theorem State.raise_decOut (k : ErrKind) (info : Byte) : (s.raise k info).decOut = s.decOut := rfl
@[simp] theorem State.raise_opOut (k : ErrKind) (info : Byte) : (s.raise k info).opOut = s.opOut := rfl
@[simp] theorem State.raise_sched (k : ErrKind) (info : Byte) : (s.raise k info).sched = s.sched := rfl
@[simp] theorem State.raise_resets (k : ErrKind) (info : Byte) : (s.raise k info).resets = s.resets := rfl
@[simp] theorem State.raise_rstPhase (k : ErrKind) (info : Byte) : (s.raise k info).rstPhase = s.rstPhase := rfl

@[simp] theorem State.raiseEoi_pstate : (s.raiseEoi).pstate = (.hdr : PState) := rfl
@[simp] theorem State.raiseEoi_ndig : (s.raiseEoi).ndig = s.ndig := rfl
@[simp] theorem State.raiseEoi_acc : (s.raiseEoi).acc = s.acc := rfl
@[simp] theorem State.raiseEoi_pQ : (s.raiseEoi).pQ = s.pQ ++ [.err .byteStreamTerminatedUnexpectedly 0, .fin true] := rfl
@[simp] theorem State.raiseEoi_hiValid : (s.raiseEoi).hiValid = s.hiValid := rfl
@[simp] theorem State.raiseEoi_hiCode : (s.raiseEoi).hiCode = s.hiCode := rfl
@[simp] theorem State.raiseEoi_dQ : (s.raiseEoi).dQ = s.dQ := rfl
@[simp] theorem State.raiseEoi_eBusy : (s.raiseEoi).eBusy = s.eBusy := rfl
@[simp] theorem State.raiseEoi_eByte : (s.raiseEoi).eByte = s.eByte := rfl
@[simp] theorem State.raiseEoi_eHalf : (s.raiseEoi).eHalf = s.eHalf := rfl
@[simp] theorem State.raiseEoi_ePos : (s.raiseEoi).ePos = s.ePos := rfl
@[simp] theorem State.raiseEoi_eEoi : (s.raiseEoi).eEoi = s.eEoi := rfl
@[simp] theorem State.raiseEoi_rst : (s.raiseEoi).rst = s.rst := rfl
@[simp] theorem State.raiseEoi_txoReady : (s.raiseEoi).txoReady = s.txoReady := rfl
@[simp] theorem State.raiseEoi_decReady : (s.raiseEoi).decReady = s.decReady := rfl
@[simp] theorem State.raiseEoi_rawIn : (s.raiseEoi).rawIn = s.rawIn := rfl
@[simp] theorem State.raiseEoi_textIn : (s.raiseEoi).textIn = s.textIn := rfl
@[simp] theorem State.raiseEoi_textOut : (s.raiseEoi).textOut = s.textOut := rfl
@[simp] theorem State.raiseEoi_ecode : (s.raiseEoi).ecode = s.ecode := rfl
@[simp] theorem State.raiseEoi_pitem : (s.raiseEoi).pitem = s.pitem := rfl
@[simp] theorem State.raiseEoi_decOut : (s.raiseEoi).decOut = s.decOut := rfl
@[simp] theorem State.raiseEoi_opOut : (s.raiseEoi).opOut = s.opOut := rfl
@[simp] theorem State.raiseEoi_sched : (s.raiseEoi).sched = s.sched := rfl
@[simp] theorem State.raiseEoi_resets : (s.raiseEoi).resets = s.resets := rfl
@[simp] theorem State.raiseEoi_rstPhase : (s.raiseEoi).rstPhase = s.rstPhase := rfl

@[simp] theorem State.finish_pstate (x : PItem) : (s.finish x).pstate = (.hdr : PState) := rfl
@[simp] theorem State.finish_ndig (x : PItem) : (s.finish x).ndig = s.ndig := rfl
@[simp] theorem State.finish_acc (x : PItem) : (s.finish x).acc = s.acc := rfl
@[simp] theorem State.finish_pQ (x : PItem) : (s.finish x).pQ = s.pQ ++ [x] := rfl
@[simp] theorem State.finish_hiValid (x : PItem) : (s.finish x).hiValid = s.hiValid := rfl
@[simp] theorem State.finish_hiCode (x : PItem) : (s.finish x).hiCode = s.hiCode := rfl
@[simp] theorem State.finish_dQ (x : PItem) : (s.finish x).dQ = s.dQ := rfl
@[simp] theorem State.finish_eBusy (x : PItem) : (s.finish x).eBusy = s.eBusy := rfl
@[simp] theorem State.finish_eByte (x : PItem) : (s.finish x).eByte = s.eByte := rfl
@[simp] theorem State.finish_eHalf (x : PItem) : (s.finish x).eHalf = s.eHalf := rfl
@[simp] theorem State.finish_ePos (x : PItem) : (s.finish x).ePos = s.ePos := rfl
@[simp] theorem State.finish_eEoi (x : PItem) : (s.finish x).eEoi = s.eEoi := rfl
@[simp] theorem State.finish_rst (x : PItem) : (s.finish x).rst = s.rst := rfl
@[simp] theorem State.finish_txoReady (x : PItem) : (s.finish x).txoReady = s.txoReady := rfl
@[simp] theorem State.finish_decReady (x : PItem) : (s.finish x).decReady = s.decReady := rfl
@[simp] theorem State.finish_rawIn (x : PItem) : (s.finish x).rawIn = s.rawIn := rfl
@[simp] theorem State.finish_textIn (x : PItem) : (s.finish x).textIn = s.textIn := rfl
@[simp] theorem State.finish_textOut (x : PItem) : (s.finish x).textOut = s.textOut := rfl
@[simp] theorem State.finish_ecode (x : PItem) : (s.finish x).ecode = s.ecode := rfl
@[simp] theorem State.finish_pitem (x : PItem) : (s.finish x).pitem = s.pitem := rfl
@[simp] theorem State.finish_decOut (x : PItem) : (s.finish x).decOut = s.decOut := rfl
@[simp] theorem State.finish_opOut (x : PItem) : (s.finish x).opOut = s.opOut := rfl
@[simp] theorem State.finish_sched (x : PItem) : (s.finish x).sched = s.sched := rfl
@[simp] theorem State.finish_resets (x : PItem) : (s.finish x).resets = s.resets := rfl
@[simp] theorem State.finish_rstPhase (x : PItem) : (s.finish x).rstPhase = s.rstPhase := rfl

@[simp] theorem State.holdHigh_pstate (c : Byte) : (s.holdHigh c).pstate = s.pstate := rfl
@[simp] theorem State.holdHigh_ndig (c : Byte) : (s.holdHigh c).ndig = s.ndig := rfl
@[simp] theorem State.holdHigh_acc (c : Byte) : (s.holdHigh c).acc = s.acc := rfl
@[simp] theorem State.holdHigh_pQ (c : Byte) : (s.holdHigh c).pQ = s.pQ := rfl
@[simp] theorem State.holdHigh_hiValid (c : Byte) : (s.holdHigh c).hiValid = true := rfl
@[simp] theorem State.holdHigh_hiCode (c : Byte) : (s.holdHigh c).hiCode = c := rfl
@[simp] theorem State.holdHigh_dQ (c : Byte) : (s.holdHigh c).dQ = s.dQ := rfl
@[simp] theorem State.holdHigh_eBusy (c : Byte) : (s.holdHigh c).eBusy = s.eBusy := rfl
@[simp] theorem State.holdHigh_eByte (c : Byte) : (s.holdHigh c).eByte = s.eByte := rfl
@[simp] theorem State.holdHigh_eHalf (c : Byte) : (s.holdHigh c).eHalf = s.eHalf := rfl
@[simp] theorem State.holdHigh_ePos (c : Byte) : (s.holdHigh c).ePos = s.ePos := rfl
@[simp] theorem State.holdHigh_eEoi (c : Byte) : (s.holdHigh c).eEoi = s.eEoi := rfl
@[simp] theorem State.holdHigh_rst (c : Byte) : (s.holdHigh c).rst = s.rst := rfl
@[simp] theorem State.holdHigh_txoReady (c : Byte) : (s.holdHigh c).txoReady = s.txoReady := rfl
@[simp] theorem State.holdHigh_decReady (c : Byte) : (s.holdHigh c).decReady = s.decReady := rfl
@[simp] theorem State.holdHigh_rawIn (c : Byte) : (s.holdHigh c).rawIn = s.rawIn := rfl
@[simp] theorem State.holdHigh_textIn (c : Byte) : (s.holdHigh c).textIn = s.textIn := rfl
@[simp] theorem State.holdHigh_textOut (c : Byte) : (s.holdHigh c).textOut = s.textOut := rfl
@[simp] theorem State.holdHigh_ecode (c : Byte) : (s.holdHigh c).ecode = s.ecode := rfl
@[simp] theorem State.holdHigh_pitem (c : Byte) : (s.holdHigh c).pitem = s.pitem := rfl
@[simp] theorem State.holdHigh_decOut (c : Byte) : (s.holdHigh c).decOut = s.decOut := rfl
@[simp] theorem State.holdHigh_opOut (c : Byte) : (s.holdHigh c).opOut = s.opOut := rfl
@[simp] theorem State.holdHigh_sched (c : Byte) : (s.holdHigh c).sched = s.sched := rfl
@[simp] theorem State.holdHigh_resets (c : Byte) : (s.holdHigh c).resets = s.resets := rfl
@[simp] theorem State.holdHigh_rstPhase (c : Byte) : (s.holdHigh c).rstPhase = s.rstPhase := rfl

@[simp] theorem State.dropHigh_pstate : (s.dropHigh).pstate = s.pstate := rfl
@[simp] theorem State.dropHigh_ndig : (s.dropHigh).ndig = s.ndig := rfl
@[simp] theorem State.dropHigh_acc : (s.dropHigh).acc = s.acc := rfl
@[simp] theorem State.dropHigh_pQ : (s.dropHigh).pQ = s.pQ := rfl
@[simp] theorem State.dropHigh_hiValid : (s.dropHigh).hiValid = false := rfl
@[simp] theorem State.dropHigh_hiCode : (s.dropHigh).hiCode = s.hiCode := rfl
@[simp] theorem State.dropHigh_dQ : (s.dropHigh).dQ = s.dQ := rfl
@[simp] theorem State.dropHigh_eBusy : (s.dropHigh).eBusy = s.eBusy := rfl
@[simp] theorem State.dropHigh_eByte : (s.dropHigh).eByte = s.eByte := rfl
@[simp] theorem State.dropHigh_eHalf : (s.dropHigh).eHalf = s.eHalf := rfl
@[simp] theorem State.dropHigh_ePos : (s.dropHigh).ePos = s.ePos := rfl
@[simp] theorem State.dropHigh_eEoi : (s.dropHigh).eEoi = s.eEoi := rfl
@[simp] theorem State.dropHigh_rst : (s.dropHigh).rst = s.rst := rfl
@[simp] theorem State.dropHigh_txoReady : (s.dropHigh).txoReady = s.txoReady := rfl
@[simp] theorem State.dropHigh_decReady : (s.dropHigh).decReady = s.decReady := rfl
@[simp] theorem State.dropHigh_rawIn : (s.dropHigh).rawIn = s.rawIn := rfl
@[simp] theorem State.dropHigh_textIn : (s.dropHigh).textIn = s.textIn := rfl
@[simp] theorem State.dropHigh_textOut : (s.dropHigh).textOut = s.textOut := rfl
@[simp] theorem State.dropHigh_ecode : (s.dropHigh).ecode = s.ecode := rfl
@[simp] theorem State.dropHigh_pitem : (s.dropHigh).pitem = s.pitem := rfl
@[simp] theorem State.dropHigh_decOut : (s.dropHigh).decOut = s.decOut := rfl
@[simp] theorem State.dropHigh_opOut : (s.dropHigh).opOut = s.opOut := rfl
@[simp] theorem State.dropHigh_sched : (s.dropHigh).sched = s.sched := rfl
@[simp] theorem State.dropHigh_resets : (s.dropHigh).resets = s.resets := rfl
@[simp] theorem State.dropHigh_rstPhase : (s.dropHigh).rstPhase = s.rstPhase := rfl

@[simp] theorem State.answer_pstate (v : OpValue) : (s.answer v).pstate = s.pstate := rfl
@[simp] theorem State.answer_ndig (v : OpValue) : (s.answer v).ndig = s.ndig := rfl
@[simp] theorem State.answer_acc (v : OpValue) : (s.answer v).acc = s.acc := rfl
@[simp] theorem State.answer_pQ (v : OpValue) : (s.answer v).pQ = s.pQ := rfl
@[simp] theorem State.answer_hiValid (v : OpValue) : (s.answer v).hiValid = s.hiValid := rfl
@[simp] theorem State.answer_hiCode (v : OpValue) : (s.answer v).hiCode = s.hiCode := rfl
@[simp] theorem State.answer_dQ (v : OpValue) : (s.answer v).dQ = s.dQ := rfl
@[simp] theorem State.answer_eBusy (v : OpValue) : (s.answer v).eBusy = s.eBusy := rfl
@[simp] theorem State.answer_eByte (v : OpValue) : (s.answer v).eByte = s.eByte := rfl
@[simp] theorem State.answer_eHalf (v : OpValue) : (s.answer v).eHalf = s.eHalf := rfl
@[simp] theorem State.answer_ePos (v : OpValue) : (s.answer v).ePos = s.ePos := rfl
@[simp] theorem State.answer_eEoi (v : OpValue) : (s.answer v).eEoi = s.eEoi := rfl
@[simp] theorem State.answer_rst (v : OpValue) : (s.answer v).rst = s.rst := rfl
@[simp] theorem State.answer_txoReady (v : OpValue) : (s.answer v).txoReady = s.txoReady := rfl
@[simp] theorem State.answer_decReady (v : OpValue) : (s.answer v).decReady = s.decReady := rfl
@[simp] theorem State.answer_rawIn (v : OpValue) : (s.answer v).rawIn = s.rawIn := rfl
@[simp] theorem State.answer_textIn (v : OpValue) : (s.answer v).textIn = s.textIn := rfl
@[simp] theorem State.answer_textOut (v : OpValue) : (s.answer v).textOut = s.textOut := rfl
@[simp] theorem State.answer_ecode (v : OpValue) : (s.answer v).ecode = s.ecode := rfl
@[simp] theorem State.answer_pitem (v : OpValue) : (s.answer v).pitem = s.pitem := rfl
@[simp] theorem State.answer_decOut (v : OpValue) : (s.answer v).decOut = s.decOut := rfl
@[simp] theorem State.answer_opOut (v : OpValue) : (s.answer v).opOut = some v := rfl
@[simp] theorem State.answer_sched (v : OpValue) : (s.answer v).sched = s.sched := rfl
@[simp] theorem State.answer_resets (v : OpValue) : (s.answer v).resets = s.resets := rfl
@[simp] theorem State.answer_rstPhase (v : OpValue) : (s.answer v).rstPhase = s.rstPhase := rfl

@[simp] theorem State.putText_pstate (t : Byte) : (s.putText t).pstate = s.pstate := rfl
@[simp] theorem State.putText_ndig (t : Byte) : (s.putText t).ndig = s.ndig := rfl
@[simp] theorem State.putText_acc (t : Byte) : (s.putText t).acc = s.acc := rfl
@[simp] theorem State.putText_pQ (t : Byte) : (s.putText t).pQ = s.pQ := rfl
@[simp] theorem State.putText_hiValid (t : Byte) : (s.putText t).hiValid = s.hiValid := rfl
@[simp] theorem State.putText_hiCode (t : Byte) : (s.putText t).hiCode = s.hiCode := rfl
@[simp] theorem State.putText_dQ (t : Byte) : (s.putText t).dQ = s.dQ := rfl
@[simp] theorem State.putText_eBusy (t : Byte) : (s.putText t).eBusy = s.eBusy := rfl
@[simp] theorem State.putText_eByte (t : Byte) : (s.putText t).eByte = s.eByte := rfl
@[simp] theorem State.putText_eHalf (t : Byte) : (s.putText t).eHalf = s.eHalf := rfl
@[simp] theorem State.putText_ePos (t : Byte) : (s.putText t).ePos = s.ePos := rfl
@[simp] theorem State.putText_eEoi (t : Byte) : (s.putText t).eEoi = s.eEoi := rfl
@[simp] theorem State.putText_rst (t : Byte) : (s.putText t).rst = s.rst := rfl
@[simp] theorem State.putText_txoReady (t : Byte) : (s.putText t).txoReady = s.txoReady := rfl
@[simp] theorem State.putText_decReady (t : Byte) : (s.putText t).decReady = s.decReady := rfl
@[simp] theorem State.putText_rawIn (t : Byte) : (s.putText t).rawIn = s.rawIn := rfl
@[simp] theorem State.putText_textIn (t : Byte) : (s.putText t).textIn = s.textIn := rfl
@[simp] theorem State.putText_textOut (t : Byte) : (s.putText t).textOut = s.textOut ++ [.byte t] := rfl
@[simp] theorem State.putText_ecode (t : Byte) : (s.putText t).ecode = if s.ePos = 0 then s.ecode ++ [s.eCode] else s.ecode := rfl
@[simp] theorem State.putText_pitem (t : Byte) : (s.putText t).pitem = s.pitem := rfl
@[simp] theorem State.putText_decOut (t : Byte) : (s.putText t).decOut = s.decOut := rfl
@[simp] theorem State.putText_opOut (t : Byte) : (s.putText t).opOut = s.opOut := rfl
@[simp] theorem State.putText_sched (t : Byte) : (s.putText t).sched = s.sched := rfl
@[simp] theorem State.putText_resets (t : Byte) : (s.putText t).resets = s.resets := rfl
@[simp] theorem State.putText_rstPhase (t : Byte) : (s.putText t).rstPhase = s.rstPhase := rfl

@[simp] theorem State.resetRegs_pstate : s.resetRegs.pstate = PState.hdr := rfl
@[simp] theorem State.resetRegs_ndig : s.resetRegs.ndig = Config.unspecNdig s.resets := rfl
@[simp] theorem State.resetRegs_acc : s.resetRegs.acc = Config.unspecAcc s.resets := rfl
@[simp] theorem State.resetRegs_pQ : s.resetRegs.pQ = [] := rfl
@[simp] theorem State.resetRegs_hiValid : s.resetRegs.hiValid = false := rfl
@[simp] theorem State.resetRegs_hiCode : s.resetRegs.hiCode = Config.unspecHiCode s.resets := rfl
@[simp] theorem State.resetRegs_dQ : s.resetRegs.dQ = [] := rfl
@[simp] theorem State.resetRegs_eBusy : s.resetRegs.eBusy = false := rfl
@[simp] theorem State.resetRegs_eByte : s.resetRegs.eByte = Config.unspecEByte s.resets := rfl
@[simp] theorem State.resetRegs_eHalf : s.resetRegs.eHalf = halfOf (Config.unspecEHalf s.resets) := rfl
@[simp] theorem State.resetRegs_ePos : s.resetRegs.ePos = Config.unspecEPos s.resets := rfl
@[simp] theorem State.resetRegs_eEoi : s.resetRegs.eEoi = false := rfl
@[simp] theorem State.resetRegs_rst : s.resetRegs.rst = s.rst := rfl
@[simp] theorem State.resetRegs_txoReady : s.resetRegs.txoReady = s.txoReady := rfl
@[simp] theorem State.resetRegs_decReady : s.resetRegs.decReady = s.decReady := rfl
@[simp] theorem State.resetRegs_rawIn : s.resetRegs.rawIn = s.rawIn := rfl
@[simp] theorem State.resetRegs_textIn : s.resetRegs.textIn = s.textIn := rfl
@[simp] theorem State.resetRegs_textOut : s.resetRegs.textOut = s.textOut := rfl
@[simp] theorem State.resetRegs_ecode : s.resetRegs.ecode = s.ecode := rfl
@[simp] theorem State.resetRegs_pitem : s.resetRegs.pitem = s.pitem := rfl
@[simp] theorem State.resetRegs_decOut : s.resetRegs.decOut = s.decOut := rfl
@[simp] theorem State.resetRegs_opOut : s.resetRegs.opOut = s.opOut := rfl
@[simp] theorem State.resetRegs_sched : s.resetRegs.sched = s.sched := rfl
@[simp] theorem State.resetRegs_resets : s.resetRegs.resets = s.resets + 1 := rfl
@[simp] theorem State.resetRegs_rstPhase : s.resetRegs.rstPhase = .taken := rfl

/-! `advance` moves `e_pos`, `e_half` and `e_busy` only. -/

@[simp] theorem State.advance_pstate : s.advance.pstate = s.pstate := by
  unfold State.advance; split
  · rfl
  · split <;> rfl
@[simp] theorem State.advance_ndig : s.advance.ndig = s.ndig := by
  unfold State.advance; split
  · rfl
  · split <;> rfl
@[simp] theorem State.advance_acc : s.advance.acc = s.acc := by
  unfold State.advance; split
  · rfl
  · split <;> rfl
@[simp] theorem State.advance_pQ : s.advance.pQ = s.pQ := by
  unfold State.advance; split
  · rfl
  · split <;> rfl
@[simp] theorem State.advance_hiValid : s.advance.hiValid = s.hiValid := by
  unfold State.advance; split
  · rfl
  · split <;> rfl
@[simp] theorem State.advance_hiCode : s.advance.hiCode = s.hiCode := by
  unfold State.advance; split
  · rfl
  · split <;> rfl
@[simp] theorem State.advance_dQ : s.advance.dQ = s.dQ := by
  unfold State.advance; split
  · rfl
  · split <;> rfl
@[simp] theorem State.advance_eByte : s.advance.eByte = s.eByte := by
  unfold State.advance; split
  · rfl
  · split <;> rfl
@[simp] theorem State.advance_eEoi : s.advance.eEoi = s.eEoi := by
  unfold State.advance; split
  · rfl
  · split <;> rfl
@[simp] theorem State.advance_rst : s.advance.rst = s.rst := by
  unfold State.advance; split
  · rfl
  · split <;> rfl
@[simp] theorem State.advance_txoReady : s.advance.txoReady = s.txoReady := by
  unfold State.advance; split
  · rfl
  · split <;> rfl
@[simp] theorem State.advance_decReady : s.advance.decReady = s.decReady := by
  unfold State.advance; split
  · rfl
  · split <;> rfl
@[simp] theorem State.advance_rawIn : s.advance.rawIn = s.rawIn := by
  unfold State.advance; split
  · rfl
  · split <;> rfl
@[simp] theorem State.advance_textIn : s.advance.textIn = s.textIn := by
  unfold State.advance; split
  · rfl
  · split <;> rfl
@[simp] theorem State.advance_textOut : s.advance.textOut = s.textOut := by
  unfold State.advance; split
  · rfl
  · split <;> rfl
@[simp] theorem State.advance_ecode : s.advance.ecode = s.ecode := by
  unfold State.advance; split
  · rfl
  · split <;> rfl
@[simp] theorem State.advance_pitem : s.advance.pitem = s.pitem := by
  unfold State.advance; split
  · rfl
  · split <;> rfl
@[simp] theorem State.advance_decOut : s.advance.decOut = s.decOut := by
  unfold State.advance; split
  · rfl
  · split <;> rfl
@[simp] theorem State.advance_opOut : s.advance.opOut = s.opOut := by
  unfold State.advance; split
  · rfl
  · split <;> rfl
@[simp] theorem State.advance_sched : s.advance.sched = s.sched := by
  unfold State.advance; split
  · rfl
  · split <;> rfl
@[simp] theorem State.advance_resets : s.advance.resets = s.resets := by
  unfold State.advance; split
  · rfl
  · split <;> rfl
@[simp] theorem State.advance_rstPhase : s.advance.rstPhase = s.rstPhase := by
  unfold State.advance; split
  · rfl
  · split <;> rfl

/-! The parser's registers as one value. -/

@[simp] theorem State.parRegs_pstate : s.parRegs.pstate = s.pstate := rfl
@[simp] theorem State.parRegs_ndig : s.parRegs.ndig = s.ndig := rfl
@[simp] theorem State.parRegs_acc : s.parRegs.acc = s.acc := rfl

end Sys2Proof.Machine
end

