-- ==== Sys2Proof/Laws/Ops.lean ====
section
/-! SUPPORT. For each shared operation, once, everything it can do. -/

namespace Sys2Proof.Machine

/-- `StreamRead(RAW_IN)`: an item is taken exactly when `ENC` is ready and one is offered (R52, R54). -/
theorem takeRaw_eq_some {s s' : State} {x : InItem} :
    takeRaw s = some (x, s') ↔
      s.rawReady = true ∧ ∃ xs, s.rawIn = x :: xs ∧ s' = { s with rawIn := xs } := by
  unfold takeRaw
  split
  · rename_i h
    cases hr : s.rawIn <;> simp [h, eq_comm]
  · rename_i h
    simp [h]

/-- `StreamRead(TEXT_IN)`: an item is taken exactly when `PAR` is ready and one is offered (R52, R54). -/
theorem takeText_eq_some {s s' : State} {x : InItem} :
    takeText s = some (x, s') ↔
      s.txiReady = true ∧ ∃ xs, s.textIn = x :: xs ∧ s' = { s with textIn := xs } := by
  unfold takeText
  split
  · rename_i h
    cases hr : s.textIn <;> simp [h, eq_comm]
  · rename_i h
    simp [h]

/-- The transfer on `PITEM`: it happens exactly when `DEC` is ready and `p_q` is not empty (R52, R158). -/
theorem takePItem_eq_some {s s' : State} {x : PItem} :
    takePItem s = some (x, s') ↔
      s.pitemReady = true ∧ ∃ xs, s.pQ = x :: xs ∧ s' = { s with pQ := xs, pitem := s.pitem ++ [x] } := by
  unfold takePItem
  split
  · rename_i h
    cases hr : s.pQ with
    | nil => simp [h]
    | cons y ys =>
      simp only [Option.some.injEq, Prod.mk.injEq, h, true_and, List.cons.injEq]
      constructor
      · rintro ⟨rfl, rfl⟩
        exact ⟨ys, ⟨rfl, rfl⟩, rfl⟩
      · rintro ⟨xs, ⟨rfl, rfl⟩, rfl⟩
        exact ⟨rfl, rfl⟩
  · rename_i h
    simp [h]

/-- A parser transition on a byte answers a next state exactly when a byte its guard accepts is taken. -/
theorem onTextByte_eq_next {s t : State} {g : Byte → Bool} {f : Byte → State → State} :
    onTextByte s g f = .next t ↔ ∃ b s', takeText s = some (.byte b, s') ∧ g b = true ∧ t = f b s' := by
  unfold onTextByte
  split
  · rename_i b s' h
    simp only [h, Option.some.injEq, Prod.mk.injEq, InItem.byte.injEq]
    constructor
    · intro h'
      split at h'
      · rename_i hg
        cases h'
        exact ⟨b, s', ⟨rfl, rfl⟩, hg, rfl⟩
      · cases h'
    · rintro ⟨_, _, ⟨rfl, rfl⟩, hg, rfl⟩
      rw [if_pos hg]
  · rename_i h
    constructor
    · intro h'
      simp [disabled] at h'
    · rintro ⟨b, s', hs, -, -⟩
      exact absurd hs (h b s')

/-- A parser transition on a byte that does not answer a next state is not enabled: it never faults. -/
theorem onTextByte_cases (s : State) (g : Byte → Bool) (f : Byte → State → State) :
    (∃ t, onTextByte s g f = .next t) ∨ onTextByte s g f = disabled := by
  unfold onTextByte
  split
  · split
    · exact .inl ⟨_, rfl⟩
    · exact .inr rfl
  · exact .inr rfl

/-- A parser transition on `EOI` answers a next state exactly when `EOI` is taken and its guard holds. -/
theorem onTextEoi_eq_next {s t : State} {g : Bool} {f : State → State} :
    onTextEoi s g f = .next t ↔ ∃ s', takeText s = some (.eoi, s') ∧ g = true ∧ t = f s' := by
  unfold onTextEoi
  split
  · rename_i s' h
    simp only [h, Option.some.injEq, Prod.mk.injEq, true_and]
    constructor
    · intro h'
      split at h'
      · rename_i hg
        cases h'
        exact ⟨s', rfl, hg, rfl⟩
      · cases h'
    · rintro ⟨_, rfl, hg, rfl⟩
      rw [if_pos hg]
  · rename_i h
    constructor
    · intro h'
      simp [disabled] at h'
    · rintro ⟨s', hs, -, -⟩
      exact absurd hs (h s')

/-- A parser transition on `EOI` that does not answer a next state is not enabled: it never faults. -/
theorem onTextEoi_cases (s : State) (g : Bool) (f : State → State) :
    (∃ t, onTextEoi s g f = .next t) ∨ onTextEoi s g f = disabled := by
  unfold onTextEoi
  split
  · split
    · exact .inl ⟨_, rfl⟩
    · exact .inr rfl
  · exact .inr rfl

/-- Joining a pair: a byte where both numbers are Codes, the fault where one is not (R103, R224). -/
theorem joinHeld_eq_next {c : Byte} {s t : State} :
    joinHeld c s = .next t ↔
      isCode s.hiCode = true ∧ isCode c = true ∧ t = (s.emitD [.byte (pairToByte (s.hiCode, c))]).dropHigh := by
  unfold joinHeld
  split
  · rename_i h
    simp only [Bool.and_eq_true] at h
    simp [h, pairFromCodes, eq_comm]
  · rename_i h
    simp only [Bool.and_eq_true, not_and] at h
    simp only [reduceCtorEq, false_iff, not_and]
    intro h1 h2
    exact absurd h2 (h h1)

/-- Everything the pair decoder can do with an item it has taken (R220). -/
theorem decAccept_eq_next {x : PItem} {s t : State} (h : decAccept x s = .next t) :
    (s.hiValid = false ∧ ∃ c, x = .code c ∧ t = s.holdHigh c) ∨
    (s.hiValid = false ∧ ∃ k i, x = .err k i ∧ t = s.emitD [.err k i]) ∨
    (s.hiValid = false ∧ ∃ z, x = .fin z ∧ t = s.emitD [.fin z]) ∨
    (s.hiValid = true ∧ ∃ c, x = .code c ∧ isCode s.hiCode = true ∧ isCode c = true ∧
      t = (s.emitD [.byte (pairToByte (s.hiCode, c))]).dropHigh) ∨
    (s.hiValid = true ∧ ∃ k i, x = .err k i ∧ t = (s.emitD [.err k i]).dropHigh) ∨
    (s.hiValid = true ∧ x = .fin false ∧ t = (s.emitD [.err .missingSecondColorCodeBlock 0]).dropHigh) ∨
    (s.hiValid = true ∧ x = .fin true ∧
      t = (s.emitD [.err .missingSecondColorCodeBlock 0, .fin true]).dropHigh) := by
  unfold decAccept at h
  split at h <;> rename_i hv
  case h_4 => have := joinHeld_eq_next.mp h; simp_all
  all_goals cases h; simp [hv]

/-- A combinational operation answers a next state exactly when its operands are well-formed. -/
theorem answerIf_eq_next {ok : Bool} {v : OpValue} {s t : State} :
    answerIf ok v s = .next t ↔ ok = true ∧ t = s.answer v := by
  cases ok <;> simp [answerIf, eq_comm]

/-- Along a path: the first transition, then the rest. -/
theorem alongPath_cons {f : State → Out} {fs : List (State → Out)} {s t : State} :
    alongPath (f :: fs) s = .next t ↔ ∃ s', f s = .next s' ∧ alongPath fs s' = .next t := by
  simp only [alongPath]
  cases f s <;> simp

/-- Running several instructions: the first, then the rest. -/
theorem runAll_cons {i : Instr} {is : List Instr} {s t : State} :
    runAll (i :: is) s = .next t ↔ ∃ s', exec i s = .next s' ∧ runAll is s' = .next t := by
  simp only [runAll]
  cases exec i s <;> simp

/-- Running one instruction is `exec`. -/
@[simp] theorem runAll_single (i : Instr) (s : State) : runAll [i] s = exec i s := by
  simp only [runAll]
  cases exec i s <;> rfl

/-- Everything the host's turn `withdraw` can do: nothing, or take all offered items back while `rst = 1`. -/
theorem withdraw_eq_next {s t : State} :
    withdraw s = .next t ↔
      (s.rawIn = [] ∧ s.textIn = [] ∧ t = s) ∨
      (¬ (s.rawIn = [] ∧ s.textIn = []) ∧ s.rst = true ∧
        t = { s with rawIn := [], textIn := [], rstPhase := if s.rstPhase = .taken then .taken else .owed }) := by
  constructor
  · intro h
    unfold withdraw at h
    split at h
    · rename_i he
      cases h
      exact .inl ⟨he.1, he.2, rfl⟩
    · rename_i he
      split at h
      · rename_i hr
        cases h
        exact .inr ⟨he, hr, rfl⟩
      · cases h
  · rintro (⟨h1, h2, rfl⟩ | ⟨hn, hr, rfl⟩)
    · exact if_pos ⟨h1, h2⟩
    · rw [withdraw, if_neg hn, if_pos hr]

/-- Everything the host's turn that drives `rst` can do: raise it, or lower it when no rising edge is owed. -/
theorem driveRst_eq_next {level : Bool} {s t : State} :
    driveRst level s = .next t ↔
      (level = true ∧ t = { s with rst := true, rstPhase := if s.rst then s.rstPhase else .quiet }) ∨
      (level = false ∧ ¬ (s.rst = true ∧ s.rstPhase = .owed) ∧ t = { s with rst := false, rstPhase := .quiet }) := by
  constructor
  · intro h
    unfold driveRst at h
    split at h
    · rename_i hl
      cases h
      exact .inl ⟨hl, rfl⟩
    · rename_i hl
      split at h
      · cases h
      · rename_i ho
        cases h
        exact .inr ⟨Bool.eq_false_iff.mpr hl, ho, rfl⟩
  · rintro (⟨rfl, rfl⟩ | ⟨rfl, ho, rfl⟩)
    · rfl
    · rw [driveRst, if_neg Bool.false_ne_true, if_neg ho]

end Sys2Proof.Machine
end

