-- ==== Sys2Proof/Laws/PerInstr.lean ====
section
/-! SUPPORT. A family of facts about every instruction as syntax: an encoding is a block of 30_encoding.md rule R70. -/

namespace Sys2Proof.Laws

/-- If the instruction has an encoding, it is a block: `ESC`, `[`, one to three digits, `m`, and one fill byte
(R70). -/
def EncodingForm.Statement (i : Instr) : Prop :=
  ∀ bs, encode i = some bs →
    ∃ ds f, bs = [Config.esc, Config.lbr] ++ ds ++ [Config.codeEnd, f] ∧
      1 ≤ ds.length ∧ ds.length ≤ 3 ∧ ds.all isDigit = true

theorem EncodingForm.codeFromNib (x : Nibble) : EncodingForm.Statement (.codeFromNib x) := by
  rintro _ ⟨⟩

theorem EncodingForm.codeFromLo (x : Byte) : EncodingForm.Statement (.codeFromLo x) := by
  rintro _ ⟨⟩

theorem EncodingForm.codeFromHi (x : Byte) : EncodingForm.Statement (.codeFromHi x) := by
  rintro _ ⟨⟩

theorem EncodingForm.codeToNib (x : Byte) : EncodingForm.Statement (.codeToNib x) := by
  rintro _ ⟨⟩

theorem EncodingForm.codeTryFrom (x : Byte) : EncodingForm.Statement (.codeTryFrom x) := by
  rintro _ ⟨⟩

theorem EncodingForm.codeRender (x : Byte) : EncodingForm.Statement (.codeRender x) := by
  rintro _ ⟨⟩

theorem EncodingForm.pairFromByte (x : Byte) : EncodingForm.Statement (.pairFromByte x) := by
  rintro _ ⟨⟩

theorem EncodingForm.pairFromCodes (x y : Byte) : EncodingForm.Statement (.pairFromCodes x y) := by
  rintro _ ⟨⟩

theorem EncodingForm.pairToByte (x y : Byte) : EncodingForm.Statement (.pairToByte x y) := by
  rintro _ ⟨⟩

theorem EncodingForm.pairIter (x y : Byte) : EncodingForm.Statement (.pairIter x y) := by
  rintro _ ⟨⟩

theorem EncodingForm.encByte : EncodingForm.Statement (.encByte) := by
  rintro _ ⟨⟩

theorem EncodingForm.encEoi : EncodingForm.Statement (.encEoi) := by
  rintro _ ⟨⟩

theorem EncodingForm.encEmit : EncodingForm.Statement (.encEmit) := by
  rintro _ ⟨⟩

theorem EncodingForm.encEmitEoi : EncodingForm.Statement (.encEmitEoi) := by
  rintro _ ⟨⟩

theorem EncodingForm.pHdrEsc : EncodingForm.Statement (.pHdrEsc) := by
  rintro _ ⟨⟩

theorem EncodingForm.pHdrOther : EncodingForm.Statement (.pHdrOther) := by
  rintro _ ⟨⟩

theorem EncodingForm.pHdrEoi : EncodingForm.Statement (.pHdrEoi) := by
  rintro _ ⟨⟩

theorem EncodingForm.pPfxOther : EncodingForm.Statement (.pPfxOther) := by
  rintro _ ⟨⟩

theorem EncodingForm.pPfxLbr : EncodingForm.Statement (.pPfxLbr) := by
  rintro _ ⟨⟩

theorem EncodingForm.pPfxEoi : EncodingForm.Statement (.pPfxEoi) := by
  rintro _ ⟨⟩

theorem EncodingForm.pDigDigit : EncodingForm.Statement (.pDigDigit) := by
  rintro _ ⟨⟩

theorem EncodingForm.pDigDigit4 : EncodingForm.Statement (.pDigDigit4) := by
  rintro _ ⟨⟩

theorem EncodingForm.pDigM0 : EncodingForm.Statement (.pDigM0) := by
  rintro _ ⟨⟩

theorem EncodingForm.pDigMovf : EncodingForm.Statement (.pDigMovf) := by
  rintro _ ⟨⟩

theorem EncodingForm.pDigM : EncodingForm.Statement (.pDigM) := by
  rintro _ ⟨⟩

theorem EncodingForm.pDigOther : EncodingForm.Statement (.pDigOther) := by
  rintro _ ⟨⟩

theorem EncodingForm.pDigEoi : EncodingForm.Statement (.pDigEoi) := by
  rintro _ ⟨⟩

theorem EncodingForm.pFillZero : EncodingForm.Statement (.pFillZero) := by
  rintro _ ⟨⟩

theorem EncodingForm.pFillCode : EncodingForm.Statement (.pFillCode) := by
  rintro _ ⟨⟩

theorem EncodingForm.pFillOob : EncodingForm.Statement (.pFillOob) := by
  rintro _ ⟨⟩

theorem EncodingForm.pFillEoi : EncodingForm.Statement (.pFillEoi) := by
  rintro _ ⟨⟩

theorem EncodingForm.pDeliver : EncodingForm.Statement (.pDeliver) := by
  rintro _ ⟨⟩

theorem EncodingForm.dEmptyCode : EncodingForm.Statement (.dEmptyCode) := by
  rintro _ ⟨⟩

theorem EncodingForm.dEmptyErr : EncodingForm.Statement (.dEmptyErr) := by
  rintro _ ⟨⟩

theorem EncodingForm.dEmptyEnd : EncodingForm.Statement (.dEmptyEnd) := by
  rintro _ ⟨⟩

theorem EncodingForm.dHeldCode : EncodingForm.Statement (.dHeldCode) := by
  rintro _ ⟨⟩

theorem EncodingForm.dHeldErr : EncodingForm.Statement (.dHeldErr) := by
  rintro _ ⟨⟩

theorem EncodingForm.dHeldEnd0 : EncodingForm.Statement (.dHeldEnd0) := by
  rintro _ ⟨⟩

theorem EncodingForm.dHeldEnd1 : EncodingForm.Statement (.dHeldEnd1) := by
  rintro _ ⟨⟩

theorem EncodingForm.dDeliver : EncodingForm.Statement (.dDeliver) := by
  rintro _ ⟨⟩

theorem EncodingForm.wC40 (f : Byte) : EncodingForm.Statement (.wC40 f) := by
  rintro _ ⟨⟩
  exact ⟨[0x34, 0x30], f, rfl, by decide, by decide, by decide⟩

theorem EncodingForm.wC41 (f : Byte) : EncodingForm.Statement (.wC41 f) := by
  rintro _ ⟨⟩
  exact ⟨[0x34, 0x31], f, rfl, by decide, by decide, by decide⟩

theorem EncodingForm.wC42 (f : Byte) : EncodingForm.Statement (.wC42 f) := by
  rintro _ ⟨⟩
  exact ⟨[0x34, 0x32], f, rfl, by decide, by decide, by decide⟩

theorem EncodingForm.wC43 (f : Byte) : EncodingForm.Statement (.wC43 f) := by
  rintro _ ⟨⟩
  exact ⟨[0x34, 0x33], f, rfl, by decide, by decide, by decide⟩

theorem EncodingForm.wC44 (f : Byte) : EncodingForm.Statement (.wC44 f) := by
  rintro _ ⟨⟩
  exact ⟨[0x34, 0x34], f, rfl, by decide, by decide, by decide⟩

theorem EncodingForm.wC45 (f : Byte) : EncodingForm.Statement (.wC45 f) := by
  rintro _ ⟨⟩
  exact ⟨[0x34, 0x35], f, rfl, by decide, by decide, by decide⟩

theorem EncodingForm.wC46 (f : Byte) : EncodingForm.Statement (.wC46 f) := by
  rintro _ ⟨⟩
  exact ⟨[0x34, 0x36], f, rfl, by decide, by decide, by decide⟩

theorem EncodingForm.wC47 (f : Byte) : EncodingForm.Statement (.wC47 f) := by
  rintro _ ⟨⟩
  exact ⟨[0x34, 0x37], f, rfl, by decide, by decide, by decide⟩

theorem EncodingForm.wC100 (f : Byte) : EncodingForm.Statement (.wC100 f) := by
  rintro _ ⟨⟩
  exact ⟨[0x31, 0x30, 0x30], f, rfl, by decide, by decide, by decide⟩

theorem EncodingForm.wC101 (f : Byte) : EncodingForm.Statement (.wC101 f) := by
  rintro _ ⟨⟩
  exact ⟨[0x31, 0x30, 0x31], f, rfl, by decide, by decide, by decide⟩

theorem EncodingForm.wC102 (f : Byte) : EncodingForm.Statement (.wC102 f) := by
  rintro _ ⟨⟩
  exact ⟨[0x31, 0x30, 0x32], f, rfl, by decide, by decide, by decide⟩

theorem EncodingForm.wC103 (f : Byte) : EncodingForm.Statement (.wC103 f) := by
  rintro _ ⟨⟩
  exact ⟨[0x31, 0x30, 0x33], f, rfl, by decide, by decide, by decide⟩

theorem EncodingForm.wC104 (f : Byte) : EncodingForm.Statement (.wC104 f) := by
  rintro _ ⟨⟩
  exact ⟨[0x31, 0x30, 0x34], f, rfl, by decide, by decide, by decide⟩

theorem EncodingForm.wC105 (f : Byte) : EncodingForm.Statement (.wC105 f) := by
  rintro _ ⟨⟩
  exact ⟨[0x31, 0x30, 0x35], f, rfl, by decide, by decide, by decide⟩

theorem EncodingForm.wC106 (f : Byte) : EncodingForm.Statement (.wC106 f) := by
  rintro _ ⟨⟩
  exact ⟨[0x31, 0x30, 0x36], f, rfl, by decide, by decide, by decide⟩

theorem EncodingForm.wC107 (f : Byte) : EncodingForm.Statement (.wC107 f) := by
  rintro _ ⟨⟩
  exact ⟨[0x31, 0x30, 0x37], f, rfl, by decide, by decide, by decide⟩

theorem EncodingForm.wC040 (f : Byte) : EncodingForm.Statement (.wC040 f) := by
  rintro _ ⟨⟩
  exact ⟨[0x30, 0x34, 0x30], f, rfl, by decide, by decide, by decide⟩

theorem EncodingForm.wC041 (f : Byte) : EncodingForm.Statement (.wC041 f) := by
  rintro _ ⟨⟩
  exact ⟨[0x30, 0x34, 0x31], f, rfl, by decide, by decide, by decide⟩

theorem EncodingForm.wC042 (f : Byte) : EncodingForm.Statement (.wC042 f) := by
  rintro _ ⟨⟩
  exact ⟨[0x30, 0x34, 0x32], f, rfl, by decide, by decide, by decide⟩

theorem EncodingForm.wC043 (f : Byte) : EncodingForm.Statement (.wC043 f) := by
  rintro _ ⟨⟩
  exact ⟨[0x30, 0x34, 0x33], f, rfl, by decide, by decide, by decide⟩

theorem EncodingForm.wC044 (f : Byte) : EncodingForm.Statement (.wC044 f) := by
  rintro _ ⟨⟩
  exact ⟨[0x30, 0x34, 0x34], f, rfl, by decide, by decide, by decide⟩

theorem EncodingForm.wC045 (f : Byte) : EncodingForm.Statement (.wC045 f) := by
  rintro _ ⟨⟩
  exact ⟨[0x30, 0x34, 0x35], f, rfl, by decide, by decide, by decide⟩

theorem EncodingForm.wC046 (f : Byte) : EncodingForm.Statement (.wC046 f) := by
  rintro _ ⟨⟩
  exact ⟨[0x30, 0x34, 0x36], f, rfl, by decide, by decide, by decide⟩

theorem EncodingForm.wC047 (f : Byte) : EncodingForm.Statement (.wC047 f) := by
  rintro _ ⟨⟩
  exact ⟨[0x30, 0x34, 0x37], f, rfl, by decide, by decide, by decide⟩

theorem EncodingForm.wEnd0 (f : Byte) : EncodingForm.Statement (.wEnd0 f) := by
  rintro _ ⟨⟩
  exact ⟨[0x30], f, rfl, by decide, by decide, by decide⟩

theorem EncodingForm.wEnd00 (f : Byte) : EncodingForm.Statement (.wEnd00 f) := by
  rintro _ ⟨⟩
  exact ⟨[0x30, 0x30], f, rfl, by decide, by decide, by decide⟩

theorem EncodingForm.wEnd000 (f : Byte) : EncodingForm.Statement (.wEnd000 f) := by
  rintro _ ⟨⟩
  exact ⟨[0x30, 0x30, 0x30], f, rfl, by decide, by decide, by decide⟩

end Sys2Proof.Laws
end

