-- ==== Sys2Proof/Tests/Slice0.lean ====
section
/-! SUPPORT. The model's own tests: ill-formed terms, one written-out word for each wire word, single steps with the
results of the spec's examples and vectors, and for each statement with hypotheses a witness that meets them. -/

namespace Sys2Proof.Machine

/-- The next state of an answer. -/
def after : Out → Option State
  | .next t => some t
  | .fault _ => none
  | .refused _ => none

/-- The refusal of an answer. -/
def refusal : Out → Option Refusal
  | .next _ => none
  | .fault _ => none
  | .refused r => some r

/-- A parser state that is offered `xs`. -/
def par (p : PState) (n : BitVec 2) (a : BitVec 10) (xs : List InItem) : State :=
  { State.reset with pstate := p, ndig := n, acc := a, textIn := xs }

/-- A decoder state with `x` at the head of `p_q`. -/
def dec (hv : Bool) (hc : Byte) (x : PItem) : State :=
  { State.reset with hiValid := hv, hiCode := hc, pQ := [x] }

/-- An encoder state that writes `b`, with the host taking bytes or not. -/
def enc (b : Byte) (h : Half) (p : BitVec 3) (ready : Bool) : State :=
  { State.reset with eBusy := true, eByte := b, eHalf := h, ePos := p, txoReady := ready }

/-- The items and the parser state after a parser transition. -/
def parOut (o : Out) : Option (List PItem × PState) := (after o).map fun t => (t.pQ, t.pstate)

/-- The items, `hi_valid` and `hi_code` after a decoder transition. -/
def decOutcome (o : Out) : Option (List DItem × Bool × Byte) := (after o).map fun t => (t.dQ, t.hiValid, t.hiCode)

/-! ## WellFormed refuses what is ill-formed -/

theorem test_illFormed_toNib : (Instr.codeToNib 48).wf = false := by decide
theorem test_illFormed_render : (Instr.codeRender 39).wf = false := by decide
theorem test_illFormed_fromCodes_high : (Instr.pairFromCodes 108 40).wf = false := by decide
theorem test_illFormed_fromCodes_low : (Instr.pairFromCodes 40 99).wf = false := by decide
theorem test_illFormed_toByte_high : (Instr.pairToByte 0 107).wf = false := by decide
theorem test_illFormed_toByte_low : (Instr.pairToByte 107 0).wf = false := by decide
theorem test_illFormed_iter_high : (Instr.pairIter 255 47).wf = false := by decide
theorem test_illFormed_iter_low : (Instr.pairIter 47 255).wf = false := by decide
theorem test_wellFormed_codes : (Instr.pairToByte 40 107).wf = true ∧ (Instr.codeToNib 47).wf = true := by decide

/-! ## Every wire word, written out from its encoding (44_wire_words.md, *Bytes*), with a fill byte -/

theorem test_decode_wC40 : (decode [0x1B, 0x5B, 0x34, 0x30, 0x6D, 0x20, 0x41]).toOption = some (.wC40 0x20, [0x41]) := by decide
theorem test_decode_wC41 : (decode [0x1B, 0x5B, 0x34, 0x31, 0x6D, 0x1B, 0x41]).toOption = some (.wC41 0x1B, [0x41]) := by decide
theorem test_decode_wC42 : (decode [0x1B, 0x5B, 0x34, 0x32, 0x6D, 0x00, 0x41]).toOption = some (.wC42 0x00, [0x41]) := by decide
theorem test_decode_wC43 : (decode [0x1B, 0x5B, 0x34, 0x33, 0x6D, 0xFF, 0x41]).toOption = some (.wC43 0xFF, [0x41]) := by decide
theorem test_decode_wC44 : (decode [0x1B, 0x5B, 0x34, 0x34, 0x6D, 0x20, 0x41]).toOption = some (.wC44 0x20, [0x41]) := by decide
theorem test_decode_wC45 : (decode [0x1B, 0x5B, 0x34, 0x35, 0x6D, 0x1B, 0x41]).toOption = some (.wC45 0x1B, [0x41]) := by decide
theorem test_decode_wC46 : (decode [0x1B, 0x5B, 0x34, 0x36, 0x6D, 0x00, 0x41]).toOption = some (.wC46 0x00, [0x41]) := by decide
theorem test_decode_wC47 : (decode [0x1B, 0x5B, 0x34, 0x37, 0x6D, 0xFF, 0x41]).toOption = some (.wC47 0xFF, [0x41]) := by decide
theorem test_decode_wC100 : (decode [0x1B, 0x5B, 0x31, 0x30, 0x30, 0x6D, 0x20, 0x41]).toOption = some (.wC100 0x20, [0x41]) := by decide
theorem test_decode_wC101 : (decode [0x1B, 0x5B, 0x31, 0x30, 0x31, 0x6D, 0x1B, 0x41]).toOption = some (.wC101 0x1B, [0x41]) := by decide
theorem test_decode_wC102 : (decode [0x1B, 0x5B, 0x31, 0x30, 0x32, 0x6D, 0x00, 0x41]).toOption = some (.wC102 0x00, [0x41]) := by decide
theorem test_decode_wC103 : (decode [0x1B, 0x5B, 0x31, 0x30, 0x33, 0x6D, 0xFF, 0x41]).toOption = some (.wC103 0xFF, [0x41]) := by decide
theorem test_decode_wC104 : (decode [0x1B, 0x5B, 0x31, 0x30, 0x34, 0x6D, 0x20, 0x41]).toOption = some (.wC104 0x20, [0x41]) := by decide
theorem test_decode_wC105 : (decode [0x1B, 0x5B, 0x31, 0x30, 0x35, 0x6D, 0x1B, 0x41]).toOption = some (.wC105 0x1B, [0x41]) := by decide
theorem test_decode_wC106 : (decode [0x1B, 0x5B, 0x31, 0x30, 0x36, 0x6D, 0x00, 0x41]).toOption = some (.wC106 0x00, [0x41]) := by decide
theorem test_decode_wC107 : (decode [0x1B, 0x5B, 0x31, 0x30, 0x37, 0x6D, 0xFF, 0x41]).toOption = some (.wC107 0xFF, [0x41]) := by decide
theorem test_decode_wC040 : (decode [0x1B, 0x5B, 0x30, 0x34, 0x30, 0x6D, 0x20, 0x41]).toOption = some (.wC040 0x20, [0x41]) := by decide
theorem test_decode_wC041 : (decode [0x1B, 0x5B, 0x30, 0x34, 0x31, 0x6D, 0x1B, 0x41]).toOption = some (.wC041 0x1B, [0x41]) := by decide
theorem test_decode_wC042 : (decode [0x1B, 0x5B, 0x30, 0x34, 0x32, 0x6D, 0x00, 0x41]).toOption = some (.wC042 0x00, [0x41]) := by decide
theorem test_decode_wC043 : (decode [0x1B, 0x5B, 0x30, 0x34, 0x33, 0x6D, 0xFF, 0x41]).toOption = some (.wC043 0xFF, [0x41]) := by decide
theorem test_decode_wC044 : (decode [0x1B, 0x5B, 0x30, 0x34, 0x34, 0x6D, 0x20, 0x41]).toOption = some (.wC044 0x20, [0x41]) := by decide
theorem test_decode_wC045 : (decode [0x1B, 0x5B, 0x30, 0x34, 0x35, 0x6D, 0x1B, 0x41]).toOption = some (.wC045 0x1B, [0x41]) := by decide
theorem test_decode_wC046 : (decode [0x1B, 0x5B, 0x30, 0x34, 0x36, 0x6D, 0x00, 0x41]).toOption = some (.wC046 0x00, [0x41]) := by decide
theorem test_decode_wC047 : (decode [0x1B, 0x5B, 0x30, 0x34, 0x37, 0x6D, 0xFF, 0x41]).toOption = some (.wC047 0xFF, [0x41]) := by decide
theorem test_decode_wEnd0 : (decode [0x1B, 0x5B, 0x30, 0x6D, 0x20, 0x41]).toOption = some (.wEnd0 0x20, [0x41]) := by decide
theorem test_decode_wEnd00 : (decode [0x1B, 0x5B, 0x30, 0x30, 0x6D, 0x1B, 0x41]).toOption = some (.wEnd00 0x1B, [0x41]) := by decide
theorem test_decode_wEnd000 : (decode [0x1B, 0x5B, 0x30, 0x30, 0x30, 0x6D, 0x00, 0x41]).toOption = some (.wEnd000 0x00, [0x41]) := by decide

/-! ## Rejected bytes (30_encoding.md R78, R79) -/

theorem test_reject_digits : decode [0x1B, 0x5B, 0x31, 0x30, 0x30, 0x30] = .error .tooManyDigits := by rfl
theorem test_reject_number : decode [0x1B, 0x5B, 0x39, 0x39, 0x6D, 0x20] = .error .outOfBounds := by rfl
theorem test_reject_overflow : decode [0x1B, 0x5B, 0x39, 0x39, 0x39, 0x6D] = .error .overflow := by rfl
theorem test_reject_truncated : decode [0x1B, 0x5B, 0x34, 0x34, 0x6D] = .error .truncated := by rfl

/-! ## Operations, with the examples of 40_code_mapper.md and 41_code_pair.md -/

theorem test_fromNib_8 : (after (exec (.codeFromNib 8) State.reset)).map State.opOut = some (some (.code 100)) := by decide
theorem test_fromLo_48 : (after (exec (.codeFromLo 0x48) State.reset)).map State.opOut = some (some (.code 100)) := by decide
theorem test_fromHi_48 : (after (exec (.codeFromHi 0x48) State.reset)).map State.opOut = some (some (.code 44)) := by decide
theorem test_toNib_100 : (after (exec (.codeToNib 100) State.reset)).map State.opOut = some (some (.nibble 8)) := by decide
theorem test_tryFrom_48 : (after (exec (.codeTryFrom 48) State.reset)).map State.opOut = some (some (.codeError .valueOutOfBounds)) := by decide
theorem test_tryFrom_44 : (after (exec (.codeTryFrom 44) State.reset)).map State.opOut = some (some (.code 44)) := by decide
theorem test_render_100 : (after (exec (.codeRender 100) State.reset)).map State.opOut = some (some (.bytes [0x1B, 0x5B, 0x31, 0x30, 0x30, 0x6D, 0x20])) := by decide
theorem test_fromByte_48 : (after (exec (.pairFromByte 0x48) State.reset)).map State.opOut = some (some (.pair 44 100)) := by decide
theorem test_fromCodes_order : (after (exec (.pairFromCodes 44 100) State.reset)).map State.opOut = some (some (.pair 44 100)) := by decide
theorem test_toByte_48 : (after (exec (.pairToByte 44 100) State.reset)).map State.opOut = some (some (.byte 0x48)) := by decide
theorem test_iter_order : (after (exec (.pairIter 44 100) State.reset)).map State.opOut = some (some (.codes [44, 100])) := by decide

/-! ## Transitions of `ENC`, with the examples of 42_encoder.md -/

theorem test_enc_byte : (after (exec .encByte { State.reset with rawIn := [.byte 0x48] })).map
    (fun t => (t.eByte, t.eHalf, t.ePos, t.eBusy)) = some (0x48, .high, 0, true) := by decide
theorem test_enc_eoi : (after (exec .encEoi { State.reset with rawIn := [.eoi] })).map State.eEoi = some true := by
  decide
theorem test_enc_emit : (after (exec .encEmit (enc 0x48 .high 2 true))).map (fun t => (t.textOut, t.ePos)) =
    some ([.byte 0x34], 3) := by decide
theorem test_enc_emit_last : (after (exec .encEmit (enc 0x48 .low 6 true))).map
    (fun t => (t.textOut, t.eBusy, t.ecode)) = some ([.byte 0x20], false, []) := by decide
theorem test_enc_emitEoi : (after (exec .encEmitEoi { State.reset with eEoi := true, txoReady := true })).map
    (fun t => (t.textOut, t.eEoi)) = some ([.eoi], false) := by decide

/-! ## Transitions of `PAR`, with the examples of 43_parser.md -/

theorem test_hdrEsc : parOut (exec .pHdrEsc (par .hdr 0 0 [.byte 0x1B])) =
    some ([], .pfx) := by decide
theorem test_hdrOther : parOut (exec .pHdrOther (par .hdr 0 0 [.byte 0x41])) =
    some ([.err .invalidStartByte 0x41], .hdr) := by decide
theorem test_hdrEoi : parOut (exec .pHdrEoi (par .hdr 0 0 [.eoi])) =
    some ([.fin true], .hdr) := by decide
theorem test_pfxOther : parOut (exec .pPfxOther (par .pfx 0 0 [.byte 0x34])) =
    some ([.err .invalidNumberPrefix 0x34], .hdr) := by decide
theorem test_pfxEoi : parOut (exec .pPfxEoi (par .pfx 0 0 [.eoi])) =
    some ([.err .byteStreamTerminatedUnexpectedly 0, .fin true], .hdr) := by decide
theorem test_pfxLbr : (after (exec .pPfxLbr (par .pfx 3 999 [.byte 0x5B]))).map
    (fun t => (t.pstate, t.ndig, t.acc)) = some (.dig, 0, 0) := by decide
theorem test_digit : (after (exec .pDigDigit (par .dig 1 4 [.byte 0x34]))).map
    (fun t => (t.pstate, t.ndig, t.acc)) = some (.dig, 2, 44) := by decide
theorem test_digit4 : parOut (exec .pDigDigit4 (par .dig 3 100 [.byte 0x30])) =
    some ([.err .tooManyCodeDigits 0x04], .hdr) := by decide
theorem test_m0 : parOut (exec .pDigM0 (par .dig 0 0 [.byte 0x6D])) =
    some ([.err .noCodeDigitsFound 0], .hdr) := by decide
theorem test_movf_256 : parOut (exec .pDigMovf (par .dig 3 256 [.byte 0x6D])) =
    some ([.err .invalidCodeValue 0], .hdr) := by decide
theorem test_m_255 : parOut (exec .pDigM (par .dig 3 255 [.byte 0x6D])) =
    some ([], .fill) := by decide
theorem test_digOther : parOut (exec .pDigOther (par .dig 1 4 [.byte 0x3B])) =
    some ([.err .unexpectedByte 0x3B], .hdr) := by decide
theorem test_digEoi : parOut (exec .pDigEoi (par .dig 1 4 [.eoi])) =
    some ([.err .byteStreamTerminatedUnexpectedly 0, .fin true], .hdr) := by decide
theorem test_fillZero : parOut (exec .pFillZero (par .fill 1 0 [.byte 0x20])) =
    some ([.fin false], .hdr) := by decide
theorem test_fillCode : parOut (exec .pFillCode (par .fill 2 44 [.byte 0x1B])) =
    some ([.code 44], .hdr) := by decide
theorem test_fillOob_48 : parOut (exec .pFillOob (par .fill 2 48 [.byte 0x20])) =
    some ([.err .valueOutOfBounds 0], .hdr) := by decide
theorem test_fillEoi : parOut (exec .pFillEoi (par .fill 2 44 [.eoi])) =
    some ([.err .byteStreamTerminatedUnexpectedly 0, .fin true], .hdr) := by decide
theorem test_deliver : (after (exec .pDeliver (dec false 0 (.code 44)))).map (fun t => (t.pQ, t.pitem, t.hiCode)) =
    some ([], [.code 44], 44) := by decide

/-! ## Transitions of `DEC`, with the examples of 45_pair_decoder.md -/

theorem test_emptyCode : decOutcome (exec .dEmptyCode (dec false 0 (.code 44))) =
    some ([], true, 44) := by decide
theorem test_emptyErr : decOutcome (exec .dEmptyErr (dec false 0 (.err .invalidStartByte 0x41))) =
    some ([.err .invalidStartByte 0x41], false, 0) := by decide
theorem test_emptyEnd : decOutcome (exec .dEmptyEnd (dec false 0 (.fin true))) =
    some ([.fin true], false, 0) := by decide
theorem test_heldCode : decOutcome (exec .dHeldCode (dec true 44 (.code 100))) =
    some ([.byte 0x48], false, 44) := by decide
theorem test_heldErr : decOutcome (exec .dHeldErr (dec true 44 (.err .valueOutOfBounds 0))) =
    some ([.err .valueOutOfBounds 0], false, 44) := by decide
theorem test_heldEnd0 : decOutcome (exec .dHeldEnd0 (dec true 44 (.fin false))) =
    some ([.err .missingSecondColorCodeBlock 0], false, 44) := by decide
theorem test_heldEnd1 : decOutcome (exec .dHeldEnd1 (dec true 44 (.fin true))) =
    some ([.err .missingSecondColorCodeBlock 0, .fin true], false, 44) := by decide
theorem test_dDeliver : (after (exec .dDeliver
    { State.reset with dQ := [.byte 0x48, .fin true], decReady := true })).map (fun t => (t.dQ, t.decOut)) =
    some ([.fin true], [.byte 0x48]) := by decide

/-! ## Wire words: one for each number of digits, with their results (44_wire_words.md, *Result*) -/

theorem test_word_C44 : parOut (exec (.wC44 0x20) (par .hdr 0 0 (([0x1B, 0x5B, 0x34, 0x34, 0x6D, 0x20]).map .byte))) =
    some ([.code 44], .hdr) := by decide
theorem test_word_C047 : parOut (exec (.wC047 0xFF)
    (par .hdr 0 0 (([0x1B, 0x5B, 0x30, 0x34, 0x37, 0x6D, 0xFF]).map .byte))) = some ([.code 47], .hdr) := by decide
theorem test_word_C107 : parOut (exec (.wC107 0x00)
    (par .hdr 0 0 (([0x1B, 0x5B, 0x31, 0x30, 0x37, 0x6D, 0x00]).map .byte))) = some ([.code 107], .hdr) := by decide
theorem test_word_END0 : parOut (exec (.wEnd0 0x20) (par .hdr 0 0 (Config.resetWord.map .byte))) =
    some ([.fin false], .hdr) := by decide

/-! ## Whole streams (95_test_vectors.md) -/

/-- Vector V1: the document's end-to-end example. -/
theorem test_V1 : encodeText [0x48] = [0x1B, 0x5B, 0x34, 0x34, 0x6D, 0x20, 0x1B, 0x5B, 0x31, 0x30, 0x30, 0x6D, 0x20] ∧
    decodeText (encodeText [0x48]) = [.byte 0x48, .fin true] := by decide
/-- Vector V14: of two `ESC` in a row the second is lost. -/
theorem test_V14 : parse [0x1B, 0x1B, 0x5B, 0x6D] = [.err .invalidNumberPrefix 0x1B, .err .invalidStartByte 0x5B,
    .err .invalidStartByte 0x6D, .fin true] := by decide
/-- R157: the parser with `P_FILL_EOI = accept` gives the item and then the end. -/
theorem test_fillEoi_accept : parseWith { Params.default with fillEoi := .accept } [0x1B, 0x5B, 0x34, 0x34, 0x6D] =
    [.code 44, .fin true] := by decide
/-- The opcode table's number of `W.C44` and the same bytes counted from bit 0. -/
theorem test_tableWord : decodeTableWord 48 0x1B5B34346D00 = some (.wC44 0) ∧
    decodeTableWord 48 0x006D34345B1B = some (.wC44 0) := by decide
/-- The word placed for the fetch is what the first step after reset runs. -/
theorem test_fetchWord : (after (step (State.reset.withFetchWord 40 0x1B5B306D00))).map State.pQ =
    some [.fin false] := by decide

/-! ## Witnesses: states and operands that meet the hypotheses of the statements -/

theorem witness_ToNibAndTryFromOnTheTwoRanges :
    CodeNumber (40 : Byte).toNat ∧ CodeNumber (47 : Byte).toNat ∧ CodeNumber (100 : Byte).toNat ∧
    CodeNumber (107 : Byte).toNat ∧ ¬ CodeNumber (39 : Byte).toNat ∧ ¬ CodeNumber (48 : Byte).toNat ∧
    ¬ CodeNumber (99 : Byte).toNat ∧ ¬ CodeNumber (108 : Byte).toNat := by decide
theorem witness_RenderAndSerializerWriteTheCanonicalBlock :
    (0 : Nat) < 8 ∧ (7 : Nat) < 8 := by decide
theorem witness_PairOperationsSplitJoinAndKeepTheOrder :
    CodeNumber (40 : Byte).toNat ∧ CodeNumber (107 : Byte).toNat := by decide
theorem witness_ValuesOutsideTheirTypeStop :
    ¬ CodeNumber (48 : Byte).toNat ∧ ¬ (CodeNumber (40 : Byte).toNat ∧ CodeNumber (108 : Byte).toNat) ∧
    (DecoderReads (dec true 0 (.code 44)) true (.code 44) [] ∧
      ¬ (CodeNumber (dec true 0 (.code 44)).hiCode.toNat ∧ CodeNumber (44 : Byte).toNat)) ∧
    ((enc 0 .high 6 true).rst = false ∧ (enc 0 .high 6 true).eBusy = true ∧ (enc 0 .high 6 true).txoReady = true ∧
      blkLen (enc 0 .high 6 true).eCode ≤ (enc 0 .high 6 true).ePos.toNat) ∧ (Instr.codeToNib 48).wf = false := by decide
theorem witness_MapperAndPairAreBijections :
    CodeNumber (47 : Byte).toNat ∧ CodeNumber (100 : Byte).toNat := by decide
/-- An idle encoder that is offered one item. -/
def offered (x : InItem) : State := { State.reset with rawIn := [x] }
/-- An encoder that owes `EOI`. -/
def owesEoi (ready : Bool) : State := { State.reset with eEoi := true, txoReady := ready }
theorem witness_EncoderTakesItemsAndEndsTheText :
    ((offered (.byte 0)).rst = false ∧ (offered (.byte 0)).eBusy = false ∧ (offered (.byte 0)).eEoi = false ∧
      (offered (.byte 0)).rawIn = [.byte 0]) ∧
    ((offered .eoi).rst = false ∧ (offered .eoi).eBusy = false ∧ (offered .eoi).eEoi = false ∧
      (offered .eoi).rawIn = [.eoi]) ∧
    (owesEoi true).rst = false ∧ (owesEoi true).eEoi = true ∧ (owesEoi true).txoReady = true := by decide
/-- What `EncEmitWritesTheNextByte` asks of a state, a Code and a byte. -/
abbrev EmitsByte (s : State) (c t : Byte) : Prop :=
  s.rst = false ∧ s.eBusy = true ∧ s.txoReady = true ∧
    c = (if s.eHalf = .high then fromHi s.eByte else fromLo s.eByte) ∧ (render c)[s.ePos.toNat]? = some t
theorem witness_EncEmitWritesTheNextByte :
    EmitsByte (enc 0x48 .high 0 true) 44 0x1B ∧ EmitsByte (enc 0x48 .high 5 true) 44 0x20 ∧
    EmitsByte (enc 0x48 .low 6 true) 100 0x20 := by decide
theorem witness_EncoderIsDeterministic :
    ((offered .eoi).rst = false ∧ ¬ ((offered .eoi).eBusy = true ∧ (offered .eoi).eEoi = true) ∧
      (offered .eoi).rawIn ≠ [] ∧ (after (exec .encEoi (offered .eoi))).isSome = true) ∧
    ((enc 0 .high 0 false).rst = false ∧ (enc 0 .high 0 false).eEoi = false ∧ (enc 0 .high 0 false).eBusy = true ∧
      (enc 0 .high 0 false).txoReady = false) ∧
    (owesEoi false).rst = false ∧ (owesEoi false).eBusy = false ∧ (owesEoi false).eEoi = true ∧
    (owesEoi false).txoReady = false := by decide
theorem witness_ParserAtHeader :
    ParserReads (par .hdr 0 0 [.byte 0x1B]) .hdr (.byte 0x1B) [] ∧ (0x1C : Byte) ≠ 0x1B ∧
    ParserReads (par .hdr 0 0 [.byte 0x1C]) .hdr (.byte 0x1C) [] ∧ ParserReads (par .hdr 0 0 [.eoi]) .hdr .eoi [] := by decide
theorem witness_ParserAtSecondByte :
    (0x5A : Byte) ≠ 0x5B ∧ ParserReads (par .pfx 0 0 [.byte 0x5A]) .pfx (.byte 0x5A) [] ∧
    ParserReads (par .pfx 0 0 [.byte 0x5B]) .pfx (.byte 0x5B) [] ∧ ParserReads (par .pfx 0 0 [.eoi]) .pfx .eoi [] := by decide
theorem witness_ParserTakesThreeDigits :
    (0x30 : Byte) ≤ 0x30 ∧ (0x39 : Byte) ≤ 0x39 ∧ (0x30 : Byte) ≤ 0x39 ∧
    (ParserReads (par .dig 2 99 [.byte 0x39]) .dig (.byte 0x39) [] ∧ (par .dig 2 99 [.byte 0x39]).ndig < 3 ∧
      (par .dig 2 99 [.byte 0x39]).acc.toNat < 100) ∧
    ParserReads (par .dig 3 999 [.byte 0x30]) .dig (.byte 0x30) [] ∧ (par .dig 3 999 [.byte 0x30]).ndig = 3 := by decide
theorem witness_ParserAtTerminator :
    (ParserReads (par .dig 0 0 [.byte 0x6D]) .dig (.byte 0x6D) [] ∧ (par .dig 0 0 [.byte 0x6D]).ndig = 0) ∧
    (ParserReads (par .dig 3 256 [.byte 0x6D]) .dig (.byte 0x6D) [] ∧ 1 ≤ (par .dig 3 256 [.byte 0x6D]).ndig ∧
      255 < (par .dig 3 256 [.byte 0x6D]).acc.toNat) ∧
    ParserReads (par .dig 3 255 [.byte 0x6D]) .dig (.byte 0x6D) [] ∧ 1 ≤ (par .dig 3 255 [.byte 0x6D]).ndig ∧
    (par .dig 3 255 [.byte 0x6D]).acc.toNat ≤ 255 := by decide
theorem witness_ParserLeavesTheDigitField :
    ¬ ((0x30 : Byte) ≤ 0x3A ∧ (0x3A : Byte) ≤ 0x39) ∧ ¬ ((0x30 : Byte) ≤ 0x2F ∧ (0x2F : Byte) ≤ 0x39) ∧
    (0x3A : Byte) ≠ 0x6D ∧ (0x2F : Byte) ≠ 0x6D ∧ ParserReads (par .dig 0 0 [.byte 0x3A]) .dig (.byte 0x3A) [] ∧
    ParserReads (par .dig 3 999 [.byte 0x2F]) .dig (.byte 0x2F) [] ∧ ParserReads (par .dig 3 999 [.eoi]) .dig .eoi [] := by decide
theorem witness_ParserAtFillByte :
    (ParserReads (par .fill 1 0 [.byte 0]) .fill (.byte 0) [] ∧ (par .fill 1 0 [.byte 0]).acc = 0) ∧
    (ParserReads (par .fill 3 107 [.byte 0]) .fill (.byte 0) [] ∧ CodeNumber (par .fill 3 107 [.byte 0]).acc.toNat) ∧
    (ParserReads (par .fill 3 255 [.byte 0]) .fill (.byte 0) [] ∧ 1 ≤ (par .fill 3 255 [.byte 0]).acc.toNat ∧
      (par .fill 3 255 [.byte 0]).acc.toNat ≤ 255 ∧ ¬ CodeNumber (par .fill 3 255 [.byte 0]).acc.toNat) ∧
    ParserReads (par .fill 2 44 [.eoi]) .fill .eoi [] := by decide
theorem witness_ParserIsTotalAndDeterministic :
    ((par .dig 3 999 [.byte 0x6D]).rst = false ∧ (par .dig 3 999 [.byte 0x6D]).pQ = [] ∧
      (par .dig 3 999 [.byte 0x6D]).textIn = [.byte 0x6D]) ∧ (dec false 0 (.fin true)).pQ ≠ [] ∧
    (par .hdr 0 0 []).textIn = [] := by decide
theorem witness_UnitOfWorkIsShort :
    unitOfWork parStart 0 [.eoi] = some ([.fin true], 1, []) ∧
    unitOfWork parStart 0 (([0x1B, 0x5B, 0x31, 0x30, 0x30, 0x6D, 0x20]).map .byte) = some ([.code 100], 7, []) ∧
    7 ≤ (([0x1B, 0x5B, 0x31, 0x30, 0x30, 0x6D, 0x20] : List Byte).map InItem.byte).length := by decide
/-- What `BlockMeansItsNumber` asks of a digit string. -/
abbrev DigitString (ds : List Byte) : Prop := (∀ d ∈ ds, 0x30 ≤ d ∧ d ≤ 0x39) ∧ 1 ≤ ds.length ∧ ds.length ≤ 3
theorem witness_BlockMeansItsNumber :
    (DigitString [0x30] ∧ decimalValue [0x30] = 0) ∧
    (DigitString [0x30, 0x34, 0x30] ∧ CodeNumber (decimalValue [0x30, 0x34, 0x30])) ∧
    (DigitString [0x32, 0x35, 0x35] ∧ decimalValue [0x32, 0x35, 0x35] ≤ 255 ∧ 1 ≤ decimalValue [0x32, 0x35, 0x35] ∧
      ¬ CodeNumber (decimalValue [0x32, 0x35, 0x35])) ∧
    DigitString [0x32, 0x35, 0x36] ∧ 255 < decimalValue [0x32, 0x35, 0x36] := by decide
theorem witness_DeliverIsOneJointStep :
    (dec true 40 (.code 107)).rst = false ∧ (dec true 40 (.code 107)).dQ = [] ∧
    (dec true 40 (.code 107)).pQ = [.code 107] ∧ CodeNumber (dec true 40 (.code 107)).hiCode.toNat ∧
    CodeNumber (107 : Byte).toNat := by decide
theorem witness_DecoderWithoutAHighCode :
    DecoderReads (dec false 0 (.code 40)) false (.code 40) [] ∧
    DecoderReads (dec false 0 (.err .valueOutOfBounds 0)) false (.err .valueOutOfBounds 0) [] ∧
    DecoderReads (dec false 0 (.fin false)) false (.fin false) [] := by decide
theorem witness_DecoderJoinsThePair :
    DecoderReads (dec true 107 (.code 40)) true (.code 40) [] ∧ CodeNumber (dec true 107 (.code 40)).hiCode.toNat ∧
    CodeNumber (40 : Byte).toNat := by decide
theorem witness_DecoderDropsTheHighCode :
    DecoderReads (dec true 40 (.err .valueOutOfBounds 0)) true (.err .valueOutOfBounds 0) [] ∧
    DecoderReads (dec true 40 (.fin false)) true (.fin false) [] ∧ DecoderReads (dec true 40 (.fin true)) true (.fin true) [] := by decide
/-- A decoder with one item to deliver. -/
def ready : State := { State.reset with dQ := [.fin true], decReady := true }
theorem witness_DecoderDeliversItsHead :
    ready.rst = false ∧ ready.decReady = true ∧ ready.dQ = [.fin true] := by decide
theorem witness_DecoderIsTotalAndDeterministic :
    ((dec true 40 (.fin true)).rst = false ∧ (dec true 40 (.fin true)).dQ = [] ∧
      (dec true 40 (.fin true)).pQ = [.fin true]) ∧ ready.dQ ≠ [] ∧ State.reset.pQ = [] ∧ State.reset.dQ = [] := by decide
theorem witness_DecoderPassesErrorsAndPairsCodes :
    ∀ x ∈ [PItem.code 40, .err .tooManyCodeDigits 4, .fin true], pitemOk x = true := by decide
/-- The state of `CanonicalWordsGiveTheirCode` for the word `W.C107` with a fill of `0x1B`. -/
def atWord : State := par .hdr 0 0 ((blockBytes [0x31, 0x30, 0x37] 0x1B).map .byte ++ [.eoi])
theorem witness_CanonicalWordsGiveTheirCode :
    atWord.rst = false ∧ atWord.pQ = [] ∧ atWord.pstate = .hdr ∧
    atWord.textIn = (blockBytes [0x31, 0x30, 0x37] 0x1B).map .byte ++ [.eoi] := by decide
theorem witness_OtherSpellingsGiveTheirItem :
    (par .hdr 3 999 ((blockBytes [0x30] 0).map .byte)).rst = false ∧
    (par .hdr 3 999 ((blockBytes [0x30] 0).map .byte)).pQ = [] ∧
    (par .hdr 3 999 ((blockBytes [0x30] 0).map .byte)).pstate = .hdr ∧
    (par .hdr 3 999 ((blockBytes [0x30] 0).map .byte)).textIn = (blockBytes [0x30] 0).map .byte ++ [] := by decide
theorem witness_WordsAreRecognisedOnlyAtHeader :
    encode (.wEnd0 0x20) = some [0x1B, 0x5B, 0x30, 0x6D, 0x20] ∧ (par .pfx 0 0 []).pstate ≠ .hdr ∧
    (dec false 0 (.fin true)).pQ ≠ [] ∧ ∀ rest, State.reset.textIn ≠ Config.resetWord.map .byte ++ rest := 
  ⟨rfl, by decide, by decide, fun rest h => by simp [State.reset] at h⟩
theorem witness_DecodeOfEncodeIsTheWord :
    encode (.wC107 0xFF) = some [0x1B, 0x5B, 0x31, 0x30, 0x37, 0x6D, 0xFF] := by decide
theorem witness_EncodeOfDecodeIsTheBytes :
    decode [0x1B, 0x5B, 0x30, 0x30, 0x30, 0x6D, 0x20, 0x41] = .ok (.wEnd000 0x20, [0x41]) := by rfl
theorem witness_MaskAndMatchAreTheDecoder :
    maskRows.length = 27 ∧
    ∃ r ∈ maskRows, r.fits [0x1B, 0x5B, 0x30, 0x6D, 0xFF] = true := by
  exact ⟨rfl, { lengthBytes := 5, pattern := 0x1B5B306D00, mask := 0xFFFFFFFF00, instr := .wEnd0 },
    by simp [maskRows, maskRowsSentinel], by decide⟩
theorem witness_WordsAreWhatTheParserAccepts :
    decode [0x1B, 0x5B, 0x30, 0x6D, 0x20] = .ok (.wEnd0 0x20, []) ∧
    unitOfWork parStart 0 (([0x1B, 0x5B, 0x30, 0x6D, 0x20]).map .byte) = some ([.fin false], 5, []) := ⟨rfl, by decide⟩
theorem witness_RejectionNamesTheParsersError :
    decode [] = .error .truncated ∧ decode [0x41] = .error (.notEscape 0x41) ∧
    decode [0x1B, 0x41] = .error (.notBracket 0x41) ∧ decode [0x1B, 0x5B, 0x6D] = .error .noDigits ∧
    decode [0x1B, 0x5B, 0x3B] = .error (.unexpected 0x3B) := ⟨rfl, rfl, rfl, rfl, rfl⟩
theorem witness_StepRunsTheDecodedWord :
    atWord.rst = false ∧ atWord.pQ = [] ∧ atWord.pstate = .hdr ∧ atWord.sched = [] ∧
    decode (leadingBytes atWord.textIn) = .ok (.wC107 0x1B, []) ∧
    ({ atWord with sched := [.word] } : State).sched = .word :: [] := ⟨rfl, rfl, rfl, rfl, rfl, rfl⟩
/-- A state in which the parser's turn is next. -/
def parTurn (xs : List InItem) : State := { State.reset with textIn := xs, sched := [.agent .par] }
theorem witness_StepRunsTheSelectedTransition :
    (parTurn [.byte 0x1B]).rst = false ∧ (parTurn [.byte 0x1B]).sched = .agent .par :: [] ∧
    agentSelect .par { parTurn [.byte 0x1B] with sched := [] } = some .pHdrEsc ∧
    agentSelect .par { parTurn [] with sched := [] } = none := by decide
theorem witness_FetchedTableWordRunsNext :
    decodeTableWord 56 0x1B5B3130376DFF = some (.wC107 0xFF) := by decide
/-- A state at a clock edge at which all three agents have something to do. -/
def busy : State :=
  { enc 0x48 .high 0 true with pQ := [.code 44], textIn := [.eoi], sched := [.clock] }
theorem witness_ClockEdgeMovesWhatIsValidAndReady :
    Inv busy ∧ busy.rst = false ∧ busy.sched = .clock :: [] := by decide
theorem witness_OutputsFollowTheRegistersAndReset :
    (busy.rst = false ∧ encInv busy ∧ busy.eBusy = true ∧ (outPins busy).ecodeValid = true ∧ busy.pQ = [.code 44] ∧
      busy.dQ = []) ∧ ((owesEoi false).rst = false ∧ encInv (owesEoi false) ∧ (owesEoi false).eEoi = true) ∧
    ready.dQ = [.fin true] ∧ ({ busy with rst := true } : State).rst = true ∧
    (State.reset.rst = false ∧ State.reset.pQ = [] ∧ State.reset.dQ = [] ∧ State.reset.eBusy = false ∧
      State.reset.eEoi = false ∧ (outPins State.reset).ecodeValid = false ∧ (outPins State.reset).pitValid = false) := by decide
theorem witness_OfferedOutputsStayUntilTheTransfer :
    (busy.rst = false ∧ txoOffer busy = some (.byte 0x1B) ∧ (after (step busy)).map State.rst = some false) ∧
    ((enc 0 .high 0 false).rst = false ∧ txoOffer (enc 0 .high 0 false) = some (.byte 0x1B) ∧
      (after (step (enc 0 .high 0 false))).map State.rst = some false) ∧
    ready.rst = false ∧ ready.dQ = .fin true :: [] ∧ (after (step ready)).map State.rst = some false := by decide
theorem witness_ReservedPortCodesAreNeverDriven :
    Inv busy ∧ (outPins { busy with dQ := [.err .missingSecondColorCodeBlock 0] }).decItem =
      some { kind := 1, data := 0, err := 9, eoi := 0 } ∧ (outPins busy).pitValid = true ∧ (outPins busy).pitItem.kind = 0 := by decide
theorem witness_ResetEdgeDiscardsEverything :
    ({ busy with rst := true } : State).rst = true ∧ EdgeNext { busy with rst := true } := 
  ⟨rfl, .inr ⟨.clock, [], rfl, .inr (.inl rfl)⟩⟩
/-- A state with an item offered and one host turn to come. -/
def host (t : Turn) (r : Bool) : State := { State.reset with rst := r, rawIn := [.eoi], sched := [t] }
theorem witness_HostTurnsKeepTheHandshake :
    (host (.send [.eoi] []) false).sched = .send [.eoi] [] :: [] ∧ (host (.ready true false) false).sched = .ready true false :: [] ∧
    (host (.reset true) false).sched = .reset true :: [] ∧
    ((host (.reset false) true).sched = .reset false :: [] ∧ (host (.reset false) true).rstPhase ≠ .owed) ∧
    (({ host (.reset false) true with rstPhase := .owed } : State).sched = .reset false :: [] ∧
      ({ host (.reset false) true with rstPhase := .owed } : State).rst = true) ∧
    (({ State.reset with sched := [.withdraw] } : State).rawIn = [] ∧ State.reset.textIn = []) ∧
    ((host .withdraw true).sched = .withdraw :: [] ∧ (host .withdraw true).rawIn ≠ [] ∧
      (host .withdraw true).rst = true) ∧
    (host .withdraw false).sched = .withdraw :: [] ∧ (host .withdraw false).rst = false ∧ (host .withdraw false).rawIn ≠ [] := by decide
theorem witness_OfferedInputsStayBetweenEdges :
    (offered .eoi).rst = false ∧ (offered .eoi).rstPhase = .quiet ∧
    ([Turn.reset true, .send [] [.eoi], .reset false].all Turn.byHost) = true ∧
    ((after (core.run 3 { offered .eoi with sched := [.reset true, .send [] [.eoi], .reset false] })).map
      fun t => (t.rst, t.rawIn)) = some (false, [.eoi]) := by decide
theorem witness_EveryStepKeepsTheInvariants :
    Inv busy ∧ (after (step busy)).isSome = true := by decide
theorem witness_NothingTheHostSendsStopsTheBlock :
    Inv busy ∧ Inv (host .withdraw false) ∧
    Inv { host (.reset false) true with rstPhase := .owed } ∧
    refusal (step (host .withdraw false)) = some .hostBreaksHandshake ∧
    refusal (step { host (.reset false) true with rstPhase := .owed }) = some .hostBreaksHandshake := 
  ⟨by decide, by decide, by decide, by decide, by decide⟩

/-! ## R300 (a): an item withdrawn between two edges with `rst = 0` -/

theorem test_withdraw_without_edge : refusal (core.run 3
    { offered .eoi with sched := [.reset true, .withdraw, .reset false] }) = some .hostBreaksHandshake := by decide
theorem test_withdraw_with_edge : (after (core.run 4
    { offered .eoi with sched := [.reset true, .withdraw, .clock, .reset false] })).map (fun t => (t.rst, t.rawIn)) =
    some (false, []) := by rfl

theorem witness_DecodePathIsConserved :
    busy.rst = false ∧ QuietNext busy ∧ (after (step busy)).isSome = true := 
  ⟨rfl, fun u h => by cases h; rfl, by decide⟩
theorem witness_EncodePathIsConserved :
    busy.rst = false ∧ QuietNext busy ∧ (after (step busy)).map State.textOut = some [.byte 0x1B] := 
  ⟨rfl, fun u h => by cases h; rfl, by decide⟩
theorem witness_StreamsDoNotDependOnTheSchedule :
    busy.rst = false ∧ ([Turn.clock].all Turn.quiet) = true ∧ ([Turn.agent .dec].all Turn.quiet) = true ∧
    ∃ a b, core.run 1 { busy with sched := [.clock], txoReady := true, decReady := true } = .next a ∧
      core.run 2 { busy with sched := [.agent .dec], txoReady := false, decReady := true } = .next b := 
  ⟨rfl, rfl, rfl, _, _, rfl, rfl⟩
theorem witness_DeadRegistersAreNeverRead :
    ({ State.reset with ndig := 3, acc := 999, hiCode := 7, ePos := 7 } : State).live = State.reset.live ∧
    ({ State.reset with ndig := 3, acc := 999, hiCode := 7, ePos := 7 } : State) ≠ State.reset := by decide

end Sys2Proof.Machine
end

