-- ==== Sys2Proof/Proofs/Progress.lean ====
section
/-! PROOFS. Which transitions complete: what an agent, the fetch of a wire word or a rising edge selects has a next
state, and what each move leaves alone for the moves after it. -/

namespace Sys2Proof.Machine

/-! ## Taking an item that is offered -/

theorem rawReady_iff {s : State} : s.rawReady = true ↔ s.rst = false ∧ s.eBusy = false ∧ s.eEoi = false := by
  simp [State.rawReady, and_assoc]

theorem txiReady_iff {s : State} : s.txiReady = true ↔ s.rst = false ∧ s.pQ = [] := by
  simp [State.txiReady]

theorem pitemReady_iff {s : State} : s.pitemReady = true ↔ s.rst = false ∧ s.dQ = [] := by
  simp [State.pitemReady]

theorem takeRaw_of_cons {s : State} {x : InItem} {xs : List InItem} (hr : s.rawReady = true)
    (h : s.rawIn = x :: xs) : takeRaw s = some (x, { s with rawIn := xs }) :=
  takeRaw_eq_some.mpr ⟨hr, xs, h, rfl⟩

theorem takeText_of_cons {s : State} {x : InItem} {xs : List InItem} (hr : s.txiReady = true)
    (h : s.textIn = x :: xs) : takeText s = some (x, { s with textIn := xs }) :=
  takeText_eq_some.mpr ⟨hr, xs, h, rfl⟩

theorem takePItem_of_cons {s : State} {x : PItem} {xs : List PItem} (hr : s.pitemReady = true)
    (h : s.pQ = x :: xs) : takePItem s = some (x, { s with pQ := xs, pitem := s.pitem ++ [x] }) :=
  takePItem_eq_some.mpr ⟨hr, xs, h, rfl⟩

theorem onTextByte_of_cons {s : State} {b : Byte} {xs : List InItem} {g : Byte → Bool}
    {f : Byte → State → State} (hr : s.txiReady = true) (h : s.textIn = .byte b :: xs) (hg : g b = true) :
    onTextByte s g f = .next (f b { s with textIn := xs }) :=
  onTextByte_eq_next.mpr ⟨b, _, takeText_of_cons hr h, hg, rfl⟩

theorem onTextEoi_of_cons {s : State} {xs : List InItem} {g : Bool} {f : State → State}
    (hr : s.txiReady = true) (h : s.textIn = .eoi :: xs) (hg : g = true) :
    onTextEoi s g f = .next (f { s with textIn := xs }) :=
  onTextEoi_eq_next.mpr ⟨_, takeText_of_cons hr h, hg, rfl⟩

/-! ## What a move leaves alone -/

/-- `rst` and what `D.DELIVER` looks at are the same in both states. -/
structure DecOutSideKept (s t : State) : Prop where
  rst : t.rst = s.rst
  decReady : t.decReady = s.decReady
  dQ : t.dQ = s.dQ

/-- Everything `PAR` and `DEC` look at is the same in both states (R20: the encoder shares no register with them). -/
structure DecodeSideKept (s t : State) : Prop extends DecOutSideKept s t where
  textIn : t.textIn = s.textIn
  pstate : t.pstate = s.pstate
  ndig : t.ndig = s.ndig
  acc : t.acc = s.acc
  pQ : t.pQ = s.pQ
  hiValid : t.hiValid = s.hiValid
  hiCode : t.hiCode = s.hiCode

theorem DecodeSideKept.refl (s : State) : DecodeSideKept s s :=
  ⟨⟨rfl, rfl, rfl⟩, rfl, rfl, rfl, rfl, rfl, rfl, rfl⟩

theorem DecOutSideKept.decOutSelect {s t : State} (h : DecOutSideKept s t) : decOutSelect t = decOutSelect s := by
  simp only [Machine.decOutSelect, h.dQ, h.decReady]

theorem DecodeSideKept.parSelect {s t : State} (h : DecodeSideKept s t) : parSelect t = parSelect s := by
  simp only [Machine.parSelect, parSelectByte, parSelectEoi, h.pQ, h.textIn, h.dQ, h.pstate, h.ndig, h.acc]

/-! ## The encoder -/

theorem length_render_fromNib : ∀ v : Nibble, (render (fromNib v)).length = blkLen (fromNib v) := by decide

theorem length_render_eCode (s : State) : (render s.eCode).length = blkLen s.eCode := by
  unfold State.eCode
  cases s.eHalf <;> exact length_render_fromNib _

/-- Within the block `ser_byte` is defined (R124). -/
theorem serByte_eCode {s : State} {i : Nat} (h : i < blkLen s.eCode) : ∃ t, serByte s.eCode i = some t :=
  ⟨_, List.getElem?_eq_getElem (length_render_eCode s ▸ h)⟩

theorem execEncByte_of_cons {s : State} {b : Byte} {xs : List InItem} (hr : s.rawReady = true)
    (h : s.rawIn = .byte b :: xs) :
    execEncByte s = .next { s with rawIn := xs, eByte := b, eHalf := .high, ePos := 0, eBusy := true } := by
  simp only [execEncByte, takeRaw_of_cons hr h]

theorem execEncEoi_of_cons {s : State} {xs : List InItem} (hr : s.rawReady = true) (h : s.rawIn = .eoi :: xs) :
    execEncEoi s = .next { s with rawIn := xs, eEoi := true } := by
  simp only [execEncEoi, takeRaw_of_cons hr h]

theorem execEncEmit_completes {s : State} (hrst : s.rst = false) (hb : s.eBusy = true)
    (hpos : s.ePos.toNat < blkLen s.eCode) : ∃ t, execEncEmit s = .next t ∧ DecodeSideKept s t := by
  obtain ⟨c, hc⟩ := serByte_eCode hpos
  cases hready : s.txoReady with
  | false => exact ⟨s, by simp [execEncEmit, hrst, hb, hready], .refl s⟩
  | true =>
    refine ⟨(s.putText c).advance, by simp [execEncEmit, hrst, hb, hready, hc], ?_⟩
    refine ⟨⟨?_, ?_, ?_⟩, ?_, ?_, ?_, ?_, ?_, ?_, ?_⟩ <;> simp

theorem execEncEmitEoi_completes {s : State} (hrst : s.rst = false) (he : s.eEoi = true) :
    ∃ t, execEncEmitEoi s = .next t ∧ DecodeSideKept s t := by
  cases hready : s.txoReady with
  | false => exact ⟨s, by simp [execEncEmitEoi, hrst, he, hready], .refl s⟩
  | true =>
    exact ⟨{ s with textOut := s.textOut ++ [.eoi], eEoi := false },
      by simp [execEncEmitEoi, hrst, he, hready], { DecodeSideKept.refl s with }⟩

/-- What the encoder selects completes, and neither `PAR` nor `DEC` sees it. -/
theorem exec_encSelect {s : State} {i : Instr} (hrst : s.rst = false) (hinv : encInv s)
    (hi : encSelect s = some i) : ∃ t, exec i s = .next t ∧ DecodeSideKept s t := by
  unfold encSelect at hi
  split at hi <;> cases hi
  · rename_i hb he hraw
    exact ⟨_, execEncByte_of_cons (rawReady_iff.mpr ⟨hrst, hb, he⟩) hraw, { DecodeSideKept.refl s with }⟩
  · rename_i hb he hraw
    exact ⟨_, execEncEoi_of_cons (rawReady_iff.mpr ⟨hrst, hb, he⟩) hraw, { DecodeSideKept.refl s with }⟩
  · rename_i hb he
    exact execEncEmit_completes hrst hb (hinv.1 hb)
  · rename_i hb he
    exact execEncEmitEoi_completes hrst he

/-! ## The pair decoder -/

/-- A held number, and every number waiting in `p_q`, is a Code: the part of R33 (c) that joining a pair needs. -/
structure HoldsCodes (s : State) : Prop where
  held : s.hiValid = true → isCode s.hiCode = true
  queued : ∀ x ∈ s.pQ, pitemOk x = true

theorem HoldsCodes.of_decInv {s : State} (h : decInv s) : HoldsCodes s :=
  let ⟨held, _, _, queued, _⟩ := h
  ⟨held, queued⟩

theorem HoldsCodes.of_kept {s t : State} (h : HoldsCodes s) (hk : DecodeSideKept s t) : HoldsCodes t :=
  ⟨by rw [hk.hiValid, hk.hiCode]; exact h.held, by rw [hk.pQ]; exact h.queued⟩

/-- The pair decoder accepts every item whose number is a Code, beside a held Code (R220): no `notACode`. -/
theorem decAccept_completes {s : State} {x : PItem} (hheld : s.hiValid = true → isCode s.hiCode = true)
    (hx : pitemOk x = true) : ∃ t, decAccept x s = .next t := by
  cases hv : s.hiValid with
  | false => cases x <;> exact ⟨_, by simp only [decAccept, hv]; rfl⟩
  | true =>
    cases x with
    | code c => exact ⟨_, by simp only [decAccept, hv]; exact joinHeld_eq_next.mpr ⟨hheld hv, hx, rfl⟩⟩
    | err k info => exact ⟨_, by simp only [decAccept, hv]; rfl⟩
    | fin z => cases z <;> exact ⟨_, by simp only [decAccept, hv]; rfl⟩

theorem exec_pDeliver {s : State} {x : PItem} {xs : List PItem} (hrst : s.rst = false) (hc : HoldsCodes s)
    (hd : s.dQ = []) (hp : s.pQ = x :: xs) : ∃ t, exec .pDeliver s = .next t := by
  have htake := takePItem_of_cons (pitemReady_iff.mpr ⟨hrst, hd⟩) hp
  obtain ⟨t, ht⟩ := decAccept_completes (s := { s with pQ := xs, pitem := s.pitem ++ [x] }) hc.held
    (hc.queued x (hp ▸ List.mem_cons_self))
  exact ⟨t, by simp only [exec, execPDeliver, htake, ht]⟩

/-- The decoder transition that rule R220 selects for the item taken is the joint step `P.DELIVER` (log 7). -/
theorem exec_decSelectItem {s s' : State} {x : PItem} (htake : takePItem s = some (x, s')) :
    exec (decSelectItem s x) s = exec .pDeliver s := by
  have hv' : s'.hiValid = s.hiValid := by
    obtain ⟨-, _, -, rfl⟩ := takePItem_eq_some.mp htake
    rfl
  cases hv : s.hiValid with
  | false =>
    cases x <;> simp [decSelectItem, exec, hv, hv', htake, decAccept, execPDeliver, execDEmptyCode, execDEmptyErr,
      execDEmptyEnd]
  | true =>
    cases x with
    | code c => simp [decSelectItem, exec, hv, hv', htake, decAccept, execPDeliver, execDHeldCode]
    | err k info => simp [decSelectItem, exec, hv, hv', htake, decAccept, execPDeliver, execDHeldErr]
    | fin z =>
      cases z <;> simp [decSelectItem, exec, hv, hv', htake, decAccept, execPDeliver, execDHeldEnd0, execDHeldEnd1]

/-- `D.DELIVER` is selected exactly where an item waits in `d_q` and the host is ready (R228). -/
theorem decOutSelect_eq_some {s : State} {i : Instr} :
    decOutSelect s = some i ↔ i = .dDeliver ∧ s.dQ ≠ [] ∧ s.decReady = true := by
  simp [decOutSelect, and_comm, eq_comm (a := i)]

theorem exec_decOutSelect {s : State} {i : Instr} (hrst : s.rst = false) (hi : decOutSelect s = some i) :
    ∃ t, exec i s = .next t := by
  obtain ⟨rfl, hne, hready⟩ := decOutSelect_eq_some.mp hi
  obtain ⟨x, xs, hd⟩ := List.exists_cons_of_ne_nil hne
  exact ⟨_, by simp only [exec, execDDeliver, hrst, hready, hd, and_self, if_true]; rfl⟩

/-- What the pair decoder selects completes (R220, R228). -/
theorem exec_decSelect {s : State} {i : Instr} (hrst : s.rst = false) (hc : HoldsCodes s)
    (hi : decSelect s = some i) : ∃ t, exec i s = .next t := by
  unfold decSelect at hi
  split at hi
  · rename_i x xs hd hp
    cases hi
    rw [exec_decSelectItem (takePItem_of_cons (pitemReady_iff.mpr ⟨hrst, hd⟩) hp)]
    exact exec_pDeliver hrst hc hd hp
  · cases hi
  · exact exec_decOutSelect hrst hi

/-! ## The parser -/

/-- On a byte that its guard accepts a parser transition completes, and `DEC`'s output is left alone. -/
theorem onTextByte_completes {s : State} {b : Byte} {xs : List InItem} {g : Byte → Bool}
    {f : Byte → State → State} (hr : s.txiReady = true) (h : s.textIn = .byte b :: xs) (hg : g b = true)
    (hf : DecOutSideKept s (f b { s with textIn := xs })) :
    ∃ t, onTextByte s g f = .next t ∧ DecOutSideKept s t :=
  ⟨_, onTextByte_of_cons hr h hg, hf⟩

theorem onTextEoi_completes {s : State} {xs : List InItem} {g : Bool} {f : State → State}
    (hr : s.txiReady = true) (h : s.textIn = .eoi :: xs) (hg : g = true)
    (hf : DecOutSideKept s (f { s with textIn := xs })) :
    ∃ t, onTextEoi s g f = .next t ∧ DecOutSideKept s t :=
  ⟨_, onTextEoi_of_cons hr h hg, hf⟩

/-- Rule R140 is total on bytes: the transition it selects is enabled. -/
theorem exec_parSelectByte {s : State} {b : Byte} {xs : List InItem} (hr : s.txiReady = true)
    (h : s.textIn = .byte b :: xs) : ∃ t, exec (parSelectByte s b) s = .next t ∧ DecOutSideKept s t := by
  unfold parSelectByte
  cases hp : s.pstate with
  | hdr =>
    dsimp only
    split
    all_goals exact onTextByte_completes hr h (by simp [*]) ⟨rfl, rfl, rfl⟩
  | pfx =>
    dsimp only
    split
    all_goals exact onTextByte_completes hr h (by simp [*]) ⟨rfl, rfl, rfl⟩
  | dig =>
    dsimp only
    split
    · split
      all_goals exact onTextByte_completes hr h (by simp [*]) ⟨rfl, rfl, rfl⟩
    · split
      · split
        · exact onTextByte_completes hr h (by simp [*]) ⟨rfl, rfl, rfl⟩
        · split
          all_goals exact onTextByte_completes hr h (by simp [*]) ⟨rfl, rfl, rfl⟩
      · exact onTextByte_completes hr h (by simp [*]) ⟨rfl, rfl, rfl⟩
  | fill =>
    dsimp only
    split
    · exact onTextByte_completes hr h (by simp [*]) ⟨rfl, rfl, rfl⟩
    · split
      all_goals exact onTextByte_completes hr h (by simp [*]) ⟨rfl, rfl, rfl⟩

/-- Rule R140 is total on `EOI`. -/
theorem exec_parSelectEoi {s : State} {xs : List InItem} (hr : s.txiReady = true) (h : s.textIn = .eoi :: xs) :
    ∃ t, exec (parSelectEoi s) s = .next t ∧ DecOutSideKept s t := by
  unfold parSelectEoi
  cases hp : s.pstate <;> exact onTextEoi_completes hr h (by simp [hp]) ⟨rfl, rfl, rfl⟩

/-- What the parser selects completes; where `d_q` is not empty it reads `TEXT_IN`, and leaves `DEC`'s output alone. -/
theorem exec_parSelect {s : State} {i : Instr} (hrst : s.rst = false) (hc : HoldsCodes s)
    (hi : parSelect s = some i) : ∃ t, exec i s = .next t ∧ (s.dQ ≠ [] → DecOutSideKept s t) := by
  unfold parSelect at hi
  split at hi
  · rename_i hp
    have hr : s.txiReady = true := txiReady_iff.mpr ⟨hrst, hp⟩
    split at hi <;> cases hi
    · obtain ⟨t, ht, hk⟩ := exec_parSelectByte hr ‹_›
      exact ⟨t, ht, fun _ => hk⟩
    · obtain ⟨t, ht, hk⟩ := exec_parSelectEoi hr ‹_›
      exact ⟨t, ht, fun _ => hk⟩
  · rename_i hp
    split at hi <;> cases hi
    rename_i hd
    have hd : s.dQ = [] := List.isEmpty_iff.mp hd
    obtain ⟨t, ht⟩ := exec_pDeliver hrst hc hd hp
    exact ⟨t, ht, fun hne => absurd hd hne⟩

end Sys2Proof.Machine
end

