-- ==== Sys2Proof/Proofs/WordPaths.lean ====
section
/-! PROOFS. The path of a wire word (44_wire_words.md): from `HDR` through the digits to the fill byte, and the fetched
word completes. -/

namespace Sys2Proof.Machine

/-! ## Paths -/

theorem alongPath_of_next {f : State → Out} {fs : List (State → Out)} {s s' : State} (h : f s = .next s') :
    alongPath (f :: fs) s = alongPath fs s' := by
  simp only [alongPath, h]

theorem stripItems_map_append (bs : List Byte) (xs : List InItem) :
    stripItems bs (bs.map .byte ++ xs) = some xs := by
  induction bs with
  | nil => rfl
  | cons b bs ih => simpa [stripItems] using ih

/-! ## The digits of a block -/

/-- A digit's value, at the accumulator's width, is that of the exact arithmetic (R74). -/
theorem digitVal_of_isDigit : ∀ b : Byte, isDigit b = true → digitVal b = BitVec.ofNat 10 (b.toNat - 0x30) := by
  decide

theorem digitsFull_ofNat {n : Nat} (h : n < 3) : digitsFull (BitVec.ofNat 2 n) = false := by
  interval_cases n <;> rfl

theorem noDigits_ofNat {n : Nat} (h1 : 1 ≤ n) (h3 : n ≤ 3) : noDigits (BitVec.ofNat 2 n) = false := by
  interval_cases n <;> rfl

theorem overflows_ofNat {v : Nat} (h : v ≤ 255) : overflows (BitVec.ofNat 10 v) = false := by
  have hmax : Config.numMax.toNat = 255 := rfl
  simp only [overflows, decide_eq_false_iff_not, BitVec.lt_def, BitVec.toNat_ofNat, hmax]
  omega

theorem blockNumber_ofNat (v : Nat) : blockNumber (BitVec.ofNat 10 v) = BitVec.ofNat 8 v :=
  BitVec.setWidth_ofNat_of_le (by decide) v

/-- The parser in `PFX` with `xs` before it. -/
def State.inPfx (s : State) (xs : List InItem) : State := { s with pstate := .pfx, textIn := xs }

/-- The parser in `DIG` with `n` digits of value `v` behind it and `xs` before it. -/
def State.inDigits (s : State) (n v : Nat) (xs : List InItem) : State :=
  { s with pstate := .dig, ndig := BitVec.ofNat 2 n, acc := BitVec.ofNat 10 v, textIn := xs }

theorem execPDigDigit_inDigits {s : State} {n v : Nat} {d : Byte} {xs : List InItem} (hr : s.txiReady = true)
    (hn : n < 3) (hd : isDigit d = true) :
    execPDigDigit (s.inDigits n v (.byte d :: xs)) = .next (s.inDigits (n + 1) (v * 10 + (d.toNat - 0x30)) xs) := by
  have hguard : ((s.inDigits n v (.byte d :: xs)).pstate == .dig && isDigit d &&
      !digitsFull (s.inDigits n v (.byte d :: xs)).ndig) = true := by
    simp [State.inDigits, hd, digitsFull_ofNat hn]
  refine (onTextByte_of_cons (s := s.inDigits n v (.byte d :: xs)) hr rfl hguard).trans ?_
  simp [State.inDigits, digitVal_of_isDigit d hd, BitVec.ofNat_add, BitVec.ofNat_mul]

/-- R147 once per digit: up to three digits are read and their value is exact. -/
theorem alongPath_digits {s : State} {xs : List InItem} {fs : List (State → Out)} (hr : s.txiReady = true)
    (ds : List Byte) : ∀ n v : Nat, n + ds.length ≤ 3 → ds.all isDigit = true →
    alongPath (List.replicate ds.length execPDigDigit ++ fs) (s.inDigits n v (ds.map .byte ++ xs)) =
      alongPath fs (s.inDigits (n + ds.length) (ds.foldl (fun v d => v * 10 + (d.toNat - 0x30)) v) xs) := by
  induction ds with
  | nil => intro n v _ _; rfl
  | cons d ds ih =>
    intro n v hn hds
    obtain ⟨hd, hds⟩ : isDigit d = true ∧ ds.all isDigit = true := by simpa using hds
    rw [List.length_cons] at hn
    have hstep := execPDigDigit_inDigits (v := v) (xs := ds.map .byte ++ xs) hr (by omega : n < 3) hd
    have hrest := ih (n + 1) (v * 10 + (d.toNat - 0x30)) (by omega) hds
    rw [show n + 1 + ds.length = n + (d :: ds).length by simp; omega] at hrest
    exact (alongPath_of_next hstep).trans hrest

/-! ## The whole path -/

/-- The digits of a wire word: one to three, of a value that fits 8 bits (R70, R78). -/
structure WordDigits (ds : List Byte) : Prop where
  digits : ds.all isDigit = true
  nonempty : 1 ≤ ds.length
  atMostThree : ds.length ≤ 3
  fits : decimalValue ds ≤ 255

/-- The parser at the fill byte of a block with the digits `ds`. -/
def State.atFill (s : State) (ds : List Byte) (xs : List InItem) : State :=
  { s.inDigits ds.length (decimalValue ds) xs with pstate := .fill }

/-- R141, R145, R147 once per digit, R151: the path of a word up to its fill byte. -/
theorem alongPath_toFill {s : State} {ds : List Byte} {xs : List InItem} {fs : List (State → Out)}
    (hr : s.txiReady = true) (hp : s.pstate = .hdr) (hds : WordDigits ds)
    (htext : s.textIn = .byte Config.esc :: .byte Config.lbr :: (ds.map .byte ++ .byte Config.codeEnd :: xs)) :
    alongPath (pathToFill ds.length ++ fs) s = alongPath fs (s.atFill ds xs) := by
  have hEsc : execPHdrEsc s =
      .next (s.inPfx (.byte Config.lbr :: (ds.map .byte ++ .byte Config.codeEnd :: xs))) :=
    onTextByte_of_cons hr htext (by simp [hp, isEsc])
  have hLbr : execPPfxLbr (s.inPfx (.byte Config.lbr :: (ds.map .byte ++ .byte Config.codeEnd :: xs))) =
      .next (s.inDigits 0 0 (ds.map .byte ++ .byte Config.codeEnd :: xs)) :=
    onTextByte_of_cons (s := s.inPfx _) hr rfl (by simp [State.inPfx, isLbr])
  have hM : execPDigM (s.inDigits ds.length (decimalValue ds) (.byte Config.codeEnd :: xs)) =
      .next (s.atFill ds xs) :=
    onTextByte_of_cons (s := s.inDigits _ _ _) hr rfl
      (by simp [State.inDigits, isM, noDigits_ofNat hds.nonempty hds.atMostThree, overflows_ofNat hds.fits])
  have hDigits := alongPath_digits (fs := execPDigM :: fs) (xs := .byte Config.codeEnd :: xs) hr ds 0 0
    (by simpa using hds.atMostThree) hds.digits
  rw [Nat.zero_add] at hDigits
  calc alongPath (pathToFill ds.length ++ fs) s
      = alongPath (execPHdrEsc :: execPPfxLbr :: (List.replicate ds.length execPDigDigit ++ execPDigM :: fs)) s := by
        simp [pathToFill]
    _ = alongPath (execPDigM :: fs) (s.inDigits ds.length (decimalValue ds) (.byte Config.codeEnd :: xs)) := by
        rw [alongPath_of_next hEsc, alongPath_of_next hLbr, hDigits]
        rfl
    _ = alongPath fs (s.atFill ds xs) := alongPath_of_next hM

/-- A word whose last transition leaves `x` in `p_q` completes with `x`. -/
theorem wordCompletes_of_path {i : Byte → Instr} {ds : List Byte} {x : PItem} {last : State → Out}
    (hds : WordDigits ds)
    (hi : ∀ f s, exec (i f) s =
      readWord ([Config.esc, Config.lbr] ++ ds ++ [Config.codeEnd, f]) (pathToFill ds.length ++ [last]) s)
    (hlast : ∀ (s : State) (f : Byte) (xs : List InItem), s.txiReady = true →
      last (s.atFill ds (.byte f :: xs)) = .next ((s.atFill ds xs).finish x)) :
    WordCompletes i ds x := by
  intro s f xs hrst hq hp htext
  have hr : s.txiReady = true := txiReady_iff.mpr ⟨hrst, hq⟩
  have hoffered : (stripItems ([Config.esc, Config.lbr] ++ ds ++ [Config.codeEnd, f]) s.textIn).isSome = true := by
    rw [htext]
    exact congrArg Option.isSome (stripItems_map_append (blockBytes ds f) xs)
  rw [hi, readWord, if_pos ⟨hp, hoffered⟩,
    alongPath_toFill (xs := .byte f :: xs) hr hp hds (by simp [htext, blockBytes]),
    alongPath_of_next (hlast s f xs hr)]
  simp [alongPath, State.atFill, State.inDigits, State.finish, State.emitP, State.goto, hq, hp]

/-- R155: a word whose digits spell a Code. -/
theorem wordCompletes_of_readCode {i : Byte → Instr} {ds : List Byte} (hds : WordDigits ds)
    (hcode : isCode (BitVec.ofNat 8 (decimalValue ds)) = true) (hi : ∀ f s, exec (i f) s = readCode ds f s) :
    WordCompletes i ds (.code (BitVec.ofNat 8 (decimalValue ds))) := by
  refine wordCompletes_of_path (last := execPFillCode) hds hi fun s f xs hr => ?_
  rw [← blockNumber_ofNat] at hcode ⊢
  exact onTextByte_of_cons (s := s.atFill ds (.byte f :: xs)) hr rfl
    (by simpa [State.atFill, State.inDigits, numberOk] using hcode)

/-- R154: a word whose digits spell 0. -/
theorem wordCompletes_of_readSentinel {i : Byte → Instr} {ds : List Byte} (hds : WordDigits ds)
    (hzero : decimalValue ds = 0) (hi : ∀ f s, exec (i f) s = readSentinel ds f s) :
    WordCompletes i ds (.fin false) := by
  refine wordCompletes_of_path (last := execPFillZero) hds hi fun s f xs hr => ?_
  exact onTextByte_of_cons (s := s.atFill ds (.byte f :: xs)) hr rfl
    (by simp [State.atFill, State.inDigits, isSentinel, hzero])

/-! ## The 27 rows of the table -/

/-- The digits in the bytes before the fill byte of a row: without `ESC`, `[` and `m`. -/
def leadDigits (lead : List Byte) : List Byte := (lead.drop 2).dropLast

theorem lead_of_mem_wordRows : ∀ r ∈ wordRows,
    r.lead = [Config.esc, Config.lbr] ++ leadDigits r.lead ++ [Config.codeEnd] := by decide

theorem wordDigits_of_mem_wordRows (r : WordRow) (hr : r ∈ wordRows) : WordDigits (leadDigits r.lead) := by
  have hall : ∀ r ∈ wordRows, (leadDigits r.lead).all isDigit = true ∧ 1 ≤ (leadDigits r.lead).length ∧
      (leadDigits r.lead).length ≤ 3 ∧ decimalValue (leadDigits r.lead) ≤ 255 := by decide
  obtain ⟨hdigits, hone, hthree, hfits⟩ := hall r hr
  exact ⟨hdigits, hone, hthree, hfits⟩

/-- The 24 rows that spell a Code: R181 to R204. -/
def codeRows : List WordRow := rowsLow ++ rowsHigh ++ rowsLeadingZero

theorem wordRows_eq : wordRows = codeRows ++ rowsSentinel := rfl

theorem isCode_of_mem_codeRows : ∀ r ∈ codeRows,
    isCode (BitVec.ofNat 8 (decimalValue (leadDigits r.lead))) = true := by decide

theorem decimalValue_of_mem_rowsSentinel : ∀ r ∈ rowsSentinel, decimalValue (leadDigits r.lead) = 0 := by decide

theorem exec_of_mem_codeRows (r : WordRow) (hr : r ∈ codeRows) (f : Byte) (s : State) :
    exec (r.build f) s = readCode (leadDigits r.lead) f s := by
  fin_cases hr <;> rfl

theorem exec_of_mem_rowsSentinel (r : WordRow) (hr : r ∈ rowsSentinel) (f : Byte) (s : State) :
    exec (r.build f) s = readSentinel (leadDigits r.lead) f s := by
  fin_cases hr <;> rfl

/-- Every word of the table completes, with its Code or with the sentinel's item. -/
theorem wordCompletes_of_mem_wordRows {r : WordRow} (hr : r ∈ wordRows) :
    ∃ x, WordCompletes r.build (leadDigits r.lead) x := by
  have hds := wordDigits_of_mem_wordRows r hr
  rw [wordRows_eq, List.mem_append] at hr
  obtain hcode | hzero := hr
  · exact ⟨_, wordCompletes_of_readCode hds (isCode_of_mem_codeRows r hcode) (exec_of_mem_codeRows r hcode)⟩
  · exact ⟨_, wordCompletes_of_readSentinel hds (decimalValue_of_mem_rowsSentinel r hzero)
      (exec_of_mem_rowsSentinel r hzero)⟩

/-! ## The fetch -/

theorem stripLead_eq_some {lead bs rest : List Byte} (h : stripLead lead bs = some rest) : bs = lead ++ rest := by
  induction lead generalizing bs with
  | nil => simpa [stripLead] using h
  | cons x xs ih =>
    cases bs with
    | nil => simp [stripLead] at h
    | cons b bs =>
      unfold stripLead at h
      split at h
      · rename_i hxb
        rw [hxb, ih h, List.cons_append]
      · cases h

/-- A row read at the front of `bs` is its lead and one fill byte (R180). -/
theorem read_eq_some {r : WordRow} {bs rest : List Byte} {i : Instr} (h : r.read bs = some (i, rest)) :
    ∃ f, i = r.build f ∧ bs = r.lead ++ f :: rest := by
  unfold WordRow.read at h
  split at h
  · rename_i f rest' hstrip
    cases h
    exact ⟨f, rfl, stripLead_eq_some hstrip⟩
  · cases h

/-- What the decoder reads is a row of the table with its fill byte. -/
theorem decode_eq_ok {bs rest : List Byte} {i : Instr} (h : decode bs = .ok (i, rest)) :
    ∃ r ∈ wordRows, ∃ f, i = r.build f ∧ bs = r.lead ++ f :: rest := by
  unfold decode at h
  split at h
  · rename_i hfound
    cases h
    obtain ⟨r, hr, hread⟩ := List.exists_of_findSome?_eq_some hfound
    exact ⟨r, hr, read_eq_some hread⟩
  · cases h

/-- The leading bytes of the items offered stand at their front. -/
theorem eq_leadingBytes_append (xs : List InItem) : ∃ ys, xs = (leadingBytes xs).map .byte ++ ys := by
  induction xs with
  | nil => exact ⟨[], rfl⟩
  | cons x xs ih =>
    cases x with
    | byte b =>
      obtain ⟨ys, hys⟩ := ih
      exact ⟨ys, congrArg (InItem.byte b :: ·) hys⟩
    | eoi => exact ⟨.eoi :: xs, rfl⟩

theorem wordSelect_eq_some {s : State} {i : Instr} (h : wordSelect s = some i) :
    s.pstate = .hdr ∧ s.pQ = [] ∧ ∃ rest, decode (leadingBytes s.textIn) = .ok (i, rest) := by
  unfold wordSelect at h
  split at h
  · rename_i hw
    split at h <;> cases h
    exact ⟨hw.1, List.isEmpty_iff.mp hw.2, _, ‹_›⟩
  · cases h

/-- The word that the parser fetches completes (R180). -/
theorem exec_wordSelect {s : State} {i : Instr} (hrst : s.rst = false) (hi : wordSelect s = some i) :
    ∃ t, exec i s = .next t := by
  obtain ⟨hp, hq, rest, hdecode⟩ := wordSelect_eq_some hi
  obtain ⟨r, hr, f, rfl, hbytes⟩ := decode_eq_ok hdecode
  obtain ⟨x, hword⟩ := wordCompletes_of_mem_wordRows hr
  obtain ⟨ys, htext⟩ := eq_leadingBytes_append s.textIn
  refine ⟨_, hword s f (rest.map .byte ++ ys) hrst hq hp ?_⟩
  rw [htext, hbytes, lead_of_mem_wordRows r hr]
  simp [blockBytes, leadDigits]

end Sys2Proof.Machine
end

