-- ==== Sys2Proof/Proofs/Scope.lean ====
section
/-! PROOFS. 93_implementation_defined.md, end of part 1: no turn but the host's breach of R300 (a) stops the block. -/

namespace Sys2Proof.Machine

/-! ## An edge -/

theorem runAll_append_of_next {is js : List Instr} {s t : State} (h : runAll is s = .next t) :
    runAll (is ++ js) s = runAll js t := by
  induction is generalizing s with
  | nil => cases h; rfl
  | cons i is ih =>
    obtain ⟨s', hi, his⟩ := runAll_cons.mp h
    simp only [List.cons_append, runAll, hi, ih his]

theorem edge_completes {pick : State → List Instr} {s : State}
    (h : s.rst = false → ∃ t, runAll (pick s) s = .next t) : ∃ t, edge pick s = .next t := by
  cases hrst : s.rst with
  | false =>
    obtain ⟨t, ht⟩ := h hrst
    exact ⟨t, by simp [edge, hrst, ht]⟩
  | true => exact ⟨s.resetRegs, by simp [edge, hrst]⟩

/-- A selection that completes where it selects may also select nothing (R301). -/
theorem runAll_toList {sel : Option Instr} {s : State} (h : ∀ i, sel = some i → ∃ t, exec i s = .next t) :
    ∃ t, runAll sel.toList s = .next t := by
  cases sel with
  | none => exact ⟨s, rfl⟩
  | some i => simpa using h i rfl

/-- The same for a selection whose move keeps a relation to the state that staying put keeps too. -/
theorem runAll_toList_keeping {sel : Option Instr} {s : State} {K : State → Prop} (hself : K s)
    (h : ∀ i, sel = some i → ∃ t, exec i s = .next t ∧ K t) : ∃ t, runAll sel.toList s = .next t ∧ K t := by
  cases sel with
  | none => exact ⟨s, rfl, hself⟩
  | some i => simpa using h i rfl

/-- An edge at which at most one selected transition moves. -/
theorem edge_toList_completes {sel : State → Option Instr} {s : State}
    (h : s.rst = false → ∀ i, sel s = some i → ∃ t, exec i s = .next t) :
    ∃ t, edge (fun s => (sel s).toList) s = .next t :=
  edge_completes fun hrst => runAll_toList (h hrst)

theorem exec_agentSelect {s : State} {a : Agent} {i : Instr} (hrst : s.rst = false) (hinv : Inv s)
    (hi : agentSelect a s = some i) : ∃ t, exec i s = .next t := by
  obtain ⟨-, henc, hdec, -⟩ := hinv
  cases a with
  | enc =>
    obtain ⟨t, ht, -⟩ := exec_encSelect hrst henc hi
    exact ⟨t, ht⟩
  | par =>
    obtain ⟨t, ht, -⟩ := exec_parSelect hrst (.of_decInv hdec) hi
    exact ⟨t, ht⟩
  | dec => exact exec_decSelect hrst (.of_decInv hdec) hi

theorem exec_autoSelect {s : State} {i : Instr} (hrst : s.rst = false) (hinv : Inv s)
    (hi : autoSelect s = some i) : ∃ t, exec i s = .next t := by
  simp only [autoSelect, Option.or_eq_some_iff] at hi
  obtain (hword | ⟨-, hpar⟩) | ⟨-, hdec | ⟨-, henc⟩⟩ := hi
  · exact exec_wordSelect hrst hword
  · exact exec_agentSelect (a := .par) hrst hinv hpar
  · exact exec_agentSelect (a := .dec) hrst hinv hdec
  · exact exec_agentSelect (a := .enc) hrst hinv henc

/-- At an edge at which every agent moves (R52) each move completes after the ones before it: `ENC` leaves alone what
the others look at, and where `D.DELIVER` moves too the parser has left `DEC`'s output alone. -/
theorem runAll_clockSelect {s : State} (hrst : s.rst = false) (hinv : Inv s) :
    ∃ t, runAll (clockSelect s) s = .next t := by
  obtain ⟨-, henc, hdec, -⟩ := hinv
  obtain ⟨t₁, hrun₁, hkept₁⟩ := runAll_toList_keeping (DecodeSideKept.refl s) fun i => exec_encSelect hrst henc
  have hrst₁ : t₁.rst = false := hkept₁.rst.trans hrst
  obtain ⟨t₂, hrun₂, hkept₂⟩ := runAll_toList_keeping (sel := parSelect t₁) (s := t₁)
    (K := fun t => t₁.dQ ≠ [] → DecOutSideKept t₁ t) (fun _ => ⟨rfl, rfl, rfl⟩)
    fun i => exec_parSelect hrst₁ (HoldsCodes.of_kept (.of_decInv hdec) hkept₁)
  obtain ⟨t₃, hrun₃⟩ := runAll_toList (sel := decOutSelect t₁) (s := t₂) fun i hi => by
    obtain ⟨-, hne, -⟩ := decOutSelect_eq_some.mp hi
    exact exec_decOutSelect ((hkept₂ hne).rst.trans hrst₁) ((hkept₂ hne).decOutSelect.trans hi)
  refine ⟨t₃, ?_⟩
  rw [clockSelect, ← hkept₁.parSelect, ← hkept₁.decOutSelect, List.append_assoc, runAll_append_of_next hrun₁,
    runAll_append_of_next hrun₂, hrun₃]

/-! ## The host's turns -/

/-- `withdraw` stops only where something is offered while `rst = 0` (R300 (a)). -/
theorem withdraw_cases (s : State) :
    (∃ t, withdraw s = .next t) ∨ (withdraw s = .refused .hostBreaksHandshake ∧ s.rst = false) := by
  unfold withdraw
  split
  · exact .inl ⟨_, rfl⟩
  · cases hrst : s.rst with
    | true => exact .inl ⟨_, rfl⟩
    | false => exact .inr ⟨rfl, rfl⟩

/-- Driving `rst` stops only where it is lowered while a rising edge is owed (R300 (a)). -/
theorem driveRst_cases (level : Bool) (s : State) :
    (∃ t, driveRst level s = .next t) ∨
    (driveRst level s = .refused .hostBreaksHandshake ∧ level = false ∧ s.rst = true ∧ s.rstPhase = .owed) := by
  cases level with
  | true => exact .inl ⟨_, rfl⟩
  | false =>
    by_cases howed : s.rst = true ∧ s.rstPhase = .owed
    · exact .inr ⟨by simp [driveRst, howed], rfl, howed.1, howed.2⟩
    · exact .inl ⟨_, driveRst_eq_next.mpr (.inr ⟨rfl, howed, rfl⟩)⟩

/-! ## The step -/

/-- Under the invariants a turn completes, but for the two breaches of R300 (a). -/
theorem turn_cases (u : Turn) {s : State} (hinv : Inv s) :
    (∃ t, turn u s = .next t) ∨
    (turn u s = .refused .hostBreaksHandshake ∧
      ((s.rst = false ∧ u = .withdraw) ∨ (s.rst = true ∧ s.rstPhase = .owed ∧ u = .reset false))) := by
  cases u with
  | agent a => exact .inl (edge_toList_completes fun hrst _ => exec_agentSelect hrst hinv)
  | word => exact .inl (edge_toList_completes fun hrst _ => exec_wordSelect hrst)
  | clock => exact .inl (edge_completes fun hrst => runAll_clockSelect hrst hinv)
  | send raw text => exact .inl ⟨_, rfl⟩
  | ready txo dec => exact .inl ⟨_, rfl⟩
  | reset level =>
    obtain hnext | ⟨hrefused, rfl, hrst, howed⟩ := driveRst_cases level s
    · exact .inl hnext
    · exact .inr ⟨hrefused, .inr ⟨hrst, howed, rfl⟩⟩
  | withdraw =>
    obtain hnext | ⟨hrefused, hrst⟩ := withdraw_cases s
    · exact .inl hnext
    · exact .inr ⟨hrefused, .inl ⟨hrst, rfl⟩⟩

theorem step_of_sched_nil {s : State} (h : s.sched = []) : step s = edge (fun s => (autoSelect s).toList) s := by
  simp only [step, stepTurn, h]

theorem step_of_sched_cons {s : State} {u : Turn} {us : List Turn} (h : s.sched = u :: us) :
    step s = turn u { s with sched := us } := by
  simp only [step, stepTurn, h]

/-- Settles O49: with no schedule the default move completes, and each turn does but for the host's breach of
R300 (a); the invariants do not speak of the schedule. -/
theorem nothingTheHostSendsStopsTheBlock : Obligations.NothingTheHostSendsStopsTheBlock := by
  intro s hinv
  cases hsched : s.sched with
  | nil =>
    rw [step_of_sched_nil hsched]
    exact .inl (edge_toList_completes fun hrst _ => exec_autoSelect hrst hinv)
  | cons u us =>
    rw [step_of_sched_cons hsched]
    have hturn := turn_cases u (s := { s with sched := us }) hinv
    obtain hnext | ⟨hrefused, ⟨hrst, rfl⟩ | ⟨hrst, howed, rfl⟩⟩ := hturn
    · exact .inl hnext
    · exact .inr ⟨hrefused, .inl ⟨hrst, us, rfl⟩⟩
    · exact .inr ⟨hrefused, .inr ⟨hrst, howed, us, rfl⟩⟩

end Sys2Proof.Machine
end

