-- ==== Sys2Proof/Proofs/InputTransitions.lean ====
section
/-! PROOFS. The transitions that read an item as one function each: the parser's do `parStep` of rule R159, the pair
decoder's do rule R220; and, once for each other transition, everything it can do. -/

namespace Sys2Proof.Machine

/-! ## The parser's tests, in the words of the flags (R28, R140) -/

theorem eq_esc_iff {b : Byte} : b = Config.esc ↔ isEsc b = true := by simp [isEsc]

theorem eq_lbr_iff {b : Byte} : b = Config.lbr ↔ isLbr b = true := by simp [isLbr]

theorem eq_codeEnd_iff {b : Byte} : b = Config.codeEnd ↔ isM b = true := by simp [isM]

theorem digit_iff {b : Byte} : Config.digitLo ≤ b ∧ b ≤ Config.digitHi ↔ isDigit b = true := by simp [isDigit]

theorem lt_maxDigits_iff : ∀ {n : BitVec 2}, n < Config.maxDigits ↔ digitsFull n = false := by decide

theorem eq_zero_iff_noDigits {n : BitVec 2} : n = 0 ↔ noDigits n = true := by simp [noDigits]

theorem eq_zero_iff_isSentinel {a : BitVec 10} : a = 0 ↔ isSentinel a = true := by simp [isSentinel]

theorem lt_iff_overflows {a : BitVec 10} : 255 < a ↔ overflows a = true := by simp [overflows]

theorem tryFrom_truncate (a : BitVec 10) :
    tryFrom (a.truncate 8) = if numberOk a then .ok (blockNumber a) else .error .valueOutOfBounds := rfl

/-- The classes `m` and digit of R140 are disjoint. -/
theorem not_isDigit_of_isM {b : Byte} (h : isM b = true) : isDigit b = false := by
  obtain rfl := eq_codeEnd_iff.mpr h
  rfl

/-- The sentinel's number is no Code: R154 and R155 exclude each other. -/
theorem not_isSentinel_of_numberOk {a : BitVec 10} (h : numberOk a = true) : isSentinel a = false := by
  cases hz : isSentinel a with
  | false => rfl
  | true =>
    obtain rfl := eq_zero_iff_isSentinel.mpr hz
    exact absurd h (by decide)

/-! ## The parser's input transitions -/

/-- Rule R140 on an item. -/
def parSelectItem (s : State) : InItem → Instr
  | .byte b => parSelectByte s b
  | .eoi => parSelectEoi s

/-- The state after the parser has taken `x`: the registers and the items of `step(s, x)` of R159. -/
def State.afterItem (s : State) (x : InItem) : State :=
  { s with
    pstate := (parStep s.parRegs x).1.pstate
    ndig := (parStep s.parRegs x).1.ndig
    acc := (parStep s.parRegs x).1.acc
    pQ := s.pQ ++ (parStep s.parRegs x).2 }

/-- The parser's input transition `i`: where rule R140 selects it for the item offered, it does what R159 says. -/
def parRead (i : Instr) (s : State) : Out :=
  match takeText s with
  | some (x, s') => if parSelectItem s x = i then .next (s'.afterItem x) else disabled
  | none => disabled

theorem parRegs_of_takeText {s s' : State} {x : InItem} (h : takeText s = some (x, s')) : s'.parRegs = s.parRegs := by
  obtain ⟨-, _, -, rfl⟩ := takeText_eq_some.mp h
  rfl

/-- To do what R159 says is to write its registers, to append its items, and to leave the rest alone. -/
theorem eq_afterItem {s t : State} {x : InItem} (hstep : parStep s.parRegs x = (t.parRegs, t.pQ.drop s.pQ.length))
    (hq : s.pQ <+: t.pQ) (hframe : t = { s with pstate := t.pstate, ndig := t.ndig, acc := t.acc, pQ := t.pQ }) :
    t = s.afterItem x := by
  obtain ⟨out, hout⟩ := hq
  rw [← hout, List.drop_left] at hstep
  rw [State.afterItem, hstep, hout]
  exact hframe

/-- A transition on a byte is `parRead` if its guard is the selection of R140 and its effect is that of R159. -/
theorem onTextByte_eq_parRead {s : State} {i : Instr} {g : Byte → Bool} {f : Byte → State → State}
    (hg : ∀ b, g b = true ↔ parSelectByte s b = i) (heoi : parSelectEoi s ≠ i)
    (hf : ∀ b (s' : State), s'.parRegs = s.parRegs → g b = true → f b s' = s'.afterItem (.byte b)) :
    onTextByte s g f = parRead i s := by
  unfold onTextByte parRead
  cases htake : takeText s with
  | none => rfl
  | some y =>
    obtain ⟨x, s'⟩ := y
    cases x with
    | eoi => simp [parSelectItem, heoi]
    | byte b =>
      by_cases hb : g b = true
      · simp [parSelectItem, hb, (hg b).mp hb, hf b s' (parRegs_of_takeText htake) hb]
      · have hne : parSelectByte s b ≠ i := fun h => hb ((hg b).mpr h)
        simp [parSelectItem, hb, hne]

/-- The same for a transition on `EOI`. -/
theorem onTextEoi_eq_parRead {s : State} {i : Instr} {g : Bool} {f : State → State}
    (hg : g = true ↔ parSelectEoi s = i) (hbyte : ∀ b, parSelectByte s b ≠ i)
    (hf : ∀ s' : State, s'.parRegs = s.parRegs → g = true → f s' = s'.afterItem .eoi) :
    onTextEoi s g f = parRead i s := by
  unfold onTextEoi parRead
  cases htake : takeText s with
  | none => rfl
  | some y =>
    obtain ⟨x, s'⟩ := y
    cases x with
    | byte b => simp [parSelectItem, hbyte]
    | eoi =>
      by_cases hb : g = true
      · simp [parSelectItem, hb, hg.mp hb, hf s' (parRegs_of_takeText htake) hb]
      · have hne : parSelectEoi s ≠ i := fun h => hb (hg.mpr h)
        simp [parSelectItem, hb, hne]

/-- The parser's transitions on a byte (R140). -/
def parserByteInputs : List Instr :=
  [.pHdrEsc, .pHdrOther, .pPfxOther, .pPfxLbr, .pDigDigit, .pDigDigit4, .pDigM0, .pDigMovf, .pDigM, .pDigOther,
    .pFillZero, .pFillCode, .pFillOob]

/-- The parser's transitions on `EOI` (R140). -/
def parserEoiInputs : List Instr := [.pHdrEoi, .pPfxEoi, .pDigEoi, .pFillEoi]

theorem mem_parserInputs_cases : ∀ i ∈ parserInputs, i ∈ parserByteInputs ∨ i ∈ parserEoiInputs := by decide

/-- Per transition: its guard is its row of R140's table, no row on `EOI` names it, and its effect is that of R159. -/
theorem exec_of_mem_parserByteInputs {i : Instr} (hi : i ∈ parserByteInputs) (s : State) : exec i s = parRead i s := by
  fin_cases hi
  all_goals
    refine onTextByte_eq_parRead (fun b => ?guard) ?noEoi (fun b s' hregs hb => ?effect)
    case guard =>
      have hm := @not_isDigit_of_isM b
      have hnumber := @not_isSentinel_of_numberOk s.acc
      grind -ring -linarith [parSelectByte]
    case noEoi => grind -ring -linarith [parSelectEoi]
    case effect =>
      have hm := @not_isDigit_of_isM b
      have hnumber := @not_isSentinel_of_numberOk s.acc
      have hp : s'.pstate = s.pstate := congrArg ParRegs.pstate hregs
      have hn : s'.ndig = s.ndig := congrArg ParRegs.ndig hregs
      have ha : s'.acc = s.acc := congrArg ParRegs.acc hregs
      refine eq_afterItem ?_ (by simp) rfl
      simp only [Bool.and_eq_true, beq_iff_eq, Bool.not_eq_true'] at hb
      simp only [parStep, parStepByte, State.parRegs, eq_esc_iff, eq_lbr_iff, eq_codeEnd_iff, digit_iff,
        lt_maxDigits_iff, eq_zero_iff_noDigits, eq_zero_iff_isSentinel, lt_iff_overflows, tryFrom_truncate, hp, hn, ha,
        hb]
      simp [hb, hm, hnumber, hn, ha, digitVal]

theorem exec_of_mem_parserEoiInputs {i : Instr} (hi : i ∈ parserEoiInputs) (s : State) : exec i s = parRead i s := by
  fin_cases hi
  all_goals
    refine onTextEoi_eq_parRead ?guard (fun b => ?noByte) (fun s' hregs hb => ?effect)
    case guard => grind -ring -linarith [parSelectEoi]
    case noByte => grind -ring -linarith [parSelectByte]
    case effect =>
      have hp : s'.pstate = s.pstate := congrArg ParRegs.pstate hregs
      refine eq_afterItem ?_ (by simp) rfl
      simp only [beq_iff_eq] at hb
      simp [parStep, hp, hb, State.parRegs]

/-- Each of the parser's seventeen input transitions is the row of R140's table with the effect of R159. -/
theorem exec_of_mem_parserInputs {i : Instr} (hi : i ∈ parserInputs) (s : State) : exec i s = parRead i s := by
  obtain hbyte | heoi := mem_parserInputs_cases i hi
  · exact exec_of_mem_parserByteInputs hbyte s
  · exact exec_of_mem_parserEoiInputs heoi s

theorem parRead_eq_next {i : Instr} {s t : State} :
    parRead i s = .next t ↔ ∃ x s', takeText s = some (x, s') ∧ parSelectItem s x = i ∧ t = s'.afterItem x := by
  unfold parRead
  cases htake : takeText s with
  | none => simp [disabled]
  | some y =>
    obtain ⟨x, s'⟩ := y
    by_cases hsel : parSelectItem s x = i
    · simp [hsel, eq_comm]
    · simp [hsel, disabled]

/-! ## The pair decoder's input transitions -/

/-- The pair decoder's input transition `i`: where rule R220 selects it for the item taken, it accepts the item. -/
def decTake (i : Instr) (s : State) : Out :=
  match takePItem s with
  | some (x, s') => if decSelectItem s x = i then decAccept x s' else disabled
  | none => disabled

/-- Each of the pair decoder's seven input transitions is the row of R220's table with the effect of `decAccept`. -/
theorem exec_of_mem_decoderInputs {i : Instr} (hi : i ∈ decoderInputs) (s : State) : exec i s = decTake i s := by
  unfold decTake
  cases htake : takePItem s with
  | none =>
    fin_cases hi
    all_goals simp only [exec, execDEmptyCode, execDEmptyErr, execDEmptyEnd, execDHeldCode, execDHeldErr,
      execDHeldEnd0, execDHeldEnd1, htake]
  | some y =>
    obtain ⟨x, s'⟩ := y
    dsimp only
    split
    · rename_i hsel
      rw [← hsel, exec_decSelectItem htake]
      simp only [exec, execPDeliver, htake]
    · rename_i hsel
      fin_cases hi
      all_goals
        simp only [exec, execDEmptyCode, execDEmptyErr, execDEmptyEnd, execDHeldCode, execDHeldErr,
          execDHeldEnd0, execDHeldEnd1, htake]
        grind -ring -linarith [decSelectItem]

/-- Where an item moves on `PITEM`, by a transition of `DEC` or by `P.DELIVER`, the pair decoder accepts it. -/
theorem exec_pitem_eq_next {i : Instr} {s t : State} (hi : i = .pDeliver ∨ i ∈ decoderInputs)
    (h : exec i s = .next t) : ∃ x s', takePItem s = some (x, s') ∧ decAccept x s' = .next t := by
  obtain rfl | hi := hi
  · simp only [exec, execPDeliver] at h
    split at h
    · exact ⟨_, _, ‹_›, h⟩
    · cases h
  · rw [exec_of_mem_decoderInputs hi, decTake] at h
    split at h
    · split at h
      · exact ⟨_, _, ‹_›, h⟩
      · cases h
    · cases h

/-! ## The other transitions: everything each can do -/

theorem execDDeliver_eq_next {s t : State} (h : execDDeliver s = .next t) :
    s.rst = false ∧ s.decReady = true ∧
      ∃ x xs, s.dQ = x :: xs ∧ t = { s with dQ := xs, decOut := s.decOut ++ [x] } := by
  unfold execDDeliver at h
  split at h
  · rename_i henabled
    split at h <;> cases h
    exact ⟨henabled.1, henabled.2, _, _, ‹_›, rfl⟩
  · cases h

theorem execEncByte_eq_next {s t : State} : execEncByte s = .next t ↔
    ∃ b s', takeRaw s = some (.byte b, s') ∧ t = { s' with eByte := b, eHalf := .high, ePos := 0, eBusy := true } := by
  unfold execEncByte
  split
  · rename_i b s' h
    simp [h, eq_comm]
  · rename_i h
    simp only [disabled, reduceCtorEq, false_iff, not_exists, not_and]
    intro b s' htake
    exact absurd htake (h b s')

theorem execEncEoi_eq_next {s t : State} : execEncEoi s = .next t ↔
    ∃ s', takeRaw s = some (.eoi, s') ∧ t = { s' with eEoi := true } := by
  unfold execEncEoi
  split
  · rename_i s' h
    simp [h, eq_comm]
  · rename_i h
    simp only [disabled, reduceCtorEq, false_iff, not_exists, not_and]
    intro s' htake
    exact absurd htake (h s')

/-- `ENC.EMIT` waits for `txo_ready`, or the next text byte moves (R122). -/
theorem execEncEmit_eq_next {s t : State} (h : execEncEmit s = .next t) :
    s.rst = false ∧ s.eBusy = true ∧
      ((s.txoReady = false ∧ t = s) ∨
        (s.txoReady = true ∧ ∃ c, serByte s.eCode s.ePos.toNat = some c ∧ t = (s.putText c).advance)) := by
  unfold execEncEmit at h
  split at h
  · cases h
  · rename_i henabled
    obtain ⟨hrst, hbusy⟩ : s.rst = false ∧ s.eBusy = true := by simpa using henabled
    refine ⟨hrst, hbusy, ?_⟩
    split at h
    · cases h
      exact .inl ⟨‹_›, rfl⟩
    · rename_i hready
      split at h <;> cases h
      exact .inr ⟨by simpa using hready, _, ‹_›, rfl⟩

/-- `ENC.EMIT_EOI` waits for `txo_ready`, or the `EOI` moves (R123). -/
theorem execEncEmitEoi_eq_next {s t : State} (h : execEncEmitEoi s = .next t) :
    s.rst = false ∧ s.eEoi = true ∧
      ((s.txoReady = false ∧ t = s) ∨
        (s.txoReady = true ∧ t = { s with textOut := s.textOut ++ [.eoi], eEoi := false })) := by
  unfold execEncEmitEoi at h
  split at h
  · cases h
  · rename_i henabled
    obtain ⟨hrst, heoi⟩ : s.rst = false ∧ s.eEoi = true := by simpa using henabled
    refine ⟨hrst, heoi, ?_⟩
    split at h <;> cases h
    · exact .inl ⟨‹_›, rfl⟩
    · rename_i hready
      exact .inr ⟨by simpa using hready, rfl⟩

end Sys2Proof.Machine
end

