-- ==== Sys2Proof/Proofs/StepInstrs.lean ====
section
/-! PROOFS. Which instructions a step can run: what the selection tables and the fetch of a wire word name. -/

namespace Sys2Proof.Machine

/-- The instructions that a step can run: the agents' transitions and the wire words. The operations `CODE.*` and
`PAIR.*` are no step of their own (log 5). -/
inductive StepInstr : Instr → Prop
  | encoder {i : Instr} (hi : i ∈ encoderTransitions) : StepInstr i
  | parser {i : Instr} (hi : i ∈ parserInputs) : StepInstr i
  | pitem {i : Instr} (hi : i = .pDeliver ∨ i ∈ decoderInputs) : StepInstr i
  | decOut : StepInstr .dDeliver
  | word {r : WordRow} (hr : r ∈ wordRows) (f : Byte) : StepInstr (r.build f)

/-! ## The selection tables -/

theorem parSelectByte_mem (s : State) (b : Byte) : parSelectByte s b ∈ parserInputs := by
  unfold parSelectByte
  cases s.pstate with
  | hdr => dsimp only; split <;> decide
  | pfx => dsimp only; split <;> decide
  | dig =>
    dsimp only
    split
    · split <;> decide
    · split
      · split
        · decide
        · split <;> decide
      · decide
  | fill =>
    dsimp only
    split
    · decide
    · split <;> decide

theorem parSelectEoi_mem (s : State) : parSelectEoi s ∈ parserInputs := by
  unfold parSelectEoi
  cases s.pstate <;> decide

theorem decSelectItem_mem (s : State) (x : PItem) : decSelectItem s x ∈ decoderInputs := by
  unfold decSelectItem
  split <;> decide

theorem StepInstr.of_encSelect {s : State} {i : Instr} (h : encSelect s = some i) : StepInstr i := by
  unfold encSelect at h
  split at h <;> cases h <;> exact .encoder (by decide)

theorem StepInstr.of_parSelect {s : State} {i : Instr} (h : parSelect s = some i) : StepInstr i := by
  unfold parSelect at h
  split at h
  · split at h <;> cases h
    · exact .parser (parSelectByte_mem s _)
    · exact .parser (parSelectEoi_mem s)
  · split at h <;> cases h
    exact .pitem (.inl rfl)

theorem StepInstr.of_decOutSelect {s : State} {i : Instr} (h : decOutSelect s = some i) : StepInstr i := by
  obtain ⟨rfl, -⟩ := decOutSelect_eq_some.mp h
  exact .decOut

theorem StepInstr.of_decSelect {s : State} {i : Instr} (h : decSelect s = some i) : StepInstr i := by
  unfold decSelect at h
  split at h
  · cases h
    exact .pitem (.inr (decSelectItem_mem s _))
  · cases h
  · exact .of_decOutSelect h

theorem StepInstr.of_wordSelect {s : State} {i : Instr} (h : wordSelect s = some i) : StepInstr i := by
  obtain ⟨-, -, rest, hdecode⟩ := wordSelect_eq_some h
  obtain ⟨r, hr, f, rfl, -⟩ := decode_eq_ok hdecode
  exact .word hr f

theorem StepInstr.of_agentSelect {a : Agent} {s : State} {i : Instr} (h : agentSelect a s = some i) :
    StepInstr i := by
  cases a with
  | enc => exact .of_encSelect h
  | par => exact .of_parSelect h
  | dec => exact .of_decSelect h

theorem StepInstr.of_autoSelect {s : State} {i : Instr} (h : autoSelect s = some i) : StepInstr i := by
  simp only [autoSelect, Option.or_eq_some_iff] at h
  obtain (hword | ⟨-, hpar⟩) | ⟨-, hdec | ⟨-, henc⟩⟩ := h
  · exact .of_wordSelect hword
  · exact .of_parSelect hpar
  · exact .of_decSelect hdec
  · exact .of_encSelect henc

theorem StepInstr.of_mem_clockSelect {s : State} {i : Instr} (h : i ∈ clockSelect s) : StepInstr i := by
  simp only [clockSelect, List.mem_append, Option.mem_toList] at h
  obtain (henc | hpar) | hout := h
  · exact .of_encSelect henc
  · exact .of_parSelect hpar
  · exact .of_decOutSelect hout

/-! ## A wire word is a path of parser transitions (log 19) -/

/-- A path made of the parser's input transitions. -/
def ParserPath (path : List (State → Out)) : Prop := ∀ g ∈ path, ∃ i ∈ parserInputs, g = exec i

theorem parserPath_pathToFill (n : Nat) : ParserPath (pathToFill n) := by
  intro g hg
  simp only [pathToFill, List.mem_append, List.mem_cons, List.mem_replicate, List.not_mem_nil, or_false] at hg
  obtain ((rfl | rfl) | ⟨-, rfl⟩) | rfl := hg
  · exact ⟨.pHdrEsc, by decide, rfl⟩
  · exact ⟨.pPfxLbr, by decide, rfl⟩
  · exact ⟨.pDigDigit, by decide, rfl⟩
  · exact ⟨.pDigM, by decide, rfl⟩

theorem ParserPath.concat {path : List (State → Out)} (hpath : ParserPath path) {i : Instr} (hi : i ∈ parserInputs) :
    ParserPath (path ++ [exec i]) := by
  intro g hg
  obtain hg | hg := List.mem_append.mp hg
  · exact hpath g hg
  · exact ⟨i, hi, List.mem_singleton.mp hg⟩

/-- A word is read by the path that its rule lists, up to the fill byte and then R155 or R154. -/
theorem exec_of_mem_wordRows {r : WordRow} (hr : r ∈ wordRows) (f : Byte) :
    ∃ bs path, ParserPath path ∧ exec (r.build f) = readWord bs path := by
  rw [wordRows_eq, List.mem_append] at hr
  obtain hcode | hzero := hr
  · exact ⟨_, _, (parserPath_pathToFill _).concat (i := .pFillCode) (by decide),
      funext fun s => exec_of_mem_codeRows r hcode f s⟩
  · exact ⟨_, _, (parserPath_pathToFill _).concat (i := .pFillZero) (by decide),
      funext fun s => exec_of_mem_rowsSentinel r hzero f s⟩

/-! ## An agent's turn -/

/-- An edge at which at most one selected transition moves, with `rst = 0`: it moves, or the agent waits (R301). -/
theorem edge_toList_of_not_rst {sel : State → Option Instr} {s : State} (hrst : s.rst = false) :
    (∀ i, sel s = some i → edge (fun s => (sel s).toList) s = exec i s) ∧
    (sel s = none → edge (fun s => (sel s).toList) s = .next s) := by
  constructor
  · intro i hi
    simp [edge, hrst, hi]
  · intro hnone
    simp [edge, hrst, hnone, runAll]

/-- Settles O39: the agent's turn is an edge that picks from the agent's own table (R20). -/
theorem stepRunsTheSelectedTransition : Obligations.StepRunsTheSelectedTransition := by
  intro s a ts hrst hsched
  rw [step_of_sched_cons hsched]
  exact edge_toList_of_not_rst (sel := agentSelect a) (s := { s with sched := ts }) hrst

end Sys2Proof.Machine
end

