-- ==== Sys2Proof/Proofs/Invariants.lean ====
section
/-! PROOFS. The invariants of 10_state.md R33, with R84 and R85: they hold after reset, and every step keeps them. -/

namespace Sys2Proof.Machine

/-! ## The parser: R33 (a), (b), and the items it emits -/

theorem digitVal_le : ∀ b : Byte, isDigit b = true → (digitVal b).toNat ≤ 9 := by decide

/-- R147 keeps R33 (a): with fewer than three digits behind, the sum stays below 1000 and does not wrap. -/
theorem acc_digit_lt {n : BitVec 2} {a : BitVec 10} {b : Byte} (ha : a.toNat < 10 ^ n.toNat)
    (hn : n < Config.maxDigits) (hb : isDigit b = true) :
    (a * 10 + digitVal b).toNat < 10 ^ (n + 1).toNat := by
  have hd := digitVal_le b hb
  have hn3 : n.toNat < 3 := hn
  have hsucc : (n + 1).toNat = n.toNat + 1 := by
    rw [BitVec.toNat_add]
    exact Nat.mod_eq_of_lt (show n.toNat + 1 < 4 by omega)
  have hexact : (a * 10 + digitVal b).toNat ≤ a.toNat * 10 + (digitVal b).toNat := by
    rw [BitVec.toNat_add, BitVec.toNat_mul]
    exact (Nat.mod_le _ _).trans (Nat.add_le_add_right (Nat.mod_le _ _) _)
  rw [hsucc, pow_succ]
  omega

theorem parInv_of_hdr {r : ParRegs} (h : r.pstate = .hdr) : parInv r := by
  simp [parInv, h]

theorem parInv_of_pfx {r : ParRegs} (h : r.pstate = .pfx) : parInv r := by
  simp [parInv, h]

/-- R145 clears the accumulator. -/
theorem parInv_dig_zero : parInv { pstate := .dig, ndig := 0, acc := 0 } := by
  simp [parInv]

theorem parInv_parStepByte {r : ParRegs} (h : parInv r) (b : Byte) : parInv (parStepByte r b).1 := by
  unfold parStepByte
  cases hp : r.pstate with
  | hdr =>
    dsimp only
    split
    · exact parInv_of_pfx rfl
    · exact h
  | pfx =>
    dsimp only
    split
    · exact parInv_dig_zero
    · exact parInv_of_hdr rfl
  | dig =>
    have hacc : r.acc.toNat < 10 ^ r.ndig.toNat := h.1 (.inl hp)
    dsimp only
    split
    · rename_i hdigit
      split
      · rename_i hroom
        have hlt := acc_digit_lt hacc hroom (digit_iff.mp hdigit)
        exact ⟨fun _ => hlt, by simp⟩
      · exact parInv_of_hdr rfl
    · split
      · split
        · exact parInv_of_hdr rfl
        · split
          · exact parInv_of_hdr rfl
          · rename_i hne hle
            exact ⟨fun _ => hacc, fun _ => ⟨hne, BitVec.not_lt.mp hle⟩⟩
      · exact parInv_of_hdr rfl
  | fill =>
    dsimp only
    split
    · exact parInv_of_hdr rfl
    · split <;> exact parInv_of_hdr rfl

theorem parInv_parStep {r : ParRegs} (h : parInv r) (x : InItem) : parInv (parStep r x).1 := by
  cases x with
  | byte b => exact parInv_parStepByte h b
  | eoi =>
    unfold parStep
    dsimp only
    split
    · exact h
    · exact parInv_of_hdr rfl

/-- What one transition of the parser may emit: at most two items, each one that `PITEM` may carry (R33 (f), R84). -/
def LegalOutput (ys : List PItem) : Prop := ys.length ≤ 2 ∧ ∀ y ∈ ys, pitemOk y = true

theorem legalOutput_nil : LegalOutput [] := ⟨by decide, by simp⟩

theorem legalOutput_single {y : PItem} (h : pitemOk y = true) : LegalOutput [y] := ⟨by simp, by simpa using h⟩

theorem legalOutput_parStepByte (r : ParRegs) (b : Byte) : LegalOutput (parStepByte r b).2 := by
  unfold parStepByte
  cases r.pstate with
  | hdr =>
    dsimp only
    split
    · exact legalOutput_nil
    · exact legalOutput_single (by simpa [pitemOk, parserKind, infoOk])
  | pfx =>
    dsimp only
    split
    · exact legalOutput_nil
    · exact legalOutput_single (by simpa [pitemOk, parserKind, infoOk])
  | dig =>
    dsimp only
    split
    · split
      · exact legalOutput_nil
      · exact legalOutput_single (by decide)
    · rename_i hdigit
      split
      · split
        · exact legalOutput_single (by decide)
        · split
          · exact legalOutput_single (by decide)
          · exact legalOutput_nil
      · rename_i hm
        rw [digit_iff] at hdigit
        rw [eq_codeEnd_iff] at hm
        exact legalOutput_single (by simp [pitemOk, parserKind, infoOk, hdigit, hm])
  | fill =>
    dsimp only
    split
    · exact legalOutput_single rfl
    · rw [tryFrom_truncate]
      cases hok : numberOk r.acc with
      | true => exact legalOutput_single hok
      | false => exact legalOutput_single (by decide)

theorem legalOutput_parStep (r : ParRegs) (x : InItem) : LegalOutput (parStep r x).2 := by
  cases x with
  | byte b => exact legalOutput_parStepByte r b
  | eoi =>
    unfold parStep
    dsimp only
    split
    · exact legalOutput_single rfl
    · exact ⟨Nat.le_refl 2, by simp; decide⟩

/-- The parser finds `p_q` empty, so what it emits is all that stands there. -/
theorem inv_parRead {i : Instr} {s t : State} (hinv : Inv s) (h : parRead i s = .next t) : Inv t := by
  obtain ⟨x, s', htake, -, rfl⟩ := parRead_eq_next.mp h
  obtain ⟨hready, xs, -, rfl⟩ := takeText_eq_some.mp htake
  obtain ⟨-, hempty⟩ := txiReady_iff.mp hready
  obtain ⟨hpar, henc, ⟨hheld, -, hdlen, -, hpitem, hd, hout, hcode⟩, hhost⟩ := hinv
  obtain ⟨hlen, hok⟩ := legalOutput_parStep s.parRegs x
  have hq : (State.afterItem { s with textIn := xs } x).pQ = (parStep s.parRegs x).2 := by
    simp only [State.afterItem, hempty, List.nil_append]; rfl
  exact ⟨parInv_parStep hpar x, henc, ⟨hheld, hq ▸ hlen, hdlen, hq ▸ hok, hpitem, hd, hout, hcode⟩, hhost⟩

/-! ## The pair decoder: R33 (c), (f) -/

theorem inv_takePItem {s s' : State} {x : PItem} (hinv : Inv s) (h : takePItem s = some (x, s')) :
    Inv s' ∧ pitemOk x = true ∧ s'.dQ = [] := by
  obtain ⟨hready, xs, hq, rfl⟩ := takePItem_eq_some.mp h
  obtain ⟨-, hd⟩ := pitemReady_iff.mp hready
  obtain ⟨hpar, henc, ⟨hheld, hplen, hdlen, hp, hpitem, hdok, hout, hcode⟩, hhost⟩ := hinv
  rw [hq] at hplen hp
  obtain ⟨hx, hxs⟩ := List.forall_mem_cons.mp hp
  have htap : ∀ y ∈ s.pitem ++ [x], pitemOk y = true := by
    simpa [or_imp, forall_and, hx] using hpitem
  exact ⟨⟨hpar, henc, ⟨hheld, by simp at hplen ⊢; omega, hdlen, hxs, htap, hdok, hout, hcode⟩, hhost⟩, hx, hd⟩

theorem inv_emitD {s : State} {ys : List DItem} (hinv : Inv s) (hd : s.dQ = []) (hlen : ys.length ≤ 2)
    (hok : ∀ y ∈ ys, ditemOk y = true) : Inv (s.emitD ys) := by
  obtain ⟨hpar, henc, ⟨hheld, hplen, -, hp, hpitem, -, hout, hcode⟩, hhost⟩ := hinv
  have hq : (s.emitD ys).dQ = ys := by simp [hd]
  exact ⟨hpar, henc, ⟨hheld, hplen, by rwa [hq], hp, hpitem, by rwa [hq], hout, hcode⟩, hhost⟩

theorem inv_dropHigh {s : State} (hinv : Inv s) : Inv s.dropHigh := by
  obtain ⟨hpar, henc, ⟨-, hrest⟩, hhost⟩ := hinv
  exact ⟨hpar, henc, ⟨by simp, hrest⟩, hhost⟩

theorem inv_holdHigh {s : State} {c : Byte} (hinv : Inv s) (hc : isCode c = true) : Inv (s.holdHigh c) := by
  obtain ⟨hpar, henc, ⟨-, hrest⟩, hhost⟩ := hinv
  exact ⟨hpar, henc, ⟨fun _ => hc, hrest⟩, hhost⟩

theorem ditemOk_of_pitemOk {k : ErrKind} {info : Byte} (h : pitemOk (.err k info) = true) :
    ditemOk (.err k info) = true := by
  simp only [pitemOk, Bool.and_eq_true] at h
  exact h.2

theorem inv_decAccept {x : PItem} {s t : State} (hinv : Inv s) (hx : pitemOk x = true) (hd : s.dQ = [])
    (h : decAccept x s = .next t) : Inv t := by
  obtain ⟨-, c, rfl, rfl⟩ | ⟨-, k, info, rfl, rfl⟩ | ⟨-, z, rfl, rfl⟩ | ⟨-, c, rfl, -, -, rfl⟩ |
    ⟨-, k, info, rfl, rfl⟩ | ⟨-, rfl, rfl⟩ | ⟨-, rfl, rfl⟩ := decAccept_eq_next h
  · exact inv_holdHigh hinv hx
  · exact inv_emitD hinv hd (by simp) (by simpa using ditemOk_of_pitemOk hx)
  · exact inv_emitD hinv hd (by simp) (by simp [ditemOk])
  · exact inv_dropHigh (inv_emitD hinv hd (by simp) (by simp [ditemOk]))
  · exact inv_dropHigh (inv_emitD hinv hd (by simp) (by simpa using ditemOk_of_pitemOk hx))
  · exact inv_dropHigh (inv_emitD hinv hd (by simp) (by decide))
  · exact inv_dropHigh (inv_emitD hinv hd (by simp) (by decide))

theorem inv_execDDeliver {s t : State} (hinv : Inv s) (h : execDDeliver s = .next t) : Inv t := by
  obtain ⟨-, -, x, xs, hq, rfl⟩ := execDDeliver_eq_next h
  obtain ⟨hpar, henc, ⟨hheld, hplen, hdlen, hp, hpitem, hd, hout, hcode⟩, hhost⟩ := hinv
  rw [hq] at hdlen hd
  obtain ⟨hx, hxs⟩ := List.forall_mem_cons.mp hd
  have hout' : ∀ y ∈ s.decOut ++ [x], ditemOk y = true := by
    simpa [or_imp, forall_and, hx] using hout
  exact ⟨hpar, henc, ⟨hheld, hplen, by simp at hdlen ⊢; omega, hp, hpitem, hxs, hout', hcode⟩, hhost⟩

/-! ## The encoder: R33 (e) -/

theorem blkLen_bounds (c : Byte) : 0 < blkLen c ∧ blkLen c ≤ 7 := by
  unfold blkLen; split <;> decide

theorem encInv_of_start {s : State} (hpos : s.ePos = 0) (heoi : s.eEoi = false) : encInv s := by
  obtain ⟨hlen, -⟩ := blkLen_bounds s.eCode
  exact ⟨fun _ => by simpa [hpos] using hlen, by simp [heoi]⟩

theorem encInv_of_not_busy {s : State} (h : s.eBusy = false) : encInv s := by simp [encInv, h]

/-- R122 keeps R33 (e): the next position, or position 0 of the low block, or the byte is done. -/
theorem encInv_advance {s : State} (h : encInv s) (hbusy : s.eBusy = true) : encInv s.advance := by
  obtain ⟨hpos, hrow⟩ := h
  have heoi : s.eEoi = false := by simpa [hbusy] using hrow
  unfold State.advance
  split
  · rename_i hlt
    obtain ⟨-, hlen⟩ := blkLen_bounds s.eCode
    have hsucc : (s.ePos + 1).toNat = s.ePos.toNat + 1 := by
      rw [BitVec.toNat_add]
      exact Nat.mod_eq_of_lt (by simp; omega)
    exact ⟨fun _ => hsucc ▸ hlt, hrow⟩
  · split
    · exact encInv_of_start rfl heoi
    · exact encInv_of_not_busy rfl

theorem isCode_fromNib : ∀ v : Nibble, isCode (fromNib v) = true := by decide

theorem isCode_eCode (s : State) : isCode s.eCode = true := by
  unfold State.eCode
  cases s.eHalf <;> exact isCode_fromNib _

theorem inv_putText {s : State} (c : Byte) (hinv : Inv s) : Inv (s.putText c) := by
  obtain ⟨hpar, henc, ⟨hheld, hplen, hdlen, hp, hpitem, hd, hout, hcode⟩, hhost⟩ := hinv
  have hcode' : ∀ c' ∈ (s.putText c).ecode, isCode c' = true := by
    rw [State.putText_ecode]
    split
    · simpa [or_imp, forall_and, isCode_eCode] using hcode
    · exact hcode
  exact ⟨hpar, henc, ⟨hheld, hplen, hdlen, hp, hpitem, hd, hout, hcode'⟩, hhost⟩

/-- `advance` writes the encoder's registers only. -/
theorem inv_advance {s : State} (hinv : Inv s) (hbusy : s.eBusy = true) : Inv s.advance := by
  obtain ⟨hpar, henc, hdec, hhost⟩ := hinv
  have hregs : s.advance.parRegs = s.parRegs := by simp [State.parRegs]
  exact ⟨hregs ▸ hpar, encInv_advance henc hbusy, by simpa [decInv] using hdec, by simpa [hostInv] using hhost⟩

theorem inv_encoder {i : Instr} {s t : State} (hi : i ∈ encoderTransitions) (hinv : Inv s)
    (h : exec i s = .next t) : Inv t := by
  obtain ⟨hpar, henc, hdec, hhost⟩ := hinv
  simp only [encoderTransitions, List.mem_cons, List.not_mem_nil, or_false] at hi
  obtain rfl | rfl | rfl | rfl := hi
  · obtain ⟨b, s', htake, rfl⟩ := execEncByte_eq_next.mp h
    obtain ⟨hready, xs, -, rfl⟩ := takeRaw_eq_some.mp htake
    obtain ⟨-, -, heoi⟩ := rawReady_iff.mp hready
    exact ⟨hpar, encInv_of_start rfl heoi, hdec, hhost⟩
  · obtain ⟨s', htake, rfl⟩ := execEncEoi_eq_next.mp h
    obtain ⟨hready, xs, -, rfl⟩ := takeRaw_eq_some.mp htake
    obtain ⟨-, hbusy, -⟩ := rawReady_iff.mp hready
    exact ⟨hpar, encInv_of_not_busy hbusy, hdec, hhost⟩
  · obtain ⟨-, hbusy, ⟨-, rfl⟩ | ⟨-, c, -, rfl⟩⟩ := execEncEmit_eq_next h
    · exact ⟨hpar, henc, hdec, hhost⟩
    · exact inv_advance (inv_putText c ⟨hpar, henc, hdec, hhost⟩) hbusy
  · obtain ⟨-, -, ⟨-, rfl⟩ | ⟨-, rfl⟩⟩ := execEncEmitEoi_eq_next h
    · exact ⟨hpar, henc, hdec, hhost⟩
    · exact ⟨hpar, ⟨henc.1, by simp⟩, hdec, hhost⟩

/-! ## Every instruction of a step -/

theorem inv_parserInput {i : Instr} {s t : State} (hi : i ∈ parserInputs) (hinv : Inv s)
    (h : exec i s = .next t) : Inv t :=
  inv_parRead hinv (exec_of_mem_parserInputs hi s ▸ h)

theorem inv_alongPath {path : List (State → Out)} (hpath : ParserPath path)
    {s t : State} (hinv : Inv s) (h : alongPath path s = .next t) : Inv t := by
  induction path generalizing s with
  | nil => cases h; exact hinv
  | cons g gs ih =>
    obtain ⟨⟨i, hi, rfl⟩, hgs⟩ := List.forall_mem_cons.mp hpath
    obtain ⟨s', hs', hrest⟩ := alongPath_cons.mp h
    exact ih hgs (inv_parserInput hi hinv hs') hrest

theorem inv_exec {i : Instr} {s t : State} (hi : StepInstr i) (hinv : Inv s) (h : exec i s = .next t) : Inv t := by
  cases hi with
  | encoder hi => exact inv_encoder hi hinv h
  | parser hi => exact inv_parserInput hi hinv h
  | pitem hi =>
    obtain ⟨x, s', htake, haccept⟩ := exec_pitem_eq_next hi h
    obtain ⟨hinv', hx, hd⟩ := inv_takePItem hinv htake
    exact inv_decAccept hinv' hx hd haccept
  | decOut => exact inv_execDDeliver hinv h
  | word hr f =>
    obtain ⟨bs, path, hpath, hexec⟩ := exec_of_mem_wordRows hr f
    rw [hexec, readWord] at h
    split at h
    · exact inv_alongPath hpath hinv h
    · cases h

theorem inv_runAll {is : List Instr} (his : ∀ i ∈ is, StepInstr i) {s t : State} (hinv : Inv s)
    (h : runAll is s = .next t) : Inv t := by
  induction is generalizing s with
  | nil => cases h; exact hinv
  | cons i is ih =>
    obtain ⟨hi, his⟩ := List.forall_mem_cons.mp his
    obtain ⟨s', hs', hrest⟩ := runAll_cons.mp h
    exact ih his (inv_exec hi hinv hs') hrest

/-! ## Every turn -/

/-- The registers are at their reset values, and what the streams have carried stays (log 4). -/
theorem inv_resetRegs {s : State} (hinv : Inv s) (hrst : s.rst = true) : Inv s.resetRegs := by
  obtain ⟨-, -, ⟨-, -, -, -, hpitem, -, hout, hcode⟩, -⟩ := hinv
  exact ⟨parInv_of_hdr rfl, encInv_of_not_busy rfl,
    ⟨by simp, by simp, by simp, by simp, hpitem, by simp, hout, hcode⟩, by simp [hostInv, hrst]⟩

theorem inv_edge {pick : State → List Instr} {s t : State} (hpick : ∀ i ∈ pick s, StepInstr i) (hinv : Inv s)
    (h : edge pick s = .next t) : Inv t := by
  unfold edge at h
  split at h
  · cases h
    exact inv_resetRegs hinv ‹_›
  · exact inv_runAll hpick hinv h

theorem inv_edge_toList {sel : State → Option Instr} {s t : State} (hsel : ∀ i, sel s = some i → StepInstr i)
    (hinv : Inv s) (h : edge (fun s => (sel s).toList) s = .next t) : Inv t :=
  inv_edge (fun i hi => hsel i (Option.mem_toList.mp hi)) hinv h

theorem inv_turn {u : Turn} {s t : State} (hinv : Inv s) (h : turn u s = .next t) : Inv t := by
  cases u with
  | agent a => exact inv_edge_toList (fun _ => .of_agentSelect) hinv h
  | word => exact inv_edge_toList (fun _ => .of_wordSelect) hinv h
  | clock => exact inv_edge (fun i => .of_mem_clockSelect) hinv h
  | send raw text => cases h; exact hinv
  | ready txo dec => cases h; exact hinv
  | reset level =>
    obtain ⟨hpar, henc, hdec, -⟩ := hinv
    obtain ⟨-, rfl⟩ | ⟨-, -, rfl⟩ := driveRst_eq_next.mp h
    · exact ⟨hpar, henc, hdec, by simp [hostInv]⟩
    · exact ⟨hpar, henc, hdec, fun _ => rfl⟩
  | withdraw =>
    obtain ⟨-, -, rfl⟩ | ⟨-, hrst, rfl⟩ := withdraw_eq_next.mp h
    · exact hinv
    · obtain ⟨hpar, henc, hdec, -⟩ := hinv
      exact ⟨hpar, henc, hdec, by simp [hostInv, hrst]⟩

/-! ## The statements -/

/-- Settles O44: each register of R32 with a stated value is a field of `State.reset`. -/
theorem resetGivesTheStatedValues : Obligations.ResetGivesTheStatedValues := ⟨rfl, rfl, rfl, rfl, rfl, rfl⟩

/-- Settles O47: the parser is between blocks, the encoder is not busy, nothing is held, and every list is empty. -/
theorem resetMeetsTheInvariants : Obligations.ResetMeetsTheInvariants :=
  ⟨parInv_of_hdr rfl, encInv_of_not_busy rfl, by simp [decInv, State.reset], fun _ => rfl⟩

/-- Settles O48: a step is a turn, a turn is an edge or an act of the host, and an edge runs instructions that each keep
the invariants; the invariants do not speak of the schedule. -/
theorem everyStepKeepsTheInvariants : Obligations.EveryStepKeepsTheInvariants := by
  intro s t hinv h
  cases hsched : s.sched with
  | nil =>
    rw [step_of_sched_nil hsched] at h
    exact inv_edge_toList (fun _ => .of_autoSelect) hinv h
  | cons u us =>
    rw [step_of_sched_cons hsched] at h
    exact inv_turn (s := { s with sched := us }) hinv h

end Sys2Proof.Machine
end

