-- ==== Sys2Proof/Proofs/DeadRegisters.lean ====
section
/-! PROOFS. 10_state.md R35, R33 (d): the step and the outputs are functions of the live part of the state. Each function
of the model is shown to see only `State.live`; two states with the same live part then look the same to it. -/

namespace Sys2Proof.Machine

/-! ## The live part -/

section
variable (s : State)

@[simp] theorem State.live_pstate : s.live.pstate = s.pstate := rfl
@[simp] theorem State.live_pQ : s.live.pQ = s.pQ := rfl
@[simp] theorem State.live_hiValid : s.live.hiValid = s.hiValid := rfl
@[simp] theorem State.live_dQ : s.live.dQ = s.dQ := rfl
@[simp] theorem State.live_eBusy : s.live.eBusy = s.eBusy := rfl
@[simp] theorem State.live_eEoi : s.live.eEoi = s.eEoi := rfl
@[simp] theorem State.live_rst : s.live.rst = s.rst := rfl
@[simp] theorem State.live_txoReady : s.live.txoReady = s.txoReady := rfl
@[simp] theorem State.live_decReady : s.live.decReady = s.decReady := rfl
@[simp] theorem State.live_rawIn : s.live.rawIn = s.rawIn := rfl
@[simp] theorem State.live_textIn : s.live.textIn = s.textIn := rfl
@[simp] theorem State.live_sched : s.live.sched = s.sched := rfl
@[simp] theorem State.live_rstPhase : s.live.rstPhase = s.rstPhase := rfl
@[simp] theorem State.live_rawReady : s.live.rawReady = s.rawReady := rfl
@[simp] theorem State.live_txiReady : s.live.txiReady = s.txiReady := rfl
@[simp] theorem State.live_pitemReady : s.live.pitemReady = s.pitemReady := rfl

@[simp] theorem State.live_live : s.live.live = s.live := by
  simp only [State.live]
  congr 1 <;> split <;> rfl

end

/-- While a high code is held `hi_code` is live. -/
theorem live_hiCode {s : State} (h : s.hiValid = true) : s.live.hiCode = s.hiCode := by
  simp [State.live, h]

/-- While a byte is being written the encoder's registers are live. -/
theorem live_encoder {s : State} (h : s.eBusy = true) :
    s.live.eByte = s.eByte ∧ s.live.eHalf = s.eHalf ∧ s.live.ePos = s.ePos := by
  simp [State.live, h]

theorem live_eCode {s : State} (h : s.eBusy = true) : s.live.eCode = s.eCode := by
  obtain ⟨hbyte, hhalf, -⟩ := live_encoder h
  simp only [State.eCode, hbyte, hhalf]

/-- An update whose result, in its live part, is computed from the live part alone. -/
theorem live_of_factor {f : State → State} (g : State → State) (h : ∀ t, (f t).live = g t.live) (s : State) :
    (f s.live).live = (f s).live := by
  rw [h, h, s.live_live]

theorem live_of_commutes {f : State → State} (h : ∀ t, (f t).live = f t.live) (s : State) :
    (f s.live).live = (f s).live :=
  live_of_factor f h s

/-- An answer with the next state cut down to its live part. -/
def liveOut : Out → Out
  | .next s => .next s.live
  | .fault f => .fault f
  | .refused r => .refused r

/-- The answer, in its live part, is computed from the live part alone. -/
def LiveOnly (f : State → Out) : Prop := ∀ s, liveOut (f s.live) = liveOut (f s)

theorem liveOut_next {s t : State} (h : s.live = t.live) : liveOut (.next s) = liveOut (.next t) :=
  congrArg Host.Outcome.next h

theorem LiveOnly.liveOut_eq {f : State → Out} (hf : LiveOnly f) {s t : State} (h : s.live = t.live) :
    liveOut (f s) = liveOut (f t) := by
  rw [← hf s, ← hf t, h]

/-- Answers with the same live part stop alike, and their next states agree in their live part. -/
theorem stops_alike_of_liveOut_eq {o o' : Out} (h : liveOut o = liveOut o') :
    (∀ s, o = .next s → ∃ t, o' = .next t ∧ s.live = t.live) ∧
    (∀ f, o = .fault f → o' = .fault f) ∧ (∀ r, o = .refused r → o' = .refused r) := by
  cases o <;> cases o' <;> simp_all [liveOut]

/-! ## One after another -/

/-- After a next state, `g` on it; a stop ends it. -/
def thenDo (o : Out) (g : State → Out) : Out :=
  match o with
  | .next s => g s
  | .fault f => .fault f
  | .refused r => .refused r

theorem alongPath_eq_thenDo (f : State → Out) (fs : List (State → Out)) (s : State) :
    alongPath (f :: fs) s = thenDo (f s) (alongPath fs) := by
  simp only [alongPath]
  cases f s <;> rfl

theorem runAll_eq_thenDo (i : Instr) (is : List Instr) (s : State) :
    runAll (i :: is) s = thenDo (exec i s) (runAll is) := by
  simp only [runAll]
  cases exec i s <;> rfl

theorem liveOut_thenDo {o o' : Out} {g : State → Out} (hg : LiveOnly g) (h : liveOut o = liveOut o') :
    liveOut (thenDo o g) = liveOut (thenDo o' g) := by
  obtain ⟨hnext, hfault, hrefused⟩ := stops_alike_of_liveOut_eq h
  cases o with
  | next s =>
    obtain ⟨t, rfl, hlive⟩ := hnext s rfl
    exact hg.liveOut_eq hlive
  | fault f => rw [hfault f rfl]
  | refused r => rw [hrefused r rfl]

theorem LiveOnly.alongPath {path : List (State → Out)} (hpath : ∀ g ∈ path, LiveOnly g) :
    LiveOnly (alongPath path) := by
  induction path with
  | nil => exact fun s => liveOut_next s.live_live
  | cons g gs ih =>
    obtain ⟨hg, hgs⟩ := List.forall_mem_cons.mp hpath
    intro s
    rw [alongPath_eq_thenDo, alongPath_eq_thenDo]
    exact liveOut_thenDo (ih hgs) (hg s)

theorem LiveOnly.runAll {is : List Instr} (his : ∀ i ∈ is, LiveOnly (exec i)) : LiveOnly (runAll is) := by
  induction is with
  | nil => exact fun s => liveOut_next s.live_live
  | cons i is ih =>
    obtain ⟨hi, his⟩ := List.forall_mem_cons.mp his
    intro s
    rw [runAll_eq_thenDo, runAll_eq_thenDo]
    exact liveOut_thenDo (ih his) (hi s)

/-! ## Taking an item -/

theorem takeRaw_live (s : State) : takeRaw s.live = (takeRaw s).map (Prod.map id State.live) := by
  unfold takeRaw
  rw [s.live_rawReady, s.live_rawIn]
  split
  · cases s.rawIn <;> rfl
  · rfl

theorem takeText_live (s : State) : takeText s.live = (takeText s).map (Prod.map id State.live) := by
  unfold takeText
  rw [s.live_txiReady, s.live_textIn]
  split
  · cases s.textIn <;> rfl
  · rfl

theorem takePItem_live (s : State) : takePItem s.live = (takePItem s).map (Prod.map id State.live) := by
  unfold takePItem
  rw [s.live_pitemReady, s.live_pQ]
  split
  · cases s.pQ <;> rfl
  · rfl

/-! ## The parser -/

/-- The parser's registers with the dead ones at 0, as `State.live` has them. -/
def ParRegs.live (r : ParRegs) : ParRegs :=
  { r with
    ndig := if r.pstate = .dig ∨ r.pstate = .fill then r.ndig else 0
    acc := if r.pstate = .dig ∨ r.pstate = .fill then r.acc else 0 }

theorem parRegs_live (s : State) : s.live.parRegs = s.parRegs.live := rfl

/-- R33 (d): `ndig` and `acc` are read in `DIG` and `FILL` only. -/
theorem parStep_live (r : ParRegs) (x : InItem) :
    (parStep r.live x).1.live = (parStep r x).1.live ∧ (parStep r.live x).2 = (parStep r x).2 := by
  obtain ⟨p, n, a⟩ := r
  cases p with
  | hdr => cases x <;> simp [parStep, parStepByte, ParRegs.live]; split <;> simp
  | pfx => cases x <;> simp [parStep, parStepByte, ParRegs.live]; split <;> simp
  | dig => exact ⟨rfl, rfl⟩
  | fill => exact ⟨rfl, rfl⟩

theorem live_afterItem_eq (s : State) (x : InItem) :
    (s.afterItem x).live =
      { s.live with
        pstate := (parStep s.parRegs x).1.live.pstate
        ndig := (parStep s.parRegs x).1.live.ndig
        acc := (parStep s.parRegs x).1.live.acc
        pQ := s.pQ ++ (parStep s.parRegs x).2 } := rfl

theorem live_afterItem (s : State) (x : InItem) : (s.live.afterItem x).live = (s.afterItem x).live := by
  obtain ⟨hregs, hout⟩ := parStep_live s.parRegs x
  rw [live_afterItem_eq, live_afterItem_eq, s.live_live, parRegs_live, hregs, hout]
  rfl

theorem parSelectItem_live (s : State) (x : InItem) : parSelectItem s.live x = parSelectItem s x := by
  cases x with
  | byte b => cases hp : s.pstate <;> simp [parSelectItem, parSelectByte, State.live, hp]
  | eoi => rfl

theorem liveOnly_parRead (i : Instr) : LiveOnly (parRead i) := by
  intro s
  unfold parRead
  rw [takeText_live]
  cases takeText s with
  | none => rfl
  | some y =>
    simp only [Option.map_some, Prod.map, id_eq, parSelectItem_live]
    split
    · exact liveOut_next (live_afterItem y.2 y.1)
    · rfl

theorem liveOnly_parserInput {i : Instr} (hi : i ∈ parserInputs) : LiveOnly (exec i) := by
  rw [show exec i = parRead i from funext (exec_of_mem_parserInputs hi)]
  exact liveOnly_parRead i

theorem liveOnly_readWord (bs : List Byte) {path : List (State → Out)} (hpath : ParserPath path) :
    LiveOnly (readWord bs path) := by
  intro s
  unfold readWord
  rw [s.live_pstate, s.live_textIn]
  split
  · refine LiveOnly.alongPath (fun g hg => ?_) s
    obtain ⟨i, hi, rfl⟩ := hpath g hg
    exact liveOnly_parserInput hi
  · rfl

/-! ## The pair decoder -/

theorem live_emitD (s : State) (ys : List DItem) : (s.live.emitD ys).live = (s.emitD ys).live :=
  live_of_commutes (f := (State.emitD · ys)) (fun _ => rfl) s

theorem live_holdHigh (s : State) (c : Byte) : (s.live.holdHigh c).live = (s.holdHigh c).live :=
  live_of_commutes (f := (State.holdHigh · c)) (fun _ => rfl) s

/-- Dropping the high code makes `hi_code` dead. -/
theorem live_dropHigh_emitD (s : State) (ys : List DItem) :
    (s.live.emitD ys).dropHigh.live = (s.emitD ys).dropHigh.live :=
  live_of_factor (f := fun t => (t.emitD ys).dropHigh) (fun t => { (t.emitD ys).dropHigh with hiCode := 0 })
    (fun _ => rfl) s

theorem liveOnly_joinHeld (c : Byte) {s : State} (h : s.hiValid = true) :
    liveOut (joinHeld c s.live) = liveOut (joinHeld c s) := by
  unfold joinHeld
  rw [live_hiCode h]
  split
  · exact liveOut_next (live_dropHigh_emitD s _)
  · rfl

theorem liveOnly_decAccept (x : PItem) : LiveOnly (decAccept x) := by
  intro s
  unfold decAccept
  rw [s.live_hiValid]
  cases hv : s.hiValid with
  | false =>
    cases x with
    | code c => exact liveOut_next (live_holdHigh s c)
    | err k info => exact liveOut_next (live_emitD s _)
    | fin z => exact liveOut_next (live_emitD s _)
  | true =>
    cases x with
    | code c => exact liveOnly_joinHeld c hv
    | err k info => exact liveOut_next (live_dropHigh_emitD s _)
    | fin z => cases z <;> exact liveOut_next (live_dropHigh_emitD s _)

theorem decSelectItem_live (s : State) (x : PItem) : decSelectItem s.live x = decSelectItem s x := rfl

theorem liveOnly_decTake (i : Instr) : LiveOnly (decTake i) := by
  intro s
  unfold decTake
  rw [takePItem_live]
  cases takePItem s with
  | none => rfl
  | some y =>
    by_cases hsel : decSelectItem s y.1 = i
    · simpa [decSelectItem_live, hsel] using liveOnly_decAccept y.1 y.2
    · simp [decSelectItem_live, hsel]

theorem liveOnly_pDeliver : LiveOnly (exec .pDeliver) := by
  intro s
  simp only [exec, execPDeliver]
  rw [takePItem_live]
  cases takePItem s with
  | none => rfl
  | some y => exact liveOnly_decAccept y.1 y.2

theorem liveOnly_pitem {i : Instr} (hi : i = .pDeliver ∨ i ∈ decoderInputs) : LiveOnly (exec i) := by
  obtain rfl | hi := hi
  · exact liveOnly_pDeliver
  · rw [show exec i = decTake i from funext (exec_of_mem_decoderInputs hi)]
    exact liveOnly_decTake i

theorem liveOnly_execDDeliver : LiveOnly execDDeliver := by
  intro s
  unfold execDDeliver
  rw [s.live_rst, s.live_decReady, s.live_dQ]
  split
  · cases s.dQ with
    | nil => rfl
    | cons x xs =>
      exact liveOut_next (live_of_commutes (f := fun t => { t with dQ := xs, decOut := t.decOut ++ [x] })
        (fun _ => rfl) s)
  · rfl

/-! ## The encoder -/

theorem live_putText {s : State} (c : Byte) (h : s.eBusy = true) : s.live.putText c = (s.putText c).live := by
  simp [State.putText, State.live, State.eCode, h]

theorem advance_of_lt {s : State} (h : s.ePos.toNat + 1 < blkLen s.eCode) :
    s.advance = { s with ePos := s.ePos + 1 } := if_pos h

theorem advance_of_end_high {s : State} (h : ¬ s.ePos.toNat + 1 < blkLen s.eCode) (hhalf : s.eHalf = .high) :
    s.advance = { s with eHalf := .low, ePos := 0 } := by
  simp only [State.advance, h, hhalf, if_false]

theorem advance_of_end_low {s : State} (h : ¬ s.ePos.toNat + 1 < blkLen s.eCode) (hhalf : s.eHalf = .low) :
    s.advance = { s with eBusy := false } := by
  simp only [State.advance, h, hhalf, if_false]

/-- `e_byte`, `e_half` and `e_pos` die with the last byte of the low block (R122). -/
theorem live_advance {s : State} (h : s.eBusy = true) : s.live.advance.live = s.advance.live := by
  obtain ⟨-, hhalf, hpos⟩ := live_encoder h
  have hend : s.live.ePos.toNat + 1 < blkLen s.live.eCode ↔ s.ePos.toNat + 1 < blkLen s.eCode := by
    rw [hpos, live_eCode h]
  by_cases hlt : s.ePos.toNat + 1 < blkLen s.eCode
  · rw [advance_of_lt (hend.mpr hlt), advance_of_lt hlt, hpos]
    exact live_of_factor (f := fun t => { t with ePos := s.ePos + 1 })
      (fun t => { t with ePos := if t.eBusy then s.ePos + 1 else 0 }) (fun _ => rfl) s
  · have hlt' := fun hlive => hlt (hend.mp hlive)
    cases hs : s.eHalf with
    | high =>
      rw [advance_of_end_high hlt' (hhalf.trans hs), advance_of_end_high hlt hs]
      exact live_of_factor (f := fun t => { t with eHalf := .low, ePos := 0 })
        (fun t => { t with eHalf := if t.eBusy then .low else .high, ePos := if t.eBusy then 0 else 0 })
        (fun _ => rfl) s
    | low =>
      rw [advance_of_end_low hlt' (hhalf.trans hs), advance_of_end_low hlt hs]
      exact live_of_factor (f := fun t => { t with eBusy := false })
        (fun t => { t with eBusy := false, eByte := 0, eHalf := .high, ePos := 0 }) (fun _ => rfl) s

theorem liveOnly_execEncByte : LiveOnly execEncByte := by
  intro s
  unfold execEncByte
  rw [takeRaw_live]
  cases takeRaw s with
  | none => rfl
  | some y =>
    obtain ⟨x, s'⟩ := y
    cases x with
    | byte b =>
      exact liveOut_next (live_of_commutes
        (f := fun t => { t with eByte := b, eHalf := .high, ePos := 0, eBusy := true }) (fun _ => rfl) s')
    | eoi => rfl

theorem liveOnly_execEncEoi : LiveOnly execEncEoi := by
  intro s
  unfold execEncEoi
  rw [takeRaw_live]
  cases takeRaw s with
  | none => rfl
  | some y =>
    obtain ⟨x, s'⟩ := y
    cases x with
    | byte b => rfl
    | eoi => exact liveOut_next (live_of_commutes (f := fun t => { t with eEoi := true }) (fun _ => rfl) s')

theorem liveOnly_execEncEmit : LiveOnly execEncEmit := by
  intro s
  unfold execEncEmit
  rw [s.live_rst, s.live_eBusy, s.live_txoReady]
  split
  · rfl
  · rename_i henabled
    have hbusy : s.eBusy = true := by
      simp only [not_or, Bool.not_eq_false] at henabled
      exact henabled.2
    obtain ⟨-, -, hpos⟩ := live_encoder hbusy
    rw [hpos, live_eCode hbusy]
    split
    · exact liveOut_next s.live_live
    · cases serByte s.eCode s.ePos.toNat with
      | none => rfl
      | some c =>
        dsimp only
        rw [live_putText c hbusy]
        exact liveOut_next (live_advance (s := s.putText c) hbusy)

theorem liveOnly_execEncEmitEoi : LiveOnly execEncEmitEoi := by
  intro s
  unfold execEncEmitEoi
  rw [s.live_rst, s.live_eEoi, s.live_txoReady]
  split
  · rfl
  · split
    · exact liveOut_next s.live_live
    · exact liveOut_next (live_of_commutes
        (f := fun t => { t with textOut := t.textOut ++ [.eoi], eEoi := false }) (fun _ => rfl) s)

theorem liveOnly_encoder {i : Instr} (hi : i ∈ encoderTransitions) : LiveOnly (exec i) := by
  simp only [encoderTransitions, List.mem_cons, List.not_mem_nil, or_false] at hi
  obtain rfl | rfl | rfl | rfl := hi
  · exact liveOnly_execEncByte
  · exact liveOnly_execEncEoi
  · exact liveOnly_execEncEmit
  · exact liveOnly_execEncEmitEoi

/-! ## Every instruction of a step, and what selects it -/

theorem liveOnly_exec {i : Instr} (hi : StepInstr i) : LiveOnly (exec i) := by
  cases hi with
  | encoder hi => exact liveOnly_encoder hi
  | parser hi => exact liveOnly_parserInput hi
  | pitem hi => exact liveOnly_pitem hi
  | decOut => exact liveOnly_execDDeliver
  | word hr f =>
    obtain ⟨bs, path, hpath, hexec⟩ := exec_of_mem_wordRows hr f
    rw [hexec]
    exact liveOnly_readWord bs hpath

theorem parSelect_live (s : State) : parSelect s.live = parSelect s := by
  have hbyte : ∀ b, parSelectByte s.live b = parSelectByte s b := fun b => parSelectItem_live s (.byte b)
  unfold parSelect
  simp only [hbyte]
  rfl

theorem agentSelect_live (a : Agent) (s : State) : agentSelect a s.live = agentSelect a s := by
  cases a with
  | enc => rfl
  | par => exact parSelect_live s
  | dec => rfl

theorem wordSelect_live (s : State) : wordSelect s.live = wordSelect s := rfl

theorem clockSelect_live (s : State) : clockSelect s.live = clockSelect s := by
  unfold clockSelect
  rw [parSelect_live]
  rfl

theorem autoSelect_live (s : State) : autoSelect s.live = autoSelect s := by
  unfold autoSelect
  rw [parSelect_live]
  rfl

/-! ## Every turn -/

/-- A rising edge with `rst = 1` leaves the six unspecified registers dead (R290, 93 U12). -/
theorem live_resetRegs (s : State) : s.live.resetRegs.live = s.resetRegs.live := by
  simp [State.live, State.resetRegs]

theorem liveOnly_edge {pick : State → List Instr} (hlive : ∀ s, pick s.live = pick s)
    (hpick : ∀ s, ∀ i ∈ pick s, StepInstr i) : LiveOnly (edge pick) := by
  intro s
  unfold edge
  rw [s.live_rst, hlive]
  split
  · exact liveOut_next (live_resetRegs s)
  · exact LiveOnly.runAll (fun i hi => liveOnly_exec (hpick s i hi)) s

theorem liveOnly_edge_toList {sel : State → Option Instr} (hlive : ∀ s, sel s.live = sel s)
    (hsel : ∀ s i, sel s = some i → StepInstr i) : LiveOnly (edge fun s => (sel s).toList) :=
  liveOnly_edge (fun s => congrArg Option.toList (hlive s)) fun s i hi => hsel s i (Option.mem_toList.mp hi)

theorem liveOnly_withdraw : LiveOnly withdraw := by
  intro s
  unfold withdraw
  rw [s.live_rawIn, s.live_textIn, s.live_rst, s.live_rstPhase]
  split
  · exact liveOut_next s.live_live
  · split
    · exact liveOut_next (live_of_commutes (f := fun t => { t with
        rawIn := [], textIn := [], rstPhase := if t.rstPhase = .taken then .taken else .owed }) (fun _ => rfl) s)
    · rfl

theorem liveOnly_driveRst (level : Bool) : LiveOnly (driveRst level) := by
  intro s
  unfold driveRst
  rw [s.live_rst, s.live_rstPhase]
  split
  · exact liveOut_next (live_of_commutes
      (f := fun t => { t with rst := true, rstPhase := if t.rst then t.rstPhase else .quiet }) (fun _ => rfl) s)
  · split
    · rfl
    · exact liveOut_next (live_of_commutes (f := fun t => { t with rst := false, rstPhase := .quiet })
        (fun _ => rfl) s)

theorem liveOnly_turn (u : Turn) : LiveOnly (turn u) := by
  cases u with
  | agent a => exact liveOnly_edge_toList (agentSelect_live a) fun _ _ => .of_agentSelect
  | word => exact liveOnly_edge_toList wordSelect_live fun _ _ => .of_wordSelect
  | clock => exact liveOnly_edge clockSelect_live fun _ _ => .of_mem_clockSelect
  | send raw text =>
    exact fun s => liveOut_next (live_of_commutes
      (f := fun t => { t with rawIn := t.rawIn ++ raw, textIn := t.textIn ++ text }) (fun _ => rfl) s)
  | ready txo dec =>
    exact fun s => liveOut_next (live_of_commutes (f := fun t => { t with txoReady := txo, decReady := dec })
      (fun _ => rfl) s)
  | reset level => exact liveOnly_driveRst level
  | withdraw => exact liveOnly_withdraw

theorem liveOnly_step : LiveOnly step := by
  intro s
  cases hsched : s.sched with
  | nil =>
    rw [step_of_sched_nil hsched, step_of_sched_nil (s.live_sched.trans hsched)]
    exact liveOnly_edge_toList autoSelect_live (fun _ _ => .of_autoSelect) s
  | cons u us =>
    rw [step_of_sched_cons hsched, step_of_sched_cons (s.live_sched.trans hsched)]
    exact liveOnly_turn u { s with sched := us }

/-! ## The outputs -/

theorem txoOffer_live (s : State) : txoOffer s.live = txoOffer s := by
  unfold txoOffer
  rw [s.live_eBusy, s.live_eEoi]
  cases hbusy : s.eBusy with
  | false => rfl
  | true =>
    obtain ⟨-, -, hpos⟩ := live_encoder hbusy
    rw [hpos, live_eCode hbusy]

theorem ecodeTap_live (s : State) : ecodeTap s.live = ecodeTap s := by
  unfold ecodeTap
  rw [s.live_eBusy, s.live_eEoi, s.live_txoReady]
  cases hbusy : s.eBusy with
  | false => rfl
  | true =>
    obtain ⟨-, -, hpos⟩ := live_encoder hbusy
    rw [hpos, live_eCode hbusy]

theorem outPins_live (s : State) : outPins s.live = outPins s := by
  unfold outPins
  rw [txoOffer_live, ecodeTap_live]
  rfl

/-- Settles O57: outputs and step see the live part only, so states with the same live part cannot be told apart. -/
theorem deadRegistersAreNeverRead : Obligations.DeadRegistersAreNeverRead := by
  intro s t hlive
  have hpins : outPins s = outPins t := by rw [← outPins_live s, ← outPins_live t, hlive]
  exact ⟨hpins, stops_alike_of_liveOut_eq (liveOnly_step.liveOut_eq hlive)⟩

end Sys2Proof.Machine
end

/-! PROOFS. Everything a step can do, in terms of moves: one relation per agent says what its move reads and writes
(20_memory.md R52, R54), and an edge is a sequence of such moves. -/

namespace Sys2Proof.Machine

/-! ## The moves of an edge -/

/-- A move of the encoder (table at the start of 42_encoder.md), with what its row of the table says of the registers. -/
inductive EncMove (s : State) : State → Prop
  | takeByte {b : Byte} {xs : List InItem} (hbusy : s.eBusy = false) (heoi : s.eEoi = false)
      (hraw : s.rawIn = .byte b :: xs) :
      EncMove s { s with rawIn := xs, eByte := b, eHalf := .high, ePos := 0, eBusy := true }
  | takeEoi {xs : List InItem} (hbusy : s.eBusy = false) (heoi : s.eEoi = false) (hraw : s.rawIn = .eoi :: xs) :
      EncMove s { s with rawIn := xs, eEoi := true }
  | wait (hraw : s.rawReady = false) (hready : s.txoReady = false) : EncMove s s
  | emit {c : Byte} (hbusy : s.eBusy = true) (heoi : s.eEoi = false) (hready : s.txoReady = true)
      (hc : serByte s.eCode s.ePos.toNat = some c) : EncMove s (s.putText c).advance
  | emitEoi (hbusy : s.eBusy = false) (heoi : s.eEoi = true) (hready : s.txoReady = true) :
      EncMove s { s with textOut := s.textOut ++ [.eoi], eEoi := false }

/-- A move of the parser: it reads an item of `TEXT_IN` (R159), or the joint transfer on `PITEM` (R158, log 7). -/
inductive ParMove (s : State) : State → Prop
  | read {x : InItem} {xs : List InItem} (hq : s.pQ = []) (htext : s.textIn = x :: xs) :
      ParMove s ({ s with textIn := xs }.afterItem x)
  | deliver {x : PItem} {xs : List PItem} {t : State} (hd : s.dQ = []) (hq : s.pQ = x :: xs)
      (haccept : decAccept x { s with pQ := xs, pitem := s.pitem ++ [x] } = .next t) : ParMove s t

/-- `D.DELIVER` (R228). -/
inductive OutMove (s : State) : State → Prop
  | deliver {x : DItem} {xs : List DItem} (hready : s.decReady = true) (hd : s.dQ = x :: xs) :
      OutMove s { s with dQ := xs, decOut := s.decOut ++ [x] }

/-- What can happen at one edge with `rst = 0`, whoever moves: at most one move of the encoder, some moves of the parser
(a wire word is several, log 19), at most one `D.DELIVER`. -/
def EdgeMove (s t : State) : Prop :=
  ∃ u v, Relation.ReflGen EncMove s u ∧ Relation.ReflTransGen ParMove u v ∧ Relation.ReflGen OutMove v t

theorem EdgeMove.refl (s : State) : EdgeMove s s := ⟨s, s, .refl, .refl, .refl⟩

theorem EdgeMove.of_enc {s t : State} (h : EncMove s t) : EdgeMove s t := ⟨t, t, .single h, .refl, .refl⟩

theorem EdgeMove.of_par {s t : State} (h : Relation.ReflTransGen ParMove s t) : EdgeMove s t :=
  ⟨s, t, .refl, h, .refl⟩

theorem EdgeMove.of_out {s t : State} (h : OutMove s t) : EdgeMove s t := ⟨s, s, .refl, .refl, .single h⟩

/-! ## What the selection tables pick is such a move -/

theorem encMove_of_encSelect {s t : State} {i : Instr} (hi : encSelect s = some i) (h : exec i s = .next t) :
    EncMove s t := by
  unfold encSelect at hi
  split at hi <;> cases hi
  · rename_i hbusy heoi hraw
    obtain ⟨b, s', htake, rfl⟩ := execEncByte_eq_next.mp h
    obtain ⟨-, xs, hraw, rfl⟩ := takeRaw_eq_some.mp htake
    exact .takeByte hbusy heoi hraw
  · rename_i hbusy heoi hraw
    obtain ⟨s', htake, rfl⟩ := execEncEoi_eq_next.mp h
    obtain ⟨-, xs, hraw, rfl⟩ := takeRaw_eq_some.mp htake
    exact .takeEoi hbusy heoi hraw
  · rename_i hbusy heoi
    obtain ⟨-, -, ⟨hready, rfl⟩ | ⟨hready, c, hc, rfl⟩⟩ := execEncEmit_eq_next h
    · exact .wait (by simp [State.rawReady, hbusy]) hready
    · exact .emit hbusy heoi hready hc
  · rename_i hbusy heoi
    obtain ⟨-, -, ⟨hready, rfl⟩ | ⟨hready, rfl⟩⟩ := execEncEmitEoi_eq_next h
    · exact .wait (by simp [State.rawReady, heoi]) hready
    · exact .emitEoi hbusy heoi hready

theorem parMove_of_input {s t : State} {i : Instr} (hi : i ∈ parserInputs) (h : exec i s = .next t) :
    ParMove s t := by
  rw [exec_of_mem_parserInputs hi] at h
  obtain ⟨x, s', htake, -, rfl⟩ := parRead_eq_next.mp h
  obtain ⟨hready, xs, htext, rfl⟩ := takeText_eq_some.mp htake
  exact .read (txiReady_iff.mp hready).2 htext

theorem parMove_of_pitem {s t : State} {i : Instr} (hi : i = .pDeliver ∨ i ∈ decoderInputs)
    (h : exec i s = .next t) : ParMove s t := by
  obtain ⟨x, s', htake, haccept⟩ := exec_pitem_eq_next hi h
  obtain ⟨hready, xs, hq, rfl⟩ := takePItem_eq_some.mp htake
  exact .deliver (pitemReady_iff.mp hready).2 hq haccept

theorem parMoves_of_alongPath {path : List (State → Out)} (hpath : ParserPath path) {s t : State}
    (h : alongPath path s = .next t) : Relation.ReflTransGen ParMove s t := by
  induction path generalizing s with
  | nil => cases h; exact .refl
  | cons g gs ih =>
    obtain ⟨⟨i, hi, rfl⟩, hgs⟩ := List.forall_mem_cons.mp hpath
    obtain ⟨s', hs', hrest⟩ := alongPath_cons.mp h
    exact (ih hgs hrest).head (parMove_of_input hi hs')

theorem parMoves_of_wordSelect {s t : State} {i : Instr} (hi : wordSelect s = some i) (h : exec i s = .next t) :
    Relation.ReflTransGen ParMove s t := by
  obtain ⟨-, -, rest, hdecode⟩ := wordSelect_eq_some hi
  obtain ⟨r, hr, f, rfl, -⟩ := decode_eq_ok hdecode
  obtain ⟨bs, path, hpath, hexec⟩ := exec_of_mem_wordRows hr f
  rw [hexec, readWord] at h
  split at h
  · exact parMoves_of_alongPath hpath h
  · cases h

theorem parSelect_mem {s : State} {i : Instr} (h : parSelect s = some i) : i ∈ parserInputs ∨ i = .pDeliver := by
  unfold parSelect at h
  split at h
  · split at h <;> cases h
    · exact .inl (parSelectByte_mem s _)
    · exact .inl (parSelectEoi_mem s)
  · split at h <;> cases h
    exact .inr rfl

/-- The parser's choice may have been made before the encoder moved: only its name matters. -/
theorem parMove_of_parSelect {s u v : State} {i : Instr} (hi : parSelect s = some i) (h : exec i u = .next v) :
    ParMove u v := by
  obtain hinput | rfl := parSelect_mem hi
  · exact parMove_of_input hinput h
  · exact parMove_of_pitem (.inl rfl) h

theorem outMove_of_decOutSelect {s v t : State} {i : Instr} (hi : decOutSelect s = some i) (h : exec i v = .next t) :
    OutMove v t := by
  obtain ⟨rfl, -⟩ := decOutSelect_eq_some.mp hi
  obtain ⟨-, hready, x, xs, hd, rfl⟩ := execDDeliver_eq_next h
  exact .deliver hready hd

theorem edgeMove_of_decSelect {s t : State} {i : Instr} (hi : decSelect s = some i) (h : exec i s = .next t) :
    EdgeMove s t := by
  unfold decSelect at hi
  split at hi
  · cases hi
    exact .of_par (.single (parMove_of_pitem (.inr (decSelectItem_mem s _)) h))
  · cases hi
  · exact .of_out (outMove_of_decOutSelect hi h)

theorem edgeMove_of_agentSelect {a : Agent} {s t : State} {i : Instr} (hi : agentSelect a s = some i)
    (h : exec i s = .next t) : EdgeMove s t := by
  cases a with
  | enc => exact .of_enc (encMove_of_encSelect hi h)
  | par => exact .of_par (.single (parMove_of_parSelect hi h))
  | dec => exact edgeMove_of_decSelect hi h

theorem edgeMove_of_autoSelect {s t : State} {i : Instr} (hi : autoSelect s = some i) (h : exec i s = .next t) :
    EdgeMove s t := by
  simp only [autoSelect, Option.or_eq_some_iff] at hi
  obtain (hword | ⟨-, hpar⟩) | ⟨-, hdec | ⟨-, henc⟩⟩ := hi
  · exact .of_par (parMoves_of_wordSelect hword h)
  · exact edgeMove_of_agentSelect (a := .par) hpar h
  · exact edgeMove_of_agentSelect (a := .dec) hdec h
  · exact edgeMove_of_agentSelect (a := .enc) henc h

/-- Running a selection: the one instruction, or nothing. -/
theorem runAll_toList_eq_next {sel : Option Instr} {s t : State} (h : runAll sel.toList s = .next t) :
    (sel = none ∧ t = s) ∨ ∃ i, sel = some i ∧ exec i s = .next t := by
  cases sel with
  | none => cases h; exact .inl ⟨rfl, rfl⟩
  | some i => exact .inr ⟨i, rfl, by simpa using h⟩

theorem runAll_append_eq_next {is js : List Instr} {s t : State} (h : runAll (is ++ js) s = .next t) :
    ∃ u, runAll is s = .next u ∧ runAll js u = .next t := by
  induction is generalizing s with
  | nil => exact ⟨s, rfl, h⟩
  | cons i is ih =>
    obtain ⟨s', hi, hrest⟩ := runAll_cons.mp h
    obtain ⟨u, his, hjs⟩ := ih hrest
    exact ⟨u, runAll_cons.mpr ⟨s', hi, his⟩, hjs⟩

/-- An edge at which every agent moves (R52), taken apart by agent. -/
theorem runAll_clockSelect_eq_next {s t : State} (h : runAll (clockSelect s) s = .next t) :
    ∃ u v, runAll (encSelect s).toList s = .next u ∧ runAll (parSelect s).toList u = .next v ∧
      runAll (decOutSelect s).toList v = .next t := by
  obtain ⟨v, hfirst, hout⟩ := runAll_append_eq_next h
  obtain ⟨u, henc, hpar⟩ := runAll_append_eq_next hfirst
  exact ⟨u, v, henc, hpar, hout⟩

theorem encTurn_of_runAll {s u : State} (h : runAll (encSelect s).toList s = .next u) :
    Relation.ReflGen EncMove s u := by
  obtain ⟨-, rfl⟩ | ⟨i, hi, hexec⟩ := runAll_toList_eq_next h
  · exact .refl
  · exact .single (encMove_of_encSelect hi hexec)

theorem parTurn_of_runAll {s u v : State} (h : runAll (parSelect s).toList u = .next v) :
    Relation.ReflTransGen ParMove u v := by
  obtain ⟨-, rfl⟩ | ⟨i, hi, hexec⟩ := runAll_toList_eq_next h
  · exact .refl
  · exact .single (parMove_of_parSelect hi hexec)

theorem outTurn_of_runAll {s v t : State} (h : runAll (decOutSelect s).toList v = .next t) :
    Relation.ReflGen OutMove v t := by
  obtain ⟨-, rfl⟩ | ⟨i, hi, hexec⟩ := runAll_toList_eq_next h
  · exact .refl
  · exact .single (outMove_of_decOutSelect hi hexec)

theorem edgeMove_of_clockSelect {s t : State} (h : runAll (clockSelect s) s = .next t) : EdgeMove s t := by
  obtain ⟨u, v, henc, hpar, hout⟩ := runAll_clockSelect_eq_next h
  exact ⟨u, v, encTurn_of_runAll henc, parTurn_of_runAll hpar, outTurn_of_runAll hout⟩

/-! ## The step -/

/-- The state as its next turn finds it: the turn is off the schedule. -/
def State.popTurn (s : State) : State := { s with sched := s.sched.tail }

theorem edge_toList_eq_next {sel : State → Option Instr} {s t : State} (hrst : s.rst = false)
    (hsel : ∀ i, sel s = some i → exec i s = .next t → EdgeMove s t)
    (h : edge (fun s => (sel s).toList) s = .next t) : EdgeMove s t := by
  simp only [edge, hrst] at h
  obtain ⟨-, rfl⟩ | ⟨i, hi, hexec⟩ := runAll_toList_eq_next h
  · exact .refl _
  · exact hsel i hi hexec

theorem turn_eq_next {u : Turn} {s t : State} (hrst : s.rst = false) (h : turn u s = .next t) :
    EdgeMove s t ∨ u.byHost = true := by
  cases u with
  | agent a => exact .inl (edge_toList_eq_next hrst (fun _ => edgeMove_of_agentSelect) h)
  | word => exact .inl (edge_toList_eq_next hrst (fun _ hi hexec => .of_par (parMoves_of_wordSelect hi hexec)) h)
  | clock => exact .inl (edgeMove_of_clockSelect (by simpa [turn, edge, hrst] using h))
  | send _ _ => exact .inr rfl
  | ready _ _ => exact .inr rfl
  | reset _ => exact .inr rfl
  | withdraw => exact .inr rfl

/-- Everything a step with `rst = 0` can do: the moves of an edge, or the host acts. -/
theorem step_eq_next {s t : State} (hrst : s.rst = false) (h : step s = .next t) :
    EdgeMove s.popTurn t ∨
      ∃ u, s.sched.head? = some u ∧ u.byHost = true ∧ turn u s.popTurn = .next t := by
  cases hsched : s.sched with
  | nil =>
    rw [step_of_sched_nil hsched] at h
    have hpop : s.popTurn = s := by rw [State.popTurn, hsched, List.tail_nil, ← hsched]
    rw [hpop]
    exact .inl (edge_toList_eq_next hrst (fun _ => edgeMove_of_autoSelect) h)
  | cons u us =>
    rw [step_of_sched_cons hsched] at h
    have hpop : s.popTurn = { s with sched := us } := by rw [State.popTurn, hsched, List.tail_cons]
    rw [hpop]
    obtain hedge | hhost := turn_eq_next (s := { s with sched := us }) hrst h
    · exact .inl hedge
    · exact .inr ⟨u, rfl, hhost, h⟩

/-- Everything a quiet step with `rst = 0` can do: the moves of an edge, or the host drives the ready pins. -/
theorem quietStep_eq_next {s t : State} (hrst : s.rst = false) (hquiet : QuietNext s) (h : step s = .next t) :
    EdgeMove s.popTurn t ∨ ∃ x d, t = { s.popTurn with txoReady := x, decReady := d } := by
  obtain hedge | ⟨u, hu, hhost, hturn⟩ := step_eq_next hrst h
  · exact .inl hedge
  · have hq := hquiet u hu
    cases u with
    | ready x d => cases hturn; exact .inr ⟨x, d, rfl⟩
    | send _ _ => cases hq
    | reset _ => cases hq
    | withdraw => cases hq
    | agent _ => cases hhost
    | word => cases hhost
    | clock => cases hhost

/-! ## What each move leaves alone -/

/-- The encoder writes its own registers and streams only (R20). -/
theorem EncMove.frame {s t : State} (h : EncMove s t) :
    t = { s with
      rawIn := t.rawIn, textOut := t.textOut, ecode := t.ecode, eBusy := t.eBusy, eByte := t.eByte, eHalf := t.eHalf,
      ePos := t.ePos, eEoi := t.eEoi } := by
  cases h with
  | takeByte => rfl
  | takeEoi => rfl
  | wait => rfl
  | emit =>
    unfold State.advance
    split
    · rfl
    · split <;> rfl
  | emitEoi => rfl

/-- The pair decoder, accepting an item, does what `dstep` of R229 says to its registers and to `d_q`. -/
theorem decAccept_eq_decStep {x : PItem} {s t : State} (h : decAccept x s = .next t) :
    t = { s with hiValid := t.hiValid, hiCode := t.hiCode, dQ := s.dQ ++ (decStep s.held x).2 } ∧
      t.held = (decStep s.held x).1 := by
  obtain ⟨hv, c, rfl, rfl⟩ | ⟨hv, k, info, rfl, rfl⟩ | ⟨hv, z, rfl, rfl⟩ | ⟨hv, c, rfl, -, -, rfl⟩ |
    ⟨hv, k, info, rfl, rfl⟩ | ⟨hv, rfl, rfl⟩ | ⟨hv, rfl, rfl⟩ := decAccept_eq_next h
  all_goals simp [State.held, hv, decStep, State.emitD, State.dropHigh, State.holdHigh]

/-- The parser and its transfers to the pair decoder write the registers and streams of those two only (R20). -/
theorem ParMove.frame {s t : State} (h : ParMove s t) :
    t = { s with
      textIn := t.textIn, pstate := t.pstate, ndig := t.ndig, acc := t.acc, pQ := t.pQ, hiValid := t.hiValid,
      hiCode := t.hiCode, dQ := t.dQ, pitem := t.pitem } := by
  cases h with
  | read => rfl
  | deliver hd hq haccept =>
    obtain ⟨hframe, -⟩ := decAccept_eq_decStep haccept
    rw [hframe]

/-- `D.DELIVER` writes `d_q` and its stream only (R228). -/
theorem OutMove.frame {s t : State} (h : OutMove s t) : t = { s with dQ := t.dQ, decOut := t.decOut } := by
  cases h; rfl

/-- The host writes its pins and what it offers only (R50). -/
theorem turn_frame_of_byHost {u : Turn} {s t : State} (hu : u.byHost = true) (h : turn u s = .next t) :
    t = { s with
      rst := t.rst, txoReady := t.txoReady, decReady := t.decReady, rawIn := t.rawIn, textIn := t.textIn,
      rstPhase := t.rstPhase } := by
  cases u with
  | agent _ => cases hu
  | word => cases hu
  | clock => cases hu
  | send _ _ => cases h; rfl
  | ready _ _ => cases h; rfl
  | reset level => obtain ⟨-, rfl⟩ | ⟨-, -, rfl⟩ := driveRst_eq_next.mp h <;> rfl
  | withdraw => obtain ⟨-, -, rfl⟩ | ⟨-, -, rfl⟩ := withdraw_eq_next.mp h <;> rfl

/-- The moves `R` leave what `q` observes alone. -/
def Keeps {α : Type} (R : State → State → Prop) (q : State → α) : Prop := ∀ ⦃s t⦄, R s t → q t = q s

section
variable {α : Type} {R : State → State → Prop} {q : State → α}

theorem Keeps.reflTransGen (hR : Keeps R q) : Keeps (Relation.ReflTransGen R) q := by
  intro s t h
  induction h with
  | refl => rfl
  | tail _ hlast ih => exact (hR hlast).trans ih

theorem Keeps.reflGen (hR : Keeps R q) : Keeps (Relation.ReflGen R) q :=
  fun _ _ h => hR.reflTransGen h.to_reflTransGen

theorem keeps_edgeMove (henc : Keeps EncMove q) (hpar : Keeps ParMove q) (hout : Keeps OutMove q) :
    Keeps EdgeMove q := by
  rintro s t ⟨u, v, hu, hv, ht⟩
  rw [hout.reflGen ht, hpar.reflTransGen hv, henc.reflGen hu]

/-- What the moves and the ready pins leave alone, a quiet step leaves alone. -/
theorem quietStep_keeps (hedge : Keeps EdgeMove q)
    (hpins : ∀ (s : State) ts x d, q { s with sched := ts, txoReady := x, decReady := d } = q s) {s t : State}
    (hrst : s.rst = false) (hquiet : QuietNext s) (h : step s = .next t) : q t = q s := by
  obtain hmove | ⟨x, d, rfl⟩ := quietStep_eq_next hrst hquiet h
  · exact (hedge hmove).trans (hpins s s.sched.tail s.txoReady s.decReady)
  · exact hpins s s.sched.tail x d

end

theorem edgeMove_rst : Keeps EdgeMove State.rst :=
  keeps_edgeMove (fun _ _ h => by rw [h.frame]) (fun _ _ h => by rw [h.frame]) (fun _ _ h => by rw [h.frame])

theorem edgeMove_sched : Keeps EdgeMove State.sched :=
  keeps_edgeMove (fun _ _ h => by rw [h.frame]) (fun _ _ h => by rw [h.frame]) (fun _ _ h => by rw [h.frame])

theorem rst_quietStep {s t : State} (hrst : s.rst = false) (hquiet : QuietNext s) (h : step s = .next t) :
    t.rst = s.rst :=
  quietStep_keeps edgeMove_rst (fun _ _ _ _ => rfl) hrst hquiet h

/-- A quiet step takes one turn off the schedule. -/
theorem sched_quietStep {s t : State} (hrst : s.rst = false) (hquiet : QuietNext s) (h : step s = .next t) :
    t.sched = s.sched.tail := by
  obtain hmove | ⟨x, d, rfl⟩ := quietStep_eq_next hrst hquiet h
  · exact edgeMove_sched hmove
  · rfl

end Sys2Proof.Machine

/-! PROOFS. 20_memory.md R61, R62: what each path has carried, holds and will carry does not change, so the streams do not
depend on the schedule. -/

namespace Sys2Proof.Machine

/-! ## The decode path -/

/-- What `PITEM` and `DEC_OUT` have carried, hold and will carry. -/
def State.decodePath (s : State) : List PItem × List DItem := (s.pitemAll, s.decAll)

/-- Reading an item turns what was to come of it into what is queued (R159). -/
theorem decodePath_afterItem {s : State} {x : InItem} {xs : List InItem} (htext : s.textIn = x :: xs) :
    ({ s with textIn := xs }.afterItem x).decodePath = s.decodePath := by
  have hcome : parseItems s.parRegs s.textIn = (parStep s.parRegs x).2 ++ parseItems (parStep s.parRegs x).1 xs := by
    rw [htext, parseItems]
  refine Prod.ext
    (?_ : s.pitem ++ (s.pQ ++ (parStep s.parRegs x).2) ++ parseItems (parStep s.parRegs x).1 xs = s.pitemAll)
    (?_ : s.decOut ++ s.dQ ++
      decodeItems s.held (s.pQ ++ (parStep s.parRegs x).2 ++ parseItems (parStep s.parRegs x).1 xs) = s.decAll)
  · simp only [State.pitemAll, hcome, List.append_assoc]
  · simp only [State.decAll, hcome, List.append_assoc]

/-- The joint transfer turns the head of `p_q` into what `dstep` of R229 makes of it. -/
theorem decodePath_deliver {s t : State} {x : PItem} {xs : List PItem} (hq : s.pQ = x :: xs)
    (haccept : decAccept x { s with pQ := xs, pitem := s.pitem ++ [x] } = .next t) :
    t.decodePath = s.decodePath := by
  obtain ⟨hframe, hheld⟩ := decAccept_eq_decStep haccept
  have hpitem : t.pitemAll = s.pitem ++ [x] ++ xs ++ parseItems s.parRegs s.textIn := by rw [hframe]; rfl
  have hdec : t.decAll = s.decOut ++ (s.dQ ++ (decStep s.held x).2) ++
      decodeItems t.held (xs ++ parseItems s.parRegs s.textIn) := by rw [hframe]; rfl
  refine Prod.ext (hpitem.trans ?_) (hdec.trans ?_)
  · simp [State.decodePath, State.pitemAll, hq]
  · rw [hheld]
    simp [State.decodePath, State.decAll, hq, decodeItems, State.held]

theorem decodePath_encMove : Keeps EncMove State.decodePath := by
  intro s t h
  rw [h.frame]; rfl

theorem decodePath_parMove : Keeps ParMove State.decodePath := by
  intro s t h
  cases h with
  | read _ htext => exact decodePath_afterItem htext
  | deliver _ hq haccept => exact decodePath_deliver hq haccept

theorem decodePath_outMove : Keeps OutMove State.decodePath := by
  intro s t h
  obtain ⟨-, hd⟩ := h
  simp [State.decodePath, State.pitemAll, State.decAll, State.parRegs, State.held, hd]

theorem decodePath_quietStep {s t : State} (hrst : s.rst = false) (hquiet : QuietNext s) (h : step s = .next t) :
    t.decodePath = s.decodePath :=
  quietStep_keeps (keeps_edgeMove decodePath_encMove decodePath_parMove decodePath_outMove) (fun _ _ _ _ => rfl)
    hrst hquiet h

/-- Settles O50: every move of an edge keeps what the decode path carries in all, and the ready pins are no part of
it. -/
theorem decodePathIsConserved : Obligations.DecodePathIsConserved := fun _ _ hrst hquiet h =>
  Prod.mk.inj (decodePath_quietStep hrst hquiet h)

/-! ## The encode path -/

/-- What `TEXT_OUT` and `ECODE` have carried, owe and will carry. -/
def State.encodePath (s : State) : List InItem × List Byte := (s.textAll, s.codesAll)

theorem encodePath_takeByte {s : State} {b : Byte} {xs : List InItem} (hbusy : s.eBusy = false)
    (heoi : s.eEoi = false) (hraw : s.rawIn = .byte b :: xs) :
    { s with rawIn := xs, eByte := b, eHalf := .high, ePos := 0, eBusy := true }.encodePath = s.encodePath := by
  simp [State.encodePath, State.textAll, State.codesAll, State.textOwed, State.codesOwed, State.eCode, hbusy, heoi,
    hraw, encodeItems, encodeItem, encodeText, encodeCodes, pairIter, pairFromByte, payload]

theorem encodePath_takeEoi {s : State} {xs : List InItem} (hbusy : s.eBusy = false)
    (heoi : s.eEoi = false) (hraw : s.rawIn = .eoi :: xs) :
    { s with rawIn := xs, eEoi := true }.encodePath = s.encodePath := by
  simp [State.encodePath, State.textAll, State.codesAll, State.textOwed, State.codesOwed, hbusy, heoi,
    hraw, encodeItems, encodeItem, payload]

theorem encodePath_emitEoi {s : State} (hbusy : s.eBusy = false) (heoi : s.eEoi = true) :
    { s with textOut := s.textOut ++ [InItem.eoi], eEoi := false }.encodePath = s.encodePath := by
  simp [State.encodePath, State.textAll, State.codesAll, State.textOwed, State.codesOwed, hbusy, heoi]

/-- The text owed begins with the byte at `e_pos`. -/
theorem render_drop_of_serByte {s : State} {c : Byte} (hc : serByte s.eCode s.ePos.toNat = some c) :
    (render s.eCode).drop s.ePos.toNat = c :: (render s.eCode).drop (s.ePos.toNat + 1) := by
  obtain ⟨hlt, hget⟩ := List.getElem?_eq_some_iff.mp hc
  rw [List.drop_eq_getElem_cons hlt, hget]

/-- The byte that moves is the first that was owed (R122). -/
theorem textOwed_advance {s : State} {c : Byte} (hbusy : s.eBusy = true)
    (hc : serByte s.eCode s.ePos.toNat = some c) : s.textOwed = c :: s.advance.textOwed := by
  by_cases hlt : s.ePos.toNat + 1 < blkLen s.eCode
  · have hpos : (s.ePos + 1).toNat = s.ePos.toNat + 1 := by
      obtain ⟨-, hlen⟩ := blkLen_bounds s.eCode
      rw [BitVec.toNat_add]
      exact Nat.mod_eq_of_lt (by simp; omega)
    rw [advance_of_lt hlt]
    simp only [State.textOwed, hbusy, if_true, render_drop_of_serByte hc, hpos, List.cons_append]
    rfl
  · have hend : (render s.eCode).drop (s.ePos.toNat + 1) = [] :=
      List.drop_eq_nil_of_le (by rw [length_render_eCode]; omega)
    have howed : (render s.eCode).drop s.ePos.toNat = [c] := by rw [render_drop_of_serByte hc, hend]
    cases hhalf : s.eHalf with
    | high =>
      rw [advance_of_end_high hlt hhalf]
      simp only [State.textOwed, hbusy, howed, hhalf, if_true, List.append_nil]
      rfl
    | low =>
      rw [advance_of_end_low hlt hhalf]
      simp only [State.textOwed, hbusy, howed, hhalf, if_true]
      rfl

theorem six_le_blkLen (c : Byte) : 6 ≤ blkLen c := by
  unfold blkLen; split <;> decide

/-- At position 0 of a block its Code is the first that was owed; elsewhere the tap shows none (R125). -/
theorem codesOwed_advance {s : State} (hbusy : s.eBusy = true) :
    s.codesOwed = (if s.ePos = 0 then [s.eCode] else []) ++ s.advance.codesOwed := by
  by_cases hlt : s.ePos.toNat + 1 < blkLen s.eCode
  · have hpos : s.ePos + 1 ≠ 0 := by
      obtain ⟨-, hlen⟩ := blkLen_bounds s.eCode
      have hlt7 : s.ePos.toNat + 1 < 7 := by omega
      bv_omega
    rw [advance_of_lt hlt]
    simp only [State.codesOwed, hbusy, if_true, if_neg hpos]
    rfl
  · have hpos : s.ePos ≠ 0 := by
      intro hzero
      have hlen := six_le_blkLen s.eCode
      rw [hzero] at hlt
      exact hlt (lt_of_lt_of_le (by decide) hlen)
    cases hhalf : s.eHalf with
    | high =>
      rw [advance_of_end_high hlt hhalf]
      simp only [State.codesOwed, hbusy, if_true, if_neg hpos, hhalf]
      rfl
    | low =>
      rw [advance_of_end_low hlt hhalf]
      simp only [State.codesOwed, hbusy, if_true, if_neg hpos, hhalf]
      rfl

theorem encodePath_emit {s : State} {c : Byte} (hbusy : s.eBusy = true)
    (hc : serByte s.eCode s.ePos.toNat = some c) : (s.putText c).advance.encodePath = s.encodePath := by
  have htext : s.textOwed = c :: (s.putText c).advance.textOwed := textOwed_advance (s := s.putText c) hbusy hc
  have hcodes : s.codesOwed = (if s.ePos = 0 then [s.eCode] else []) ++ (s.putText c).advance.codesOwed :=
    codesOwed_advance (s := s.putText c) hbusy
  have hshown : (s.putText c).advance.ecode = s.ecode ++ (if s.ePos = 0 then [s.eCode] else []) := by
    rw [State.advance_ecode, State.putText_ecode]
    split <;> simp
  refine Prod.ext ?_ ?_
  · simp [State.encodePath, State.textAll, htext]
  · simp only [State.encodePath, State.codesAll, hcodes, hshown, List.append_assoc]
    simp

theorem encodePath_encMove : Keeps EncMove State.encodePath := by
  intro s t h
  cases h with
  | takeByte hbusy heoi hraw => exact encodePath_takeByte hbusy heoi hraw
  | takeEoi hbusy heoi hraw => exact encodePath_takeEoi hbusy heoi hraw
  | wait => rfl
  | emit hbusy _ _ hc => exact encodePath_emit hbusy hc
  | emitEoi hbusy heoi => exact encodePath_emitEoi hbusy heoi

theorem encodePath_parMove : Keeps ParMove State.encodePath := by
  intro s t h
  rw [h.frame]; rfl

theorem encodePath_outMove : Keeps OutMove State.encodePath := by
  intro s t h
  rw [h.frame]; rfl

theorem encodePath_quietStep {s t : State} (hrst : s.rst = false) (hquiet : QuietNext s) (h : step s = .next t) :
    t.encodePath = s.encodePath :=
  quietStep_keeps (keeps_edgeMove encodePath_encMove encodePath_parMove encodePath_outMove) (fun _ _ _ _ => rfl)
    hrst hquiet h

/-- Settles O51: every move of the encoder keeps what the encode path carries in all, and no other move touches it. -/
theorem encodePathIsConserved : Obligations.EncodePathIsConserved := fun _ _ hrst hquiet h =>
  Prod.mk.inj (encodePath_quietStep hrst hquiet h)

/-! ## Runs -/

theorem State.quiet_iff {s : State} : s.quiet = true ↔ ∀ u ∈ s.sched, u.quiet = true := by
  simp [State.quiet]

theorem quietNext_of_quiet {s : State} (h : s.quiet = true) : QuietNext s :=
  fun u hu => State.quiet_iff.mp h u (List.mem_of_mem_head? hu)

theorem core_run_succ {n : Nat} {s t : State} (h : core.run (n + 1) s = .next t) :
    ∃ u, step s = .next u ∧ core.run n u = .next t := by
  simp only [Host.Core.run] at h
  split at h
  · exact ⟨_, ‹_›, h⟩
  · cases h
  · cases h

/-- A run under a quiet schedule keeps what both paths carry in all. -/
theorem paths_of_run {n : Nat} {s t : State} (hrst : s.rst = false) (hquiet : s.quiet = true)
    (h : core.run n s = .next t) : t.decodePath = s.decodePath ∧ t.encodePath = s.encodePath := by
  induction n generalizing s with
  | zero => cases h; exact ⟨rfl, rfl⟩
  | succ n ih =>
    obtain ⟨u, hstep, hrun⟩ := core_run_succ h
    have hnext := quietNext_of_quiet hquiet
    have hrst' : u.rst = false := (rst_quietStep hrst hnext hstep).trans hrst
    have hquiet' : u.quiet = true := by
      rw [State.quiet_iff, sched_quietStep hrst hnext hstep]
      exact fun v hv => State.quiet_iff.mp hquiet v (List.mem_of_mem_tail hv)
    obtain ⟨hdec, henc⟩ := ih hrst' hquiet' hrun
    exact ⟨hdec.trans (decodePath_quietStep hrst hnext hstep), henc.trans (encodePath_quietStep hrst hnext hstep)⟩

theorem State.pitem_prefix (s : State) : s.pitem <+: s.decodePath.1 := by
  simp [State.decodePath, State.pitemAll, List.append_assoc]

theorem State.decOut_prefix (s : State) : s.decOut <+: s.decodePath.2 := by
  simp [State.decodePath, State.decAll, List.append_assoc]

theorem State.textOut_prefix (s : State) : s.textOut <+: s.encodePath.1 := by
  simp [State.encodePath, State.textAll, List.append_assoc]

theorem State.ecode_prefix (s : State) : s.ecode <+: s.encodePath.2 := by
  simp [State.encodePath, State.codesAll, List.append_assoc]

/-- Settles O52: both runs carry in all what the state they start from will carry, so what each has carried so far is a
beginning of the same list. -/
theorem streamsDoNotDependOnTheSchedule : Obligations.StreamsDoNotDependOnTheSchedule := by
  intro s a b m n p q w x y z hrst hp hq ha hb
  obtain ⟨hdecA, hencA⟩ := paths_of_run (s := { s with sched := p, txoReady := w, decReady := x }) hrst hp ha
  obtain ⟨hdecB, hencB⟩ := paths_of_run (s := { s with sched := q, txoReady := y, decReady := z }) hrst hq hb
  have hdec : a.decodePath = b.decodePath := hdecA.trans hdecB.symm
  have henc : a.encodePath = b.encodePath := hencA.trans hencB.symm
  exact ⟨List.prefix_or_prefix_of_prefix (hdec ▸ a.pitem_prefix) b.pitem_prefix,
    List.prefix_or_prefix_of_prefix (hdec ▸ a.decOut_prefix) b.decOut_prefix,
    List.prefix_or_prefix_of_prefix (henc ▸ a.textOut_prefix) b.textOut_prefix,
    List.prefix_or_prefix_of_prefix (henc ▸ a.ecode_prefix) b.ecode_prefix⟩

end Sys2Proof.Machine

/-! PROOFS. 20_memory.md R50 to R52, R54: the outputs as functions of the registers, what moves at an edge at which every
agent moves, and that an offered output stays until its transfer. -/

namespace Sys2Proof.Machine

/-! ## The output ports while `rst = 0` -/

theorem outPins_of_not_rst {s : State} (hrst : s.rst = false) :
    outPins s =
      { rawReady := s.rawReady
        txiReady := s.txiReady
        txoValid := (txoOffer s).isSome
        txoData := (txoOffer s).map txoDataOf
        txoEoi := (txoOffer s).map txoEoiOf
        decValid := !s.dQ.isEmpty
        decItem := s.dQ.head?.map ditemPort
        pitValid := (pitTap s).isSome
        pitItem := ((pitTap s).map pitemPort).getD portZero
        ecodeValid := (ecodeTap s).isSome
        ecodeNum := (ecodeTap s).getD 0 } := by
  simp [outPins, hrst]

theorem txoOffer_of_busy {s : State} (h : s.eBusy = true) :
    txoOffer s = (serByte s.eCode s.ePos.toNat).map .byte := by simp [txoOffer, h]

theorem txoOffer_of_eoi {s : State} (hbusy : s.eBusy = false) (heoi : s.eEoi = true) : txoOffer s = some .eoi := by
  simp [txoOffer, hbusy, heoi]

theorem txoOffer_of_idle {s : State} (hbusy : s.eBusy = false) (heoi : s.eEoi = false) : txoOffer s = none := by
  simp [txoOffer, hbusy, heoi]

theorem ecodeTap_of_not_ready {s : State} (h : s.txoReady = false) : ecodeTap s = none := by simp [ecodeTap, h]

theorem ecodeTap_of_not_busy {s : State} (h : s.eBusy = false) : ecodeTap s = none := by simp [ecodeTap, h]

theorem ecodeTap_of_emit {s : State} (hbusy : s.eBusy = true) (heoi : s.eEoi = false) (hready : s.txoReady = true) :
    ecodeTap s = if s.ePos = 0 then some s.eCode else none := by simp [ecodeTap, hbusy, heoi, hready]

/-- The Code of the block being written (R122). -/
theorem eCode_eq_ite (s : State) : s.eCode = if s.eHalf = .high then fromHi s.eByte else fromLo s.eByte := by
  unfold State.eCode
  cases s.eHalf <;> rfl

/-- Under R33 (e) `txo_valid` is 1 exactly where there is something to write. -/
theorem txoOffer_isSome_iff {s : State} (hinv : encInv s) :
    (txoOffer s).isSome = true ↔ s.eBusy = true ∨ s.eEoi = true := by
  cases hbusy : s.eBusy with
  | true =>
    obtain ⟨c, hc⟩ := serByte_eCode (hinv.1 hbusy)
    simp [txoOffer_of_busy hbusy, hc]
  | false => cases heoi : s.eEoi <;> simp [txoOffer, hbusy, heoi]

theorem ecodeTap_isSome_iff {s : State} (hinv : encInv s) :
    (ecodeTap s).isSome = true ↔ s.eBusy = true ∧ s.ePos = 0 ∧ s.txoReady = true := by
  have heoi : s.eBusy = true → s.eEoi = false := by simpa using hinv.2
  unfold ecodeTap
  split
  · rename_i hshown
    simp [hshown]
  · rename_i hnone
    simp only [Option.isSome_none, Bool.false_eq_true, false_iff]
    rintro ⟨hbusy, hpos, hready⟩
    exact hnone ⟨hbusy, heoi hbusy, hready, hpos⟩

/-- The tap shows no Code but that of the block being written (R125). -/
theorem ecodeTap_getD {s : State} (h : (ecodeTap s).isSome = true) : (ecodeTap s).getD 0 = s.eCode := by
  unfold ecodeTap at h ⊢
  split at h
  · rename_i hshown
    rw [if_pos hshown]
    rfl
  · cases h

theorem pitTap_isSome_iff {s : State} : (pitTap s).isSome = true ↔ s.pQ ≠ [] ∧ s.dQ = [] := by
  unfold pitTap
  cases s.dQ <;> simp

/-! ## What the ports show -/

/-- The ports of the encoder under R33 (e) (table at the start of 42_encoder.md, R122, R123, R125). -/
theorem encoder_ports {s : State} (hrst : s.rst = false) (hinv : encInv s) :
    ((outPins s).txoValid = true ↔ s.eBusy = true ∨ s.eEoi = true) ∧
      (s.eBusy = true →
        (outPins s).txoData = (render s.eCode)[s.ePos.toNat]? ∧ (outPins s).txoEoi = some false) ∧
      (s.eEoi = true → (outPins s).txoData = some 0 ∧ (outPins s).txoEoi = some true) ∧
      ((outPins s).ecodeValid = true ↔ s.eBusy = true ∧ s.ePos = 0 ∧ s.txoReady = true) ∧
      ((outPins s).ecodeValid = true → (outPins s).ecodeNum = s.eCode) := by
  rw [outPins_of_not_rst hrst]
  refine ⟨txoOffer_isSome_iff hinv, fun hbusy => ?_, fun heoi => ?_, ecodeTap_isSome_iff hinv, ecodeTap_getD⟩
  · obtain ⟨c, hc⟩ := serByte_eCode (hinv.1 hbusy)
    have hget : (render s.eCode)[s.ePos.toNat]? = some c := hc
    simp [txoOffer_of_busy hbusy, hc, hget, txoDataOf, txoEoiOf]
  · have hbusy : s.eBusy = false := by simpa [heoi] using hinv.2
    simp [txoOffer_of_eoi hbusy heoi, txoDataOf, txoEoiOf]

/-- Settles O42: `outPins` by cases on `rst`, and each port by the lemma on what it shows. -/
theorem outputsFollowTheRegistersAndReset : Obligations.OutputsFollowTheRegistersAndReset := by
  refine ⟨fun s hrst => ?_, fun s hrst => by rw [outPins, if_pos hrst]; rfl, fun s hrst hp hd hbusy heoi => ?_⟩
  · refine ⟨?_, ?_, fun hinv => eCode_eq_ite s ▸ encoder_ports hrst hinv, ?_, ?_, ?_, ?_, ?_, ?_⟩
    all_goals rw [outPins_of_not_rst hrst]
    · simp [rawReady_iff, hrst]
    · simp [txiReady_iff, hrst]
    · intro hinvalid
      have hnone : ecodeTap s = none := by simpa using hinvalid
      simp [hnone]
    · simp
    · intro x rest hd
      simp [hd]
    · exact pitTap_isSome_iff
    · intro x rest hp hd
      simp [pitTap, hp, hd]
    · intro hinvalid
      have hnone : pitTap s = none := by simpa using hinvalid
      simp [hnone, portZero]
  · rw [outPins_of_not_rst hrst]
    simp [rawReady_iff, txiReady_iff, txoOffer_of_idle hbusy heoi, ecodeTap_of_not_busy hbusy, pitTap, hrst, hp, hd,
      hbusy, heoi]

/-! ## An edge at which every agent moves -/

/-- The streams of the encoder and its tap. -/
def State.encStreams (s : State) : List InItem × List InItem × List Byte := (s.rawIn, s.textOut, s.ecode)

/-- `State.encStreams` after an edge at which every agent moves: what is valid and ready has moved (R52, R125). -/
def State.encStreamsAfter (s : State) : List InItem × List InItem × List Byte :=
  (if s.rawReady then s.rawIn.tail else s.rawIn,
    s.textOut ++ (if s.txoReady then (txoOffer s).toList else []),
    s.ecode ++ (ecodeTap s).toList)

/-- The streams that the parser moves. -/
def State.parStreams (s : State) : List InItem × List PItem := (s.textIn, s.pitem)

/-- `State.parStreams` after such an edge (R52, R158). -/
def State.parStreamsAfter (s : State) : List InItem × List PItem :=
  (if s.txiReady then s.textIn.tail else s.textIn, s.pitem ++ (pitTap s).toList)

/-- `DEC_OUT` after such an edge (R52, R228). -/
def State.decOutAfter (s : State) : List DItem := s.decOut ++ (if s.decReady then s.dQ.head?.toList else [])

theorem EncMove.moves {s t : State} (h : EncMove s t) (hrst : s.rst = false) : t.encStreams = s.encStreamsAfter := by
  cases h with
  | takeByte hbusy heoi hraw =>
    have hready : s.rawReady = true := rawReady_iff.mpr ⟨hrst, hbusy, heoi⟩
    simp [State.encStreams, State.encStreamsAfter, hready, hraw, txoOffer_of_idle hbusy heoi,
      ecodeTap_of_not_busy hbusy]
  | takeEoi hbusy heoi hraw =>
    have hready : s.rawReady = true := rawReady_iff.mpr ⟨hrst, hbusy, heoi⟩
    simp [State.encStreams, State.encStreamsAfter, hready, hraw, txoOffer_of_idle hbusy heoi,
      ecodeTap_of_not_busy hbusy]
  | wait hraw hready => simp [State.encStreams, State.encStreamsAfter, hraw, hready, ecodeTap_of_not_ready hready]
  | emit hbusy heoi hready hc =>
    have hraw : s.rawReady = false := by simp [State.rawReady, hbusy]
    simp only [State.encStreams, State.encStreamsAfter, State.advance_rawIn, State.advance_textOut,
      State.advance_ecode, State.putText_rawIn, State.putText_textOut, State.putText_ecode, hraw, hready,
      txoOffer_of_busy hbusy, hc, ecodeTap_of_emit hbusy heoi hready]
    split <;> simp
  | emitEoi hbusy heoi hready =>
    have hraw : s.rawReady = false := by simp [State.rawReady, heoi]
    simp [State.encStreams, State.encStreamsAfter, hraw, hready, txoOffer_of_eoi hbusy heoi,
      ecodeTap_of_not_busy hbusy]

/-- The encoder selects nothing where it has nothing to do, or in its unreachable row (log 17). -/
theorem encSelect_eq_none {s : State} (h : encSelect s = none) :
    (s.eBusy = false ∧ s.eEoi = false ∧ s.rawIn = []) ∨ (s.eBusy = true ∧ s.eEoi = true) := by
  unfold encSelect at h
  split at h <;> simp_all

theorem enc_moves {s u : State} (hrst : s.rst = false) (henc : encInv s)
    (h : runAll (encSelect s).toList s = .next u) : u.encStreams = s.encStreamsAfter := by
  obtain ⟨hnone, rfl⟩ | ⟨i, hi, hexec⟩ := runAll_toList_eq_next h
  · obtain ⟨hbusy, heoi, hraw⟩ | hboth := encSelect_eq_none hnone
    · simp [State.encStreams, State.encStreamsAfter, hraw, txoOffer_of_idle hbusy heoi, ecodeTap_of_not_busy hbusy]
    · exact absurd hboth henc.2
  · exact (encMove_of_encSelect hi hexec).moves hrst

theorem txiReady_of_ne_nil {s : State} (hq : s.pQ ≠ []) : s.txiReady = false := by simp [State.txiReady, hq]

theorem ParMove.moves {s t : State} (h : ParMove s t) (hrst : s.rst = false) : t.parStreams = s.parStreamsAfter := by
  cases h with
  | read hq htext =>
    simp [State.parStreams, State.parStreamsAfter, State.afterItem, txiReady_iff.mpr ⟨hrst, hq⟩, hq, htext, pitTap]
  | deliver hd hq haccept =>
    obtain ⟨hframe, -⟩ := decAccept_eq_decStep haccept
    have hready : s.txiReady = false := txiReady_of_ne_nil (by simp [hq])
    rw [hframe]
    simp [State.parStreams, State.parStreamsAfter, hready, hd, hq, pitTap]

/-- The parser selects nothing where nothing is offered to it, or where `DEC` cannot take the head of `p_q` (R158). -/
theorem parSelect_eq_none {s : State} (h : parSelect s = none) :
    (s.pQ = [] ∧ s.textIn = []) ∨ (s.pQ ≠ [] ∧ s.dQ ≠ []) := by
  unfold parSelect at h
  split at h
  · split at h <;> simp_all
  · split at h <;> simp_all

theorem par_moves {s t : State} (hrst : s.rst = false) (h : runAll (parSelect s).toList s = .next t) :
    t.parStreams = s.parStreamsAfter := by
  obtain ⟨hnone, rfl⟩ | ⟨i, hi, hexec⟩ := runAll_toList_eq_next h
  · obtain ⟨hq, htext⟩ | ⟨hq, hd⟩ := parSelect_eq_none hnone
    · simp [State.parStreams, State.parStreamsAfter, hq, htext, pitTap]
    · simp [State.parStreams, State.parStreamsAfter, txiReady_of_ne_nil hq, hd, pitTap]
  · exact (parMove_of_parSelect hi hexec).moves hrst

/-- While `d_q` is not empty the parser can only read `TEXT_IN`, and `d_q` stays. -/
theorem parMoves_dQ_of_ne_nil {s t : State} (h : Relation.ReflTransGen ParMove s t) (hd : s.dQ ≠ []) :
    t.dQ = s.dQ := by
  induction h with
  | refl => rfl
  | tail _ hlast ih =>
    cases hlast with
    | read => exact ih
    | deliver hempty => exact absurd (ih.symm.trans hempty) hd

theorem decOutSelect_eq_none {s : State} (h : decOutSelect s = none) : s.dQ = [] ∨ s.decReady = false := by
  by_cases hd : s.dQ = []
  · exact .inl hd
  · simpa [decOutSelect, hd] using h

/-- What `DEC` moves to the host, chosen at `s`: the moves before it have left a non-empty `d_q` alone. -/
theorem out_moves {s v t : State} (hdQ : s.dQ ≠ [] → v.dQ = s.dQ) (hdecOut : v.decOut = s.decOut)
    (h : runAll (decOutSelect s).toList v = .next t) : t.decOut = s.decOutAfter := by
  unfold State.decOutAfter
  obtain ⟨hnone, rfl⟩ | ⟨i, hi, hexec⟩ := runAll_toList_eq_next h
  · obtain hd | hready := decOutSelect_eq_none hnone
    · simp [hd, hdecOut]
    · simp [hready, hdecOut]
  · obtain ⟨-, hne, hready⟩ := decOutSelect_eq_some.mp hi
    cases outMove_of_decOutSelect hi hexec with
    | deliver _ hd =>
      rw [hdQ hne] at hd
      simp [hdecOut, hready, hd]

/-- The three agents one after another at one edge: each finds its part of the state as it was before the edge. -/
theorem clock_moves {s t : State} (hrst : s.rst = false) (hinv : encInv s)
    (h : runAll (clockSelect s) s = .next t) :
    t.encStreams = s.encStreamsAfter ∧ t.parStreams = s.parStreamsAfter ∧ t.decOut = s.decOutAfter := by
  obtain ⟨u, v, henc, hpar, hout⟩ := runAll_clockSelect_eq_next h
  have hu := encTurn_of_runAll henc
  have hv := parTurn_of_runAll hpar
  have ht := outTurn_of_runAll hout
  refine ⟨?_, ?_, ?_⟩
  · have hout_kept : Keeps OutMove State.encStreams := fun _ _ h => by rw [h.frame]; rfl
    have hpar_kept : Keeps ParMove State.encStreams := fun _ _ h => by rw [h.frame]; rfl
    rw [hout_kept.reflGen ht, hpar_kept.reflTransGen hv, enc_moves hrst hinv henc]
  · have hout_kept : Keeps OutMove State.parStreams := fun _ _ h => by rw [h.frame]; rfl
    have hafter_kept : Keeps EncMove State.parStreamsAfter := fun _ _ h => by rw [h.frame]; rfl
    have hselect_kept : Keeps EncMove parSelect := fun _ _ h => by rw [h.frame]; rfl
    have hrst_kept : Keeps EncMove State.rst := fun _ _ h => by rw [h.frame]
    rw [← hselect_kept.reflGen hu] at hpar
    rw [hout_kept.reflGen ht, par_moves ((hrst_kept.reflGen hu).trans hrst) hpar, hafter_kept.reflGen hu]
  · have hdQ_kept : Keeps EncMove State.dQ := fun _ _ h => by rw [h.frame]
    have hdecOut_kept : Keeps EncMove State.decOut := fun _ _ h => by rw [h.frame]
    have hdecOut_kept' : Keeps ParMove State.decOut := fun _ _ h => by rw [h.frame]
    have hdQ : u.dQ = s.dQ := hdQ_kept.reflGen hu
    refine out_moves (fun hne => ?_) ((hdecOut_kept'.reflTransGen hv).trans (hdecOut_kept.reflGen hu)) hout
    exact (parMoves_dQ_of_ne_nil hv (hdQ ▸ hne)).trans hdQ

/-- Settles O41: under the invariants the edge completes, and each stream is what the moves of its agent make of it. -/
theorem clockEdgeMovesWhatIsValidAndReady : Obligations.ClockEdgeMovesWhatIsValidAndReady := by
  intro s ts hinv hrst hsched
  obtain ⟨t, hrun⟩ := runAll_clockSelect (s := { s with sched := ts }) hrst hinv
  have hstep : step s = .next t := by
    rw [step_of_sched_cons hsched]
    simpa [turn, edge, hrst] using hrun
  obtain ⟨-, henc, -⟩ := hinv
  obtain ⟨hencStreams, hparStreams, hdecOut⟩ := clock_moves (s := { s with sched := ts }) hrst henc hrun
  obtain ⟨hraw, hmore⟩ := Prod.mk.inj hencStreams
  obtain ⟨htextOut, hecode⟩ := Prod.mk.inj hmore
  obtain ⟨htext, hpitem⟩ := Prod.mk.inj hparStreams
  rw [outPins_of_not_rst hrst]
  exact ⟨t, hstep, edgeMove_sched (edgeMove_of_clockSelect hrun), hraw, htext, htextOut, hdecOut, hpitem, hecode⟩

/-! ## An offered output stays until its transfer -/

/-- The encoder transfers what it offers, or waits (R52, R122, R123). -/
theorem EncMove.transfers {s t : State} {x : InItem} (h : EncMove s t) (hx : txoOffer s = some x) :
    (s.txoReady = true ∧ t.textOut = s.textOut ++ [x]) ∨ t = s := by
  cases h with
  | takeByte hbusy heoi => simp [txoOffer_of_idle hbusy heoi] at hx
  | takeEoi hbusy heoi => simp [txoOffer_of_idle hbusy heoi] at hx
  | wait => exact .inr rfl
  | emit hbusy _ hready hc =>
    obtain rfl : InItem.byte _ = x := by simpa [txoOffer_of_busy hbusy, hc] using hx
    exact .inl ⟨hready, by simp⟩
  | emitEoi hbusy heoi hready =>
    obtain rfl : InItem.eoi = x := by simpa [txoOffer_of_eoi hbusy heoi] using hx
    exact .inl ⟨hready, rfl⟩

/-- What has been written on `TEXT_OUT`, and what is offered there. -/
def State.txoSide (s : State) : List InItem × Option InItem := (s.textOut, txoOffer s)

theorem txoSide_parMove : Keeps ParMove State.txoSide := fun _ _ h => by rw [h.frame]; rfl

theorem txoSide_outMove : Keeps OutMove State.txoSide := fun _ _ h => by rw [h.frame]; rfl

/-- What has been delivered on `DEC_OUT`, what is offered there, and the host's ready. -/
def State.decSide (s : State) : List DItem × List DItem × Bool := (s.decOut, s.dQ, s.decReady)

theorem decSide_encMove : Keeps EncMove State.decSide := fun _ _ h => by rw [h.frame]; rfl

theorem decSide_parMoves {s t : State} (h : Relation.ReflTransGen ParMove s t) (hd : s.dQ ≠ []) :
    t.decSide = s.decSide := by
  have hkept : Keeps ParMove fun s => (s.decOut, s.decReady) := fun _ _ h => by rw [h.frame]
  obtain ⟨hdecOut, hready⟩ := Prod.mk.inj (hkept.reflTransGen h)
  simp only [State.decSide, hdecOut, hready, parMoves_dQ_of_ne_nil h hd]

theorem EdgeMove.txo {s t : State} {x : InItem} (h : EdgeMove s t) (hx : txoOffer s = some x) :
    (s.txoReady = true ∧ t.textOut = s.textOut ++ [x]) ∨ t.txoSide = s.txoSide := by
  obtain ⟨u, v, hu, hv, ht⟩ := h
  have hrest : t.txoSide = u.txoSide := (txoSide_outMove.reflGen ht).trans (txoSide_parMove.reflTransGen hv)
  have htextOut : t.textOut = u.textOut := congrArg Prod.fst hrest
  cases hu with
  | refl => exact .inr hrest
  | single hmove =>
    obtain ⟨hready, hout⟩ | rfl := hmove.transfers hx
    · exact .inl ⟨hready, htextOut.trans hout⟩
    · exact .inr hrest

theorem EdgeMove.dec {s t : State} {x : DItem} {xs : List DItem} (h : EdgeMove s t) (hd : s.dQ = x :: xs) :
    (s.decReady = true ∧ t.decOut = s.decOut ++ [x]) ∨ t.decSide = s.decSide := by
  obtain ⟨u, v, hu, hv, ht⟩ := h
  have hsu : u.decSide = s.decSide := decSide_encMove.reflGen hu
  have hdu : u.dQ = s.dQ := congrArg (fun p => p.2.1) hsu
  have hvs : v.decSide = s.decSide := (decSide_parMoves hv (by simp [hdu, hd])).trans hsu
  cases ht with
  | refl => exact .inr hvs
  | single hmove =>
    obtain ⟨hready, hdv⟩ := hmove
    simp only [State.decSide, Prod.mk.injEq, hdv, hd, List.cons.injEq, hready] at hvs
    obtain ⟨hdecOut, ⟨rfl, -⟩, hsready⟩ := hvs
    exact .inl ⟨hsready.symm, by rw [hdecOut]⟩

theorem step_txo {s t : State} {x : InItem} (hrst : s.rst = false) (h : step s = .next t)
    (hx : txoOffer s = some x) :
    (s.txoReady = true ∧ t.textOut = s.textOut ++ [x]) ∨ t.txoSide = s.txoSide := by
  obtain hmove | ⟨u, -, hhost, hturn⟩ := step_eq_next hrst h
  · exact hmove.txo hx
  · rw [turn_frame_of_byHost hhost hturn]
    exact .inr rfl

theorem step_dec {s t : State} {x : DItem} {xs : List DItem} (hrst : s.rst = false) (h : step s = .next t)
    (hd : s.dQ = x :: xs) :
    (s.decReady = true ∧ t.decOut = s.decOut ++ [x]) ∨ (t.decOut = s.decOut ∧ t.dQ = s.dQ) := by
  obtain hmove | ⟨u, -, hhost, hturn⟩ := step_eq_next hrst h
  · obtain htransfer | hkept := hmove.dec hd
    · exact .inl htransfer
    · exact .inr ⟨congrArg Prod.fst hkept, congrArg (fun p => p.2.1) hkept⟩
  · rw [turn_frame_of_byHost hhost hturn]
    exact .inr ⟨rfl, rfl⟩

/-- Settles O58: an offer is transferred or kept by every step, and the ports show the offer. -/
theorem offeredOutputsStayUntilTheTransfer : Obligations.OfferedOutputsStayUntilTheTransfer := by
  refine ⟨fun s t hrst h hrst' => ⟨fun x hx => ?_, fun x rest hd => ?_⟩, fun s x d => ?_⟩
  · rw [outPins_of_not_rst hrst, outPins_of_not_rst hrst']
    obtain htransfer | hkept := step_txo hrst h hx
    · exact .inl htransfer
    · obtain ⟨hout, hoffer⟩ := Prod.mk.inj hkept
      exact .inr ⟨hout, by simp [hoffer, hx], by rw [hoffer], by rw [hoffer]⟩
  · rw [outPins_of_not_rst hrst, outPins_of_not_rst hrst']
    obtain htransfer | ⟨hout, hdQ⟩ := step_dec hrst h hd
    · exact .inl htransfer
    · exact .inr ⟨hout, by simp [hdQ, hd], by rw [hdQ]⟩
  · unfold outPins
    cases s.rst <;> exact ⟨rfl, rfl, rfl, rfl, rfl⟩

end Sys2Proof.Machine

/-! PROOFS. 30_encoding.md R70, R71, R74, R78, R79, R88: numbers spelt by bytes, the rows of the opcode table, and the unit
of work that a byte sequence is. -/

namespace Sys2Proof.Machine

/-! ## Numbers spelt by bytes, most significant first (R71, R74) -/

/-- Reading the most significant place first is `Nat.ofDigits`, which has the least significant place first. -/
theorem foldl_eq_ofDigits {α : Type} (base : Nat) (value : α → Nat) (xs : List α) :
    xs.foldl (fun n x => n * base + value x) 0 = Nat.ofDigits base (xs.map value).reverse := by
  induction xs using List.reverseRecOn with
  | nil => rfl
  | append_singleton xs x ih => simp [ih, Nat.ofDigits_cons]; ring

/-- Equally many places with the same number have the same values. -/
theorem map_eq_of_foldl_eq {α : Type} {base : Nat} {value : α → Nat} {xs ys : List α} (hbase : 1 < base)
    (hx : ∀ x ∈ xs, value x < base) (hy : ∀ y ∈ ys, value y < base) (hlen : xs.length = ys.length)
    (h : xs.foldl (fun n x => n * base + value x) 0 = ys.foldl (fun n x => n * base + value x) 0) :
    xs.map value = ys.map value := by
  rw [foldl_eq_ofDigits, foldl_eq_ofDigits] at h
  exact List.reverse_injective
    (Nat.ofDigits_inj_of_len_eq hbase (by simpa using hlen) (by simpa using hx) (by simpa using hy) h)

theorem digit_lt_ten : ∀ d : Byte, isDigit d = true → d.toNat - 0x30 < 10 := by decide

theorem digit_injective {d e : Byte} (hd : isDigit d = true) (he : isDigit e = true)
    (h : d.toNat - 0x30 = e.toNat - 0x30) : d = e := by
  rw [← digit_iff] at hd he
  have hlo : Config.digitLo.toNat = 0x30 := rfl
  simp only [BitVec.le_def, hlo] at hd he
  exact BitVec.eq_of_toNat_eq (by omega)

theorem decimalValue_lt {ds : List Byte} (hds : ds.all isDigit = true) : decimalValue ds < 10 ^ ds.length := by
  rw [List.all_eq_true] at hds
  rw [decimalValue, foldl_eq_ofDigits]
  exact (Nat.ofDigits_lt_base_pow_length (by decide) (by simpa using fun d hd => digit_lt_ten d (hds d hd))).trans_eq
    (by simp)

/-- A digit string is determined by its length and its number. -/
theorem eq_of_decimalValue_eq {ds es : List Byte} (hds : ds.all isDigit = true) (hes : es.all isDigit = true)
    (hlen : ds.length = es.length) (h : decimalValue ds = decimalValue es) : ds = es := by
  rw [List.all_eq_true] at hds hes
  have hmap := map_eq_of_foldl_eq (by decide) (fun d hd => digit_lt_ten d (hds d hd))
    (fun d hd => digit_lt_ten d (hes d hd)) hlen h
  refine List.ext_getElem hlen fun i hi hj => ?_
  refine digit_injective (hds _ (List.getElem_mem hi)) (hes _ (List.getElem_mem hj)) ?_
  simpa [hi, hj] using congrArg (·[i]?) hmap

/-! ## The rows of the opcode table and the decoder (R180) -/

/-- The decoder reads a row's bytes as that row: it finds no other row first. -/
theorem decode_of_mem_wordRows {r : WordRow} (hr : r ∈ wordRows) (f : Byte) (rest : List Byte) :
    decode (r.lead ++ f :: rest) = .ok (r.build f, rest) := by
  fin_cases hr <;> rfl

theorem encode_of_mem_wordRows {r : WordRow} (hr : r ∈ wordRows) (f : Byte) :
    encode (r.build f) = some (r.lead ++ [f]) := by
  fin_cases hr <;> rfl

/-- A word is decoded whatever follows it. -/
theorem decode_append {bs rest : List Byte} {i : Instr} (h : decode bs = .ok (i, rest)) (more : List Byte) :
    decode (bs ++ more) = .ok (i, rest ++ more) := by
  obtain ⟨r, hr, f, rfl, rfl⟩ := decode_eq_ok h
  rw [List.append_assoc]
  exact decode_of_mem_wordRows hr f (rest ++ more)

/-- The numbers that a wire word can spell (R78): the sentinel's and the sixteen Codes. -/
abbrev WordNumber (v : Nat) : Prop := v = 0 ∨ CodeNumber v

/-- A digit string of a block that is a wire word. -/
structure SpellsWord (ds : List Byte) : Prop where
  digits : ds.all isDigit = true
  nonempty : 1 ≤ ds.length
  atMostThree : ds.length ≤ 3
  number : WordNumber (decimalValue ds)

/-- The table has a row for every such number in every length it can be spelt in (R77, R80). -/
theorem exists_row_of_wordNumber : ∀ n ∈ [1, 2, 3], ∀ v < 108, WordNumber v → v < 10 ^ n →
    ∃ r ∈ wordRows, (leadDigits r.lead).length = n ∧ decimalValue (leadDigits r.lead) = v := by decide

theorem exists_row_of_spellsWord {ds : List Byte} (h : SpellsWord ds) :
    ∃ r ∈ wordRows, r.lead = [Config.esc, Config.lbr] ++ ds ++ [Config.codeEnd] := by
  have hnumber := h.number
  have hlength : ds.length ∈ [1, 2, 3] := by
    have := h.nonempty
    have := h.atMostThree
    simp only [List.mem_cons, List.not_mem_nil, or_false]
    omega
  obtain ⟨r, hr, hlen, hvalue⟩ := exists_row_of_wordNumber ds.length hlength (decimalValue ds) (by omega) hnumber
    (decimalValue_lt h.digits)
  refine ⟨r, hr, ?_⟩
  rw [← eq_of_decimalValue_eq (wordDigits_of_mem_wordRows r hr).digits h.digits hlen hvalue]
  exact lead_of_mem_wordRows r hr

/-- A rejection comes with its name, and the bytes do not begin with a word. -/
theorem decode_eq_error {bs : List Byte} {e : Reject} (h : decode bs = .error e) :
    e = rejectName bs ∧ ∀ ds f rest, SpellsWord ds → bs ≠ blockBytes ds f ++ rest := by
  constructor
  · unfold decode at h
    split at h <;> cases h
    rfl
  · rintro ds f rest hds rfl
    obtain ⟨r, hr, hlead⟩ := exists_row_of_spellsWord hds
    have hbytes : blockBytes ds f ++ rest = r.lead ++ f :: rest := by simp [hlead, blockBytes]
    rw [hbytes, decode_of_mem_wordRows hr] at h
    cases h

/-! ## One transition inside a block (R159) -/

theorem isCode_iff {c : Byte} : isCode c = true ↔ CodeNumber c.toNat := by
  simp [isCode, CodeNumber, BitVec.le_def]

/-- The parser's registers inside a block, with `n` digits of value `v` behind it. -/
def blockRegs (p : PState) (n v : Nat) : ParRegs :=
  { pstate := p, ndig := BitVec.ofNat 2 n, acc := BitVec.ofNat 10 v }

theorem parStep_esc : parStep parStart (.byte Config.esc) = (blockRegs .pfx 0 0, []) := rfl

theorem parStep_esc_other {b : Byte} (h : b ≠ Config.esc) :
    parStep parStart (.byte b) = (parStart, [.err .invalidStartByte b]) := by
  simp only [parStep, parStepByte, parStart, if_neg h]

theorem parStep_lbr : parStep (blockRegs .pfx 0 0) (.byte Config.lbr) = (blockRegs .dig 0 0, []) := rfl

theorem parStep_lbr_other {b : Byte} (h : b ≠ Config.lbr) :
    parStep (blockRegs .pfx 0 0) (.byte b) = (blockRegs .hdr 0 0, [.err .invalidNumberPrefix b]) := by
  simp only [parStep, parStepByte, blockRegs, if_neg h]

section
variable {n v : Nat} {b : Byte}

theorem parStep_digit (hn : n < 3) (hb : isDigit b = true) :
    parStep (blockRegs .dig n v) (.byte b) = (blockRegs .dig (n + 1) (v * 10 + (b.toNat - 0x30)), []) := by
  have hvalue : (b &&& 0x0F).zeroExtend 10 = BitVec.ofNat 10 (b.toNat - 0x30) := digitVal_of_isDigit b hb
  simp only [parStep, parStepByte, blockRegs, digit_iff, lt_maxDigits_iff, digitsFull_ofNat hn, hb, hvalue, if_true,
    BitVec.ofNat_add, BitVec.ofNat_mul]
  rfl

theorem parStep_fourth_digit (hb : isDigit b = true) :
    parStep (blockRegs .dig 3 v) (.byte b) = (blockRegs .hdr 3 v, [.err .tooManyCodeDigits Config.atLeast]) := by
  simp only [parStep, parStepByte, blockRegs, digit_iff, hb, if_true]
  rfl

theorem parStep_other (hb : isDigit b = false) (hm : b ≠ Config.codeEnd) :
    parStep (blockRegs .dig n v) (.byte b) = (blockRegs .hdr n v, [.err .unexpectedByte b]) := by
  simp only [parStep, parStepByte, blockRegs, digit_iff, hb, Bool.false_eq_true, if_false, if_neg hm]

theorem parStep_end_noDigits :
    parStep (blockRegs .dig 0 v) (.byte Config.codeEnd) = (blockRegs .hdr 0 v, [.err .noCodeDigitsFound 0]) := rfl

/-- The overflow test of R150 on a number that fits the accumulator. -/
theorem overflows_ofNat_iff (hv : v < 1000) : overflows (BitVec.ofNat 10 v) = true ↔ 255 < v := by
  have hmax : Config.numMax.toNat = 255 := rfl
  simp only [overflows, decide_eq_true_iff, BitVec.lt_def, BitVec.toNat_ofNat, hmax]
  omega

theorem parStep_end_overflow (h1 : 1 ≤ n) (h3 : n ≤ 3) (hv : v < 1000) (hover : 255 < v) :
    parStep (blockRegs .dig n v) (.byte Config.codeEnd) = (blockRegs .hdr n v, [.err .invalidCodeValue 0]) := by
  simp only [parStep, parStepByte, blockRegs, digit_iff, eq_zero_iff_noDigits, lt_iff_overflows, noDigits_ofNat h1 h3,
    (overflows_ofNat_iff hv).mpr hover, not_isDigit_of_isM (b := Config.codeEnd) rfl, Bool.false_eq_true, if_false,
    if_true]

theorem parStep_end (h1 : 1 ≤ n) (h3 : n ≤ 3) (hv : v ≤ 255) :
    parStep (blockRegs .dig n v) (.byte Config.codeEnd) = (blockRegs .fill n v, []) := by
  simp only [parStep, parStepByte, blockRegs, digit_iff, eq_zero_iff_noDigits, lt_iff_overflows, noDigits_ofNat h1 h3,
    overflows_ofNat hv, not_isDigit_of_isM (b := Config.codeEnd) rfl, Bool.false_eq_true, if_false, if_true]

/-- What a complete block of a number up to 255 means (R78). -/
def numberItem (v : Nat) : PItem :=
  if v = 0 then .fin false else if CodeNumber v then .code (BitVec.ofNat 8 v) else .err .valueOutOfBounds 0

theorem numberItem_of_codeNumber (h : CodeNumber v) : numberItem v = .code (BitVec.ofNat 8 v) := by
  rw [numberItem, if_neg (by omega), if_pos h]

theorem numberItem_of_not_wordNumber (h : ¬ WordNumber v) : numberItem v = .err .valueOutOfBounds 0 := by
  obtain ⟨hzero, hcode⟩ := not_or.mp h
  rw [numberItem, if_neg hzero, if_neg hcode]

theorem numberOk_ofNat_iff (hv : v ≤ 255) : numberOk (BitVec.ofNat 10 v) = true ↔ CodeNumber v := by
  rw [numberOk, blockNumber_ofNat, isCode_iff, BitVec.toNat_ofNat, Nat.mod_eq_of_lt (by omega)]

theorem isSentinel_ofNat_iff (hv : v ≤ 255) : isSentinel (BitVec.ofNat 10 v) = true ↔ v = 0 := by
  rw [← eq_zero_iff_isSentinel, ← BitVec.toNat_inj, BitVec.toNat_ofNat, Nat.mod_eq_of_lt (by omega)]
  rfl

/-- R154, R155, R156: the fill byte is not looked at. -/
theorem parStep_fill (hv : v ≤ 255) :
    parStep (blockRegs .fill n v) (.byte b) = (blockRegs .hdr n v, [numberItem v]) := by
  simp only [parStep, parStepByte, blockRegs, eq_zero_iff_isSentinel, isSentinel_ofNat_iff hv, tryFrom_truncate,
    numberOk_ofNat_iff hv, blockNumber_ofNat, numberItem]
  split
  · rfl
  · by_cases hcode : CodeNumber v <;> simp [hcode]

end

/-! ## Units of work (R160) -/

section
variable {r r' : ParRegs} {k : Nat} {x : InItem} {xs : List InItem}

theorem unitOfWork_of_ends {out : List PItem} (h : parStep r x = (r', out)) (hp : r'.pstate = .hdr) :
    unitOfWork r k (x :: xs) = some (out, k + 1, xs) := by
  simp [unitOfWork, h, hp]

theorem unitOfWork_of_reads (h : parStep r x = (r', [])) (hp : r'.pstate ≠ .hdr) :
    unitOfWork r k (x :: xs) = unitOfWork r' (k + 1) xs := by
  simp [unitOfWork, h, hp]

theorem unitOfWork_esc :
    unitOfWork parStart k (.byte Config.esc :: xs) = unitOfWork (blockRegs .pfx 0 0) (k + 1) xs :=
  unitOfWork_of_reads parStep_esc (by decide)

theorem unitOfWork_lbr :
    unitOfWork (blockRegs .pfx 0 0) k (.byte Config.lbr :: xs) = unitOfWork (blockRegs .dig 0 0) (k + 1) xs :=
  unitOfWork_of_reads parStep_lbr (by decide)

theorem unitOfWork_digit {n v : Nat} {b : Byte} (hn : n < 3) (hb : isDigit b = true) :
    unitOfWork (blockRegs .dig n v) k (.byte b :: xs) =
      unitOfWork (blockRegs .dig (n + 1) (v * 10 + (b.toNat - 0x30))) (k + 1) xs :=
  unitOfWork_of_reads (parStep_digit hn hb) (by simp [blockRegs])

theorem unitOfWork_fill {n v : Nat} {f : Byte} (hv : v ≤ 255) :
    unitOfWork (blockRegs .fill n v) k (.byte f :: xs) = some ([numberItem v], k + 1, xs) :=
  unitOfWork_of_ends (parStep_fill hv) rfl

theorem unitOfWork_end {n v : Nat} (h1 : 1 ≤ n) (h3 : n ≤ 3) (hv : v ≤ 255) :
    unitOfWork (blockRegs .dig n v) k (.byte Config.codeEnd :: xs) = unitOfWork (blockRegs .fill n v) (k + 1) xs :=
  unitOfWork_of_reads (parStep_end h1 h3 hv) (by simp [blockRegs])

theorem unitOfWork_digits (ds : List Byte) : ∀ n v k : Nat, n + ds.length ≤ 3 → ds.all isDigit = true →
    unitOfWork (blockRegs .dig n v) k (ds.map .byte ++ xs) =
      unitOfWork (blockRegs .dig (n + ds.length) (ds.foldl (fun v d => v * 10 + (d.toNat - 0x30)) v))
        (k + ds.length) xs := by
  induction ds with
  | nil => intro n v k _ _; rfl
  | cons d ds ih =>
    intro n v k hn hds
    obtain ⟨hd, hds⟩ : isDigit d = true ∧ ds.all isDigit = true := by simpa using hds
    rw [List.length_cons] at hn
    have hrest := ih (n + 1) (v * 10 + (d.toNat - 0x30)) (k + 1) (by omega) hds
    rw [Nat.add_right_comm n, Nat.add_right_comm k] at hrest
    exact (unitOfWork_digit (by omega) hd).trans hrest

end

/-- A block up to its `m`: the digits are read and their number is exact. -/
theorem unitOfWork_block {ds : List Byte} {f : Byte} {rest : List InItem} (hds : ds.all isDigit = true)
    (h3 : ds.length ≤ 3) :
    unitOfWork parStart 0 ((blockBytes ds f).map .byte ++ rest) =
      unitOfWork (blockRegs .dig ds.length (decimalValue ds)) (ds.length + 2)
        (.byte Config.codeEnd :: .byte f :: rest) := by
  have hdigits := unitOfWork_digits (xs := .byte Config.codeEnd :: .byte f :: rest) ds 0 0 2 (by simpa using h3) hds
  calc unitOfWork parStart 0 ((blockBytes ds f).map .byte ++ rest)
      = unitOfWork parStart 0 (.byte Config.esc :: .byte Config.lbr ::
          (ds.map .byte ++ .byte Config.codeEnd :: .byte f :: rest)) := by simp [blockBytes]
    _ = unitOfWork (blockRegs .dig 0 0) 2 (ds.map .byte ++ .byte Config.codeEnd :: .byte f :: rest) := by
        rw [unitOfWork_esc, unitOfWork_lbr]
    _ = _ := by rw [hdigits, Nat.zero_add, Nat.add_comm 2]; rfl

/-- Settles O19: the block is read up to its `m`, which an overflow stops at; else the fill byte ends it with the item of
its number. -/
theorem blockMeansItsNumber : Obligations.BlockMeansItsNumber := by
  intro ds f rest hbytes h1 h3
  have hds : ds.all isDigit = true := List.all_eq_true.mpr fun d hd => digit_iff.mp (hbytes d hd)
  have hcomplete : decimalValue ds ≤ 255 →
      unitOfWork parStart 0 ((blockBytes ds f).map .byte ++ rest) =
        some ([numberItem (decimalValue ds)], ds.length + 4, rest) := by
    intro hv
    rw [unitOfWork_block hds h3, unitOfWork_end h1 h3 hv, unitOfWork_fill hv]
  refine ⟨fun hzero => ?_, fun hcode => ?_, fun hpos hv hcode => ?_, fun hover => ?_⟩
  · rw [hcomplete (by omega), hzero]
    rfl
  · rw [hcomplete (by omega), numberItem_of_codeNumber hcode]
  · rw [hcomplete hv, numberItem_of_not_wordNumber (not_or.mpr ⟨by omega, hcode⟩)]
  · have hlt : decimalValue ds < 1000 :=
      (decimalValue_lt hds).trans_le (Nat.pow_le_pow_right (by decide : 0 < 10) h3)
    rw [unitOfWork_block hds h3, unitOfWork_of_ends (parStep_end_overflow h1 h3 hlt hover) rfl]

end Sys2Proof.Machine

/-! PROOFS. 30_encoding.md R78, R79, 44_wire_words.md R208: the name of a rejection and the parser's error. -/

namespace Sys2Proof.Machine

/-- With `n` digits of value `v` behind it, the digit field goes on to a complete wire word. -/
def CompletesWord (n v : Nat) (bs : List Byte) : Prop :=
  ∃ ds f rest, bs = ds ++ Config.codeEnd :: f :: rest ∧ ds.all isDigit = true ∧ 1 ≤ n + ds.length ∧ n + ds.length ≤ 3 ∧
    WordNumber (ds.foldl (fun v d => v * 10 + (d.toNat - 0x30)) v)

theorem CompletesWord.of_fill {n v : Nat} {f : Byte} {rest : List Byte} (h1 : 1 ≤ n) (h3 : n ≤ 3) (hv : WordNumber v) :
    CompletesWord n v (Config.codeEnd :: f :: rest) :=
  ⟨[], f, rest, rfl, rfl, h1, h3, hv⟩

theorem CompletesWord.cons {n v : Nat} {d : Byte} {bs : List Byte} (hd : isDigit d = true)
    (h : CompletesWord (n + 1) (v * 10 + (d.toNat - 0x30)) bs) : CompletesWord n v (d :: bs) := by
  obtain ⟨ds, f, rest, rfl, hds, h1, h3, hv⟩ := h
  exact ⟨d :: ds, f, rest, rfl, by simp [hd, hds], by rw [List.length_cons]; omega, by rw [List.length_cons]; omega, hv⟩

theorem blockBytes_of_completesWord {bs : List Byte} (h : CompletesWord 0 0 bs) :
    ∃ ds f rest, SpellsWord ds ∧ Config.esc :: Config.lbr :: bs = blockBytes ds f ++ rest := by
  obtain ⟨ds, f, rest, rfl, hds, h1, h3, hv⟩ := h
  exact ⟨ds, f, rest, ⟨hds, by omega, by omega, hv⟩, by simp [blockBytes]⟩

theorem lowNibble_of_isDigit : ∀ b : Byte, isDigit b = true → (b &&& 0x0F).toNat = b.toNat - 0x30 := by decide

/-- R78 after the `m` of a block that is no word: the overflow, or the fill byte and then the number. -/
theorem unitOfWork_of_rejected_end {n v k : Nat} {bs : List Byte} (hn : n ≤ 3) (hv : v < 10 ^ n)
    (hword : ¬ CompletesWord n v (Config.codeEnd :: bs)) :
    (unitOfWork (blockRegs .dig n v) k (.byte Config.codeEnd :: bs.map .byte)).map (fun u => u.1) =
      (rejectItem (rejectDigits n v (Config.codeEnd :: bs))).map fun x => [x] := by
  have hnot : isDigit Config.codeEnd = false := rfl
  simp only [rejectDigits, hnot, Bool.false_eq_true, if_false, if_true]
  by_cases hzero : n = 0
  · subst hzero
    rw [unitOfWork_of_ends parStep_end_noDigits rfl]
    rfl
  have h1 : 1 ≤ n := Nat.one_le_iff_ne_zero.mpr hzero
  rw [if_neg hzero]
  by_cases hover : 255 < v
  · have hlt : v < 1000 := hv.trans_le (Nat.pow_le_pow_right (by decide : 0 < 10) hn)
    rw [if_pos hover, unitOfWork_of_ends (parStep_end_overflow h1 hn hlt hover) rfl]
    rfl
  have hv255 : v ≤ 255 := Nat.not_lt.mp hover
  rw [if_neg hover, unitOfWork_end h1 hn hv255]
  cases bs with
  | nil => rfl
  | cons f rest =>
    have hnumber : ¬ WordNumber v := fun h => hword (.of_fill h1 hn h)
    rw [if_neg (List.cons_ne_nil f rest), List.map_cons, unitOfWork_fill hv255, numberItem_of_not_wordNumber hnumber]
    rfl

/-- R79 in the digit field: the name follows the bytes as the parser's transitions do. -/
theorem unitOfWork_of_rejectDigits (bs : List Byte) : ∀ n v k : Nat, n ≤ 3 → v < 10 ^ n → ¬ CompletesWord n v bs →
    (unitOfWork (blockRegs .dig n v) k (bs.map .byte)).map (fun u => u.1) =
      (rejectItem (rejectDigits n v bs)).map fun x => [x] := by
  induction bs with
  | nil => intro n v k _ _ _; rfl
  | cons b bs ih =>
    intro n v k hn hv hword
    cases hb : isDigit b with
    | true =>
      rw [rejectDigits, if_pos hb, List.map_cons]
      by_cases hroom : n < 3
      · have hdigit := digit_lt_ten b hb
        rw [if_pos hroom, lowNibble_of_isDigit b hb, unitOfWork_digit hroom hb]
        exact ih _ _ _ hroom (by rw [pow_succ]; omega) fun h => hword (.cons hb h)
      · obtain rfl : n = 3 := by omega
        rw [if_neg hroom, unitOfWork_of_ends (parStep_fourth_digit hb) rfl]
        rfl
    | false =>
      by_cases hm : b = Config.codeEnd
      · subst hm
        exact unitOfWork_of_rejected_end hn hv hword
      · rw [rejectDigits, if_neg (by simp [hb]), if_neg hm, List.map_cons,
          unitOfWork_of_ends (parStep_other hb hm) rfl]
        rfl

/-- Settles O37: the name follows the bytes through `ESC` and `[` into the digit field; bytes that are
rejected do not begin with a word. -/
theorem rejectionNamesTheParsersError : Obligations.RejectionNamesTheParsersError := by
  intro bs r h
  obtain ⟨rfl, hword⟩ := decode_eq_error h
  cases bs with
  | nil => rfl
  | cons e bs =>
    by_cases hesc : e = Config.esc
    · subst hesc
      cases bs with
      | nil => rfl
      | cons l bs =>
        by_cases hlbr : l = Config.lbr
        · subst hlbr
          have hdigits : ¬ CompletesWord 0 0 bs := by
            intro hcompletes
            obtain ⟨ds, f, rest, hds, hbytes⟩ := blockBytes_of_completesWord hcompletes
            exact hword ds f rest hds hbytes
          rw [rejectName, if_pos rfl, if_pos rfl, List.map_cons, List.map_cons, unitOfWork_esc, unitOfWork_lbr]
          exact unitOfWork_of_rejectDigits bs 0 0 2 (by decide) (by decide) hdigits
        · rw [rejectName, if_pos rfl, if_neg hlbr, List.map_cons, List.map_cons, unitOfWork_esc,
            unitOfWork_of_ends (parStep_lbr_other hlbr) rfl]
          rfl
    · have hname : rejectName (e :: bs) = .notEscape e := if_neg hesc
      rw [hname, List.map_cons, unitOfWork_of_ends (parStep_esc_other hesc) rfl]
      rfl

end Sys2Proof.Machine

/-! PROOFS. 30_encoding.md R71, R88, 44_wire_words.md R180: the opcode table's numbers, its match and mask, and the table
word that the next step runs. -/

namespace Sys2Proof.Machine

/-! ## The number of a byte sequence (R71) -/

theorem wireNumber_eq_ofDigits (bs : List Byte) : wireNumber bs = Nat.ofDigits 256 (bs.map BitVec.toNat).reverse :=
  foldl_eq_ofDigits 256 BitVec.toNat bs

theorem wireNumber_concat (bs : List Byte) (f : Byte) : wireNumber (bs ++ [f]) = wireNumber bs * 256 + f.toNat := by
  simp [wireNumber]

theorem wireNumber_cons (b : Byte) (bs : List Byte) :
    wireNumber (b :: bs) = b.toNat * 256 ^ bs.length + wireNumber bs := by
  rw [wireNumber_eq_ofDigits, wireNumber_eq_ofDigits, List.map_cons, Nat.ofDigits_reverse_cons, List.length_map]
  ring

theorem wireNumber_lt (bs : List Byte) : wireNumber bs < 256 ^ bs.length := by
  rw [wireNumber_eq_ofDigits]
  exact (Nat.ofDigits_lt_base_pow_length (by decide) (by simpa using fun b _ => b.isLt)).trans_eq (by simp)

theorem eq_of_wireNumber_eq {bs cs : List Byte} (hlen : bs.length = cs.length) (h : wireNumber bs = wireNumber cs) :
    bs = cs :=
  List.map_injective_iff.mpr (fun _ _ => BitVec.eq_of_toNat_eq)
    (map_eq_of_foldl_eq (by decide) (fun b _ => b.isLt) (fun c _ => c.isLt) hlen h)

theorem pow_256 (k : Nat) : 256 ^ k = 2 ^ (8 * k) := by
  rw [pow_mul]
  norm_num

/-- The bytes of a number are read back, whatever stands above them. -/
theorem bytesFirstHigh_wireNumber (bs : List Byte) : ∀ a : Nat,
    bytesFirstHigh bs.length (a * 256 ^ bs.length + wireNumber bs) = bs := by
  induction bs with
  | nil => intro a; rfl
  | cons b bs ih =>
    intro a
    have hnumber : a * 256 ^ (b :: bs).length + wireNumber (b :: bs) =
        (a * 256 + b.toNat) * 256 ^ bs.length + wireNumber bs := by
      rw [wireNumber_cons, List.length_cons, pow_succ]
      ring
    have hfirst : ((a * 256 + b.toNat) * 256 ^ bs.length + wireNumber bs) >>> (8 * bs.length) =
        a * 256 + b.toNat := by
      rw [Nat.shiftRight_eq_div_pow, ← pow_256, Nat.mul_comm, Nat.mul_add_div (by positivity),
        Nat.div_eq_of_lt (wireNumber_lt bs), Nat.add_zero]
    rw [hnumber, List.length_cons, bytesFirstHigh, ih, hfirst]
    congr 1
    exact BitVec.eq_of_toNat_eq (by simpa using b.isLt)

/-- A byte sequence that decodes is the table word of its own number. -/
theorem tableBytes_wireNumber {bs : List Byte} {x : Instr × List Byte} (h : decode bs = .ok x) :
    tableBytes (8 * bs.length) (wireNumber bs) = bs := by
  have hbytes := bytesFirstHigh_wireNumber bs 0
  rw [Nat.zero_mul, Nat.zero_add] at hbytes
  simp only [tableBytes, Nat.mul_div_cancel_left _ (by decide : 0 < 8), hbytes, h]

/-! ## Match and mask (R88) -/

/-- The mask of `k` bytes before the fill byte leaves their number, shifted over the fill byte. -/
theorem and_mask {n f k : Nat} (hn : n < 256 ^ k) (hf : f < 256) :
    (n * 256 + f) &&& ((256 ^ k - 1) * 256) = n * 256 := by
  have hhigh : ((n * 256 + f) &&& ((256 ^ k - 1) * 256)) / 2 ^ 8 = n := by
    rw [Nat.and_div_two_pow, show (n * 256 + f) / 2 ^ 8 = n by omega, Nat.mul_div_cancel _ (by decide), pow_256,
      Nat.and_two_pow_sub_one_eq_mod, ← pow_256, Nat.mod_eq_of_lt hn]
  have hlow : ((n * 256 + f) &&& ((256 ^ k - 1) * 256)) % 2 ^ 8 = 0 := by
    rw [Nat.and_mod_two_pow, Nat.mul_mod_left, Nat.and_zero]
  omega

/-- The row of the match-and-mask table that a row's bytes make. -/
def maskRowOf (r : WordRow) : MaskRow :=
  { lengthBytes := r.lead.length + 1
    pattern := wireNumber r.lead * 256
    mask := (256 ^ r.lead.length - 1) * 256
    instr := r.build }

/-- The 27 written-out numbers are those of the written-out bytes. -/
theorem maskRows_eq : maskRows = wordRows.map maskRowOf := rfl

/-- "a byte sequence of the row's length is that word exactly when `(sequence & mask) = match`" (R88). -/
theorem maskRowOf_fits_iff {r : WordRow} {bs : List Byte} :
    (maskRowOf r).fits bs = true ↔ ∃ f, bs = r.lead ++ [f] := by
  simp only [MaskRow.fits, maskRowOf, Bool.and_eq_true, beq_iff_eq]
  constructor
  · rintro ⟨hlen, hmask⟩
    obtain ⟨lead, f, rfl⟩ : ∃ lead f, bs = lead ++ [f] :=
      (List.eq_nil_or_concat' bs).resolve_left (by rintro rfl; simp at hlen)
    have hlead : lead.length = r.lead.length := by simpa using hlen
    rw [wireNumber_concat, ← hlead, and_mask (wireNumber_lt lead) f.isLt] at hmask
    exact ⟨f, by rw [eq_of_wireNumber_eq hlead (by omega)]⟩
  · rintro ⟨f, rfl⟩
    exact ⟨by simp, by rw [wireNumber_concat, and_mask (wireNumber_lt r.lead) f.isLt]⟩

/-- Settles O34: the table of match and mask is that of the rows' bytes, which the decoder reads. -/
theorem maskAndMatchAreTheDecoder : Obligations.MaskAndMatchAreTheDecoder := by
  intro m hm
  rw [maskRows_eq] at hm
  obtain ⟨r, hr, rfl⟩ := List.mem_map.mp hm
  refine ⟨fun bs => maskRowOf_fits_iff.trans ⟨?_, ?_⟩, fun f => ?_⟩
  · rintro ⟨f, rfl⟩
    exact ⟨f, encode_of_mem_wordRows hr f, decode_of_mem_wordRows hr f []⟩
  · rintro ⟨f, hencode, -⟩
    exact ⟨f, Option.some.inj (hencode.symm.trans (encode_of_mem_wordRows hr f))⟩
  · have hdecode := decode_of_mem_wordRows hr f []
    have hbytes := tableBytes_wireNumber hdecode
    rw [wireNumber_concat, List.length_append] at hbytes
    simp only [decodeTableWord, maskRowOf]
    rw [show tableBytes (8 * (r.lead.length + 1)) (wireNumber r.lead * 256 + f.toNat) = r.lead ++ [f] from hbytes,
      hdecode]

/-- Settles O35: four rows of the table read with a fill byte, and a number that no row spells. -/
theorem writtenOutWordsDecode : Obligations.WrittenOutWordsDecode := ⟨rfl, rfl, rfl, rfl, rfl⟩

/-! ## The table word that is placed (log 18) -/

theorem decodeTableWord_eq_some {nbits w : Nat} {i : Instr} (h : decodeTableWord nbits w = some i) :
    ∃ rest, decode (tableBytes nbits w) = .ok (i, rest) := by
  unfold decodeTableWord at h
  split at h <;> cases h
  exact ⟨_, ‹_›⟩

theorem leadingBytes_map_append (bs : List Byte) (xs : List InItem) :
    leadingBytes (bs.map .byte ++ xs) = bs ++ leadingBytes xs := by
  induction bs with
  | nil => rfl
  | cons b bs ih => exact congrArg (b :: ·) ih

/-- A word placed before the items offered is the word that the parser fetches. -/
theorem wordSelect_placeWord {bs rest : List Byte} {i : Instr} (h : decode bs = .ok (i, rest)) (s : State) :
    wordSelect (placeWord s bs) = some i := by
  have hoffered : decode (leadingBytes (placeWord s bs).textIn) = .ok (i, rest ++ leadingBytes s.textIn) := by
    rw [placeWord, leadingBytes_map_append]
    exact decode_append h _
  rw [wordSelect, if_pos ⟨rfl, rfl⟩, hoffered]

/-- The default order begins with a wire word (log 6). -/
theorem autoSelect_of_wordSelect {s : State} {i : Instr} (h : wordSelect s = some i) : autoSelect s = some i := by
  simp [autoSelect, h]

/-- Settles O40: the word placed is what the parser fetches, and with no schedule the default order begins with it. -/
theorem fetchedTableWordRunsNext : Obligations.FetchedTableWordRunsNext := by
  intro s nbits w i h
  obtain ⟨rest, hdecode⟩ := decodeTableWord_eq_some h
  have hword : wordSelect (s.withFetchWord nbits w) = some i := wordSelect_placeWord hdecode s
  obtain ⟨hruns, -⟩ := edge_toList_of_not_rst (sel := autoSelect) (s := s.withFetchWord nbits w) rfl
  exact ⟨(step_of_sched_nil rfl).trans (hruns i (autoSelect_of_wordSelect hword)), exec_wordSelect rfl hword⟩

end Sys2Proof.Machine

/-! PROOFS. 30_encoding.md R82, R83, R85: the fields and numbers of an item on a port, and the codes that are never
driven. -/

namespace Sys2Proof.Machine

theorem errCode_ne_zero (k : ErrKind) : errCode k ≠ 0 := by cases k <;> decide

theorem errCode_le_nine (k : ErrKind) : errCode k ≤ 9 := by cases k <;> decide

/-- The ninth number is the pair decoder's own kind (R222). -/
theorem errCode_le_eight {k : ErrKind} (h : parserKind k = true) : errCode k ≤ 8 := by
  revert h
  cases k <;> decide

/-- R85 on the fields of a port: `kind` is not the reserved 3, `err` is at most `maxErr`, and `kind` is that of an
error exactly when `err` is not 0. -/
def PortLegal (maxErr : BitVec 4) (p : PortItem) : Prop :=
  p.kind ≠ 3 ∧ p.err ≤ maxErr ∧ (p.kind = 1 ↔ p.err ≠ 0)

theorem portLegal_no_error {maxErr : BitVec 4} {kind : BitVec 2} {data : Byte} {eoi : BitVec 1}
    (h : kind = 0 ∨ kind = 2) : PortLegal maxErr { kind := kind, data := data, err := 0, eoi := eoi } := by
  obtain rfl | rfl := h <;> exact ⟨by simp, by simp [BitVec.le_def], by simp⟩

theorem portLegal_zero (maxErr : BitVec 4) : PortLegal maxErr portZero := portLegal_no_error (.inl rfl)

theorem portLegal_error {maxErr : BitVec 4} {k : ErrKind} {info : Byte} (h : errCode k ≤ maxErr) :
    PortLegal maxErr { kind := 1, data := info, err := errCode k, eoi := 0 } :=
  ⟨(by decide : (1 : BitVec 2) ≠ 3), h, iff_of_true rfl (errCode_ne_zero k)⟩

theorem portLegal_pitemPort {x : PItem} (h : pitemOk x = true) : PortLegal 8 (pitemPort x) := by
  cases x with
  | code c => exact portLegal_no_error (.inl rfl)
  | err k info =>
    obtain ⟨hkind, -⟩ := Bool.and_eq_true_iff.mp h
    exact portLegal_error (errCode_le_eight hkind)
  | fin z => exact portLegal_no_error (.inr rfl)

theorem portLegal_ditemPort (x : DItem) : PortLegal 9 (ditemPort x) := by
  cases x with
  | byte b => exact portLegal_no_error (.inl rfl)
  | err k info => exact portLegal_error (errCode_le_nine k)
  | fin z => exact portLegal_no_error (.inr rfl)

/-- An item of kind 0 on the tap is a Code. -/
theorem codeNumber_of_pitemPort {x : PItem} (h : pitemOk x = true) (hkind : (pitemPort x).kind = 0) :
    CodeNumber (pitemPort x).data.toNat := by
  cases x with
  | code c => exact isCode_iff.mp h
  | err k info => exact absurd hkind (show (1 : BitVec 2) ≠ 0 by decide)
  | fin z => exact absurd hkind (show (2 : BitVec 2) ≠ 0 by decide)

/-- The tap `pit_*` shows an item of `p_q`, or nothing. -/
theorem pitPort_cases (s : State) :
    ((outPins s).pitValid = false ∧ (outPins s).pitItem = portZero) ∨
    ∃ x ∈ s.pQ, (outPins s).pitItem = pitemPort x := by
  cases hrst : s.rst with
  | true => exact .inl (by rw [outPins, if_pos hrst]; exact ⟨rfl, rfl⟩)
  | false =>
    rw [outPins_of_not_rst hrst]
    cases htap : pitTap s with
    | none => exact .inl ⟨rfl, rfl⟩
    | some x =>
      refine .inr ⟨x, ?_, rfl⟩
      unfold pitTap at htap
      split at htap
      · exact List.mem_of_mem_head? htap
      · cases htap

/-- `dec_*` shows an item, or all 0 in a reset, or promises no value (log 16). -/
theorem decPort_cases {s : State} {p : PortItem} (h : (outPins s).decItem = some p) :
    p = portZero ∨ ∃ x, p = ditemPort x := by
  cases hrst : s.rst with
  | true =>
    rw [outPins, if_pos hrst] at h
    exact .inl (Option.some.inj h).symm
  | false =>
    rw [outPins_of_not_rst hrst] at h
    obtain ⟨x, -, rfl⟩ := Option.map_eq_some_iff.mp h
    exact .inr ⟨x, rfl⟩

theorem eoiBit_eq_ite (z : Bool) : BitVec.ofBool z = if z then 1 else 0 := by cases z <;> rfl

/-- Settles O43: the fields are those that `pitemPort` and `ditemPort` write; what the tap shows stands in `p_q`, whose
items are legal by the invariants. -/
theorem reservedPortCodesAreNeverDriven : Obligations.ReservedPortCodesAreNeverDriven := by
  refine ⟨⟨fun c => rfl, fun b => rfl, fun k i => ⟨rfl, rfl⟩, fun z => ?_, rfl, rfl, rfl, rfl, rfl, rfl, rfl, rfl, rfl⟩,
    fun s hinv => ⟨?_, fun p hp => ?_⟩⟩
  · rw [← eoiBit_eq_ite]
    exact ⟨rfl, rfl⟩
  · obtain ⟨-, -, ⟨-, -, -, hqueued, -⟩, -⟩ := hinv
    obtain ⟨hinvalid, hzero⟩ | ⟨x, hx, hitem⟩ := pitPort_cases s
    · obtain ⟨hkind, herr, hiff⟩ := hzero ▸ portLegal_zero 8
      exact ⟨hkind, herr, hiff, fun hvalid => absurd (hinvalid.symm.trans hvalid) Bool.false_ne_true⟩
    · rw [hitem]
      obtain ⟨hkind, herr, hiff⟩ := portLegal_pitemPort (hqueued x hx)
      exact ⟨hkind, herr, hiff, fun _ => codeNumber_of_pitemPort (hqueued x hx)⟩
  · obtain rfl | ⟨x, rfl⟩ := decPort_cases hp
    · exact portLegal_zero 9
    · exact portLegal_ditemPort x

end Sys2Proof.Machine

/-! PROOFS. 40_code_mapper.md R100 to R105, 42_encoder.md R124: the mapper between nibbles and Codes in exact
arithmetic, and the canonical block of a Code. -/

namespace Sys2Proof.Machine

theorem toNat_lowBase : Config.lowBase.toNat = 40 := rfl

theorem toNat_highBase : Config.highBase.toNat = 100 := rfl

/-! ## From a nibble to its Code (R100 to R102) -/

/-- Bit 3 of a nibble says which of the two ranges its Code is in (R76). -/
theorem getLsbD_three_iff {v : Nibble} : v.getLsbD 3 = true ↔ 8 ≤ v.toNat := by
  have hv := v.isLt
  simp only [BitVec.getLsbD, Nat.testBit_eq_decide_div_mod_eq, decide_eq_true_eq]
  omega

theorem toNat_lowThreeBits (v : Nibble) : (v &&& 0b0111).toNat = v.toNat % 8 := by
  rw [BitVec.toNat_and]
  exact Nat.and_two_pow_sub_one_eq_mod v.toNat 3

theorem toNat_fromNib (v : Nibble) : (fromNib v).toNat = nibNumber v.toNat := by
  have hv := v.isLt
  unfold fromNib nibNumber
  by_cases hbit : v.getLsbD 3 = true
  · rw [if_pos hbit, if_neg (Nat.not_lt.mpr (getLsbD_three_iff.mp hbit))]
    simp only [BitVec.toNat_add, BitVec.toNat_setWidth, toNat_lowThreeBits, toNat_highBase]
    omega
  · rw [if_neg hbit, if_pos (Nat.not_le.mp (mt getLsbD_three_iff.mpr hbit))]
    simp only [BitVec.toNat_add, BitVec.toNat_setWidth, toNat_lowBase]
    omega

/-- The mask of R101 leaves the number of the low nibble. -/
theorem toNat_lowNibble (b : Byte) : ((b &&& 0x0F).truncate 4).toNat = b.toNat % 16 := by
  have hmask : (b &&& 0x0F).toNat = b.toNat % 2 ^ 4 := by
    rw [BitVec.toNat_and]
    exact Nat.and_two_pow_sub_one_eq_mod b.toNat 4
  simp only [BitVec.truncate_eq_setWidth, BitVec.toNat_setWidth, hmask]
  omega

/-- The mask and the shift of R102 leave the number of the high nibble: the shift alone drops the bits that the mask
clears. -/
theorem toNat_highNibble (b : Byte) : (((b &&& 0xF0) >>> 4).truncate 4).toNat = b.toNat / 16 := by
  have hb := b.isLt
  have hmask : ((b &&& 0xF0) >>> 4).toNat = b.toNat / 2 ^ 4 % 2 ^ 4 := by
    rw [BitVec.ushiftRight_and_distrib, BitVec.toNat_and, BitVec.toNat_ushiftRight, Nat.shiftRight_eq_div_pow]
    exact Nat.and_two_pow_sub_one_eq_mod _ 4
  simp only [BitVec.truncate_eq_setWidth, BitVec.toNat_setWidth, hmask]
  omega

theorem toNat_fromLo (b : Byte) : (fromLo b).toNat = nibNumber (b.toNat % 16) := by
  rw [fromLo, toNat_fromNib, toNat_lowNibble]

theorem toNat_fromHi (b : Byte) : (fromHi b).toNat = nibNumber (b.toNat / 16) := by
  rw [fromHi, toNat_fromNib, toNat_highNibble]

/-- Settles O1: each operation answers its function of the mapper, whose number is that of the nibble it takes. -/
theorem fromNibFromLoFromHiAnswerTheCode : Obligations.FromNibFromLoFromHiAnswerTheCode := fun v b _ =>
  ⟨⟨fromNib v, rfl, toNat_fromNib v⟩, ⟨fromLo b, rfl, toNat_fromLo b⟩, ⟨fromHi b, rfl, toNat_fromHi b⟩⟩

/-! ## From a number to its nibble, and the checked construction (R103, R104) -/

theorem toNat_toNib {c : Byte} (hc : CodeNumber c.toNat) :
    (toNib c).toNat = if c.toNat < 100 then c.toNat - 40 else c.toNat - 100 + 8 := by
  have hbase : c < Config.highBase ↔ c.toNat < 100 := BitVec.lt_def
  unfold toNib
  simp only [hbase]
  split
  · simp only [BitVec.truncate_eq_setWidth, BitVec.toNat_setWidth, BitVec.toNat_sub, toNat_lowBase]
    omega
  · simp only [BitVec.truncate_eq_setWidth, BitVec.toNat_setWidth, BitVec.toNat_add, BitVec.toNat_sub,
      toNat_highBase, BitVec.reduceToNat]
    omega

theorem tryFrom_of_codeNumber {n : Byte} (h : CodeNumber n.toNat) : tryFrom n = .ok n :=
  if_pos (isCode_iff.mpr h)

theorem tryFrom_of_not_codeNumber {n : Byte} (h : ¬ CodeNumber n.toNat) : tryFrom n = .error .valueOutOfBounds :=
  if_neg (mt isCode_iff.mp h)

/-- An operation on a Code answers (R103, R105). -/
theorem answerIf_of_codeNumber {c : Byte} (h : CodeNumber c.toNat) (v : OpValue) (s : State) :
    answerIf (isCode c) v s = .next (s.answer v) :=
  answerIf_eq_next.mpr ⟨isCode_iff.mpr h, rfl⟩

theorem exec_codeToNib {c : Byte} (h : CodeNumber c.toNat) (s : State) :
    exec (.codeToNib c) s = .next (s.answer (.nibble (toNib c))) :=
  answerIf_of_codeNumber h _ s

theorem exec_codeTryFrom_of_codeNumber {n : Byte} (h : CodeNumber n.toNat) (s : State) :
    exec (.codeTryFrom n) s = .next (s.answer (.code n)) := by
  simp only [exec, execCodeTryFrom, tryFrom_of_codeNumber h]

theorem exec_codeTryFrom_of_not_codeNumber {n : Byte} (h : ¬ CodeNumber n.toNat) (s : State) :
    exec (.codeTryFrom n) s = .next (s.answer (.codeError .valueOutOfBounds)) := by
  simp only [exec, execCodeTryFrom, tryFrom_of_not_codeNumber h]

/-- Settles O2: the model's test `isCode` is membership in the two ranges, on which `toNib` subtracts the
range's base. -/
theorem toNibAndTryFromOnTheTwoRanges : Obligations.ToNibAndTryFromOnTheTwoRanges := fun n s =>
  ⟨fun h => ⟨⟨toNib n, exec_codeToNib h s, toNat_toNib h⟩, exec_codeTryFrom_of_codeNumber h s⟩,
    fun h => exec_codeTryFrom_of_not_codeNumber h s, rfl⟩

/-! ## The canonical block of a Code (R105, R124) -/

/-- `ser_byte` lists the block: `CODE.RENDER(c)[i]` at each position (R124). -/
theorem map_serByte_range (c : Byte) : (List.range (render c).length).map (serByte c) = (render c).map some := by
  apply List.ext_getElem
  · simp
  · intro i hi _
    simp only [List.length_map, List.length_range] at hi
    simp [serByte, hi]

theorem exec_codeRender {c : Byte} (h : CodeNumber c.toNat) (s : State) :
    exec (.codeRender c) s = .next (s.answer (.bytes (render c))) :=
  answerIf_of_codeNumber h _ s

theorem toNat_ofNat_of_codeNumber {n : Nat} (h : CodeNumber n) : (BitVec.ofNat 8 n).toNat = n :=
  BitVec.toNat_ofNat n 8 ▸ Nat.mod_eq_of_lt (by omega)

/-! The decimal spelling (00_scope.md R13) of a number, by how many digits it has. -/

theorem asciiDec_of_two_digits {n : Nat} (hlo : 10 ≤ n) (hhi : n < 100) :
    asciiDec n = [digitByte (n / 10), digitByte n] := by
  rw [asciiDec, if_neg (by omega), if_pos hhi]

theorem asciiDec_of_three_digits {n : Nat} (h : 100 ≤ n) :
    asciiDec n = [digitByte (n / 100), digitByte (n / 10), digitByte n] := by
  rw [asciiDec, if_neg (by omega), if_neg (by omega)]

theorem digitByte_of_mod_eq {n d : Nat} (h : n % 10 = d) : digitByte n = BitVec.ofNat 8 (0x30 + d) := by
  rw [digitByte, h]

/-- A Code's block has as many bytes as `blk_len` says: its number is spelt with two digits below 100 and with three
from 100 on. -/
theorem length_render_of_codeNumber {c : Byte} (h : CodeNumber c.toNat) : (render c).length = blkLen c := by
  have hbase : c < Config.highBase ↔ c.toNat < 100 := BitVec.lt_def
  unfold render blkLen
  simp only [hbase]
  obtain ⟨hlo, hhi⟩ | ⟨hlo, -⟩ := h
  · rw [asciiDec_of_two_digits (by omega) (by omega), if_pos (by omega)]
    rfl
  · rw [asciiDec_of_three_digits hlo, if_neg (by omega)]
    rfl

/-- R105 and R124 agree: the bytes of a Code's block are what `CODE.RENDER` answers and what the serializer reads. -/
theorem exec_codeRender_and_serByte {n : Nat} {bs : List Byte} (hn : CodeNumber n)
    (hbs : render (BitVec.ofNat 8 n) = bs) (s : State) :
    exec (.codeRender (BitVec.ofNat 8 n)) s = .next (s.answer (.bytes bs)) ∧
    blkLen (BitVec.ofNat 8 n) = bs.length ∧
    (List.range bs.length).map (serByte (BitVec.ofNat 8 n)) = bs.map some := by
  have hcode : CodeNumber (BitVec.ofNat 8 n).toNat := (toNat_ofNat_of_codeNumber hn).symm ▸ hn
  subst hbs
  exact ⟨exec_codeRender hcode s, (length_render_of_codeNumber hcode).symm, map_serByte_range _⟩

theorem render_lowCode {k : Nat} (hk : k < 8) :
    render (BitVec.ofNat 8 (40 + k)) = [0x1B, 0x5B, 0x34, BitVec.ofNat 8 (0x30 + k), 0x6D, 0x20] := by
  have htens : digitByte ((40 + k) / 10) = BitVec.ofNat 8 (0x30 + 4) := digitByte_of_mod_eq (by omega)
  have hones : digitByte (40 + k) = BitVec.ofNat 8 (0x30 + k) := digitByte_of_mod_eq (by omega)
  rw [render, toNat_ofNat_of_codeNumber (by omega), asciiDec_of_two_digits (by omega) (by omega), htens, hones]
  rfl

theorem render_highCode {k : Nat} (hk : k < 8) :
    render (BitVec.ofNat 8 (100 + k)) = [0x1B, 0x5B, 0x31, 0x30, BitVec.ofNat 8 (0x30 + k), 0x6D, 0x20] := by
  have hhundreds : digitByte ((100 + k) / 100) = BitVec.ofNat 8 (0x30 + 1) := digitByte_of_mod_eq (by omega)
  have htens : digitByte ((100 + k) / 10) = BitVec.ofNat 8 (0x30 + 0) := digitByte_of_mod_eq (by omega)
  have hones : digitByte (100 + k) = BitVec.ofNat 8 (0x30 + k) := digitByte_of_mod_eq (by omega)
  rw [render, toNat_ofNat_of_codeNumber (by omega), asciiDec_of_three_digits (by omega), hhundreds, htens, hones]
  rfl

/-- Settles O3: the two ranges differ in the number of digits; past that, what the serializer reads is the block. -/
theorem renderAndSerializerWriteTheCanonicalBlock : Obligations.RenderAndSerializerWriteTheCanonicalBlock := fun s =>
  ⟨fun _ hk => exec_codeRender_and_serByte (by omega) (render_lowCode hk) s,
    fun _ hk => exec_codeRender_and_serByte (by omega) (render_highCode hk) s⟩

end Sys2Proof.Machine

/-! PROOFS. 40_code_mapper.md R106, 41_code_pair.md R110 to R114: the mapper's two functions are inverse on Codes,
and from that a byte and its pair of Codes. -/

namespace Sys2Proof.Machine

/-! ## The mapper is a bijection onto the Codes (R106) -/

theorem codeNumber_fromNib (v : Nibble) : CodeNumber (fromNib v).toNat := isCode_iff.mp (isCode_fromNib v)

theorem toNib_fromNib (v : Nibble) : toNib (fromNib v) = v := by
  apply BitVec.eq_of_toNat_eq
  have hv := v.isLt
  rw [toNat_toNib (codeNumber_fromNib v), toNat_fromNib, nibNumber]
  split
  · rw [if_pos (by omega)]
    omega
  · rw [if_neg (by omega)]
    omega

theorem fromNib_toNib {c : Byte} (hc : CodeNumber c.toNat) : fromNib (toNib c) = c := by
  apply BitVec.eq_of_toNat_eq
  rw [toNat_fromNib, toNat_toNib hc]
  obtain ⟨hlo, hhi⟩ | ⟨hlo, hhi⟩ := hc
  · rw [if_pos (by omega), nibNumber, if_pos (by omega)]
    omega
  · rw [if_neg (by omega), nibNumber, if_neg (by omega)]
    omega

theorem tryFrom_eq_ok_iff_codeNumber {n : Byte} : tryFrom n = .ok n ↔ CodeNumber n.toNat := by
  refine ⟨fun hok => ?_, tryFrom_of_codeNumber⟩
  by_contra hn
  rw [tryFrom_of_not_codeNumber hn] at hok
  cases hok

theorem codeNumber_iff_exists_fromNib {n : Byte} : CodeNumber n.toNat ↔ ∃ v : Nibble, fromNib v = n := by
  constructor
  · exact fun hn => ⟨toNib n, fromNib_toNib hn⟩
  · rintro ⟨v, rfl⟩
    exact codeNumber_fromNib v

/-! ## The joined byte (R112) -/

/-- The two operands of the rule's `|` share no bit, so it adds them. -/
theorem toNat_pairToByte (p : Byte × Byte) :
    (pairToByte p).toNat = (toNib p.1).toNat * 16 + (toNib p.2).toNat := by
  have hhigh := (toNib p.1).isLt
  have hlow := (toNib p.2).isLt
  have hshift : ((toNib p.1).zeroExtend 8 <<< 4).toNat = 2 ^ 4 * (toNib p.1).toNat := by
    simp only [BitVec.toNat_shiftLeft, BitVec.truncate_eq_setWidth, BitVec.toNat_setWidth, Nat.shiftLeft_eq]
    omega
  have hext : ((toNib p.2).zeroExtend 8).toNat = (toNib p.2).toNat := by
    simp only [BitVec.truncate_eq_setWidth, BitVec.toNat_setWidth]
    omega
  rw [pairToByte, BitVec.toNat_or, hshift, hext, ← Nat.two_pow_add_eq_or_of_lt hlow]
  omega

theorem toNat_pairToByte_div (p : Byte × Byte) : (pairToByte p).toNat / 16 = (toNib p.1).toNat := by
  have hlow := (toNib p.2).isLt
  rw [toNat_pairToByte]
  omega

theorem toNat_pairToByte_mod (p : Byte × Byte) : (pairToByte p).toNat % 16 = (toNib p.2).toNat := by
  have hlow := (toNib p.2).isLt
  rw [toNat_pairToByte]
  omega

/-! ## Splitting and joining (R114) -/

theorem fromHi_pairToByte (p : Byte × Byte) : fromHi (pairToByte p) = fromNib (toNib p.1) := by
  rw [fromHi, BitVec.eq_of_toNat_eq ((toNat_highNibble _).trans (toNat_pairToByte_div p))]

theorem fromLo_pairToByte (p : Byte × Byte) : fromLo (pairToByte p) = fromNib (toNib p.2) := by
  rw [fromLo, BitVec.eq_of_toNat_eq ((toNat_lowNibble _).trans (toNat_pairToByte_mod p))]

theorem toNat_toNib_fromHi (b : Byte) : (toNib (fromHi b)).toNat = b.toNat / 16 := by
  rw [fromHi, toNib_fromNib, toNat_highNibble]

theorem toNat_toNib_fromLo (b : Byte) : (toNib (fromLo b)).toNat = b.toNat % 16 := by
  rw [fromLo, toNib_fromNib, toNat_lowNibble]

theorem pairToByte_pairFromByte (b : Byte) : pairToByte (pairFromByte b) = b := by
  apply BitVec.eq_of_toNat_eq
  calc (pairToByte (pairFromByte b)).toNat
      = (toNib (fromHi b)).toNat * 16 + (toNib (fromLo b)).toNat := toNat_pairToByte _
    _ = b.toNat / 16 * 16 + b.toNat % 16 := by rw [toNat_toNib_fromHi, toNat_toNib_fromLo]
    _ = b.toNat := Nat.div_add_mod' _ _

theorem pairFromByte_pairToByte {h l : Byte} (hh : CodeNumber h.toNat) (hl : CodeNumber l.toNat) :
    pairFromByte (pairToByte (h, l)) = (h, l) := by
  rw [pairFromByte, fromHi_pairToByte, fromLo_pairToByte, fromNib_toNib hh, fromNib_toNib hl]

/-- Exchanging the nibbles of the joined byte exchanges the two numbers it is joined from. -/
theorem toNat_pairToByte_swap (h l : Byte) :
    (pairToByte (l, h)).toNat = (pairToByte (h, l)).toNat % 16 * 16 + (pairToByte (h, l)).toNat / 16 := by
  rw [toNat_pairToByte (l, h), toNat_pairToByte_mod, toNat_pairToByte_div]

/-- Settles O6: the mapper's inverse laws, then the pair's, each from the mapper's law on its two nibbles. -/
theorem mapperAndPairAreBijections : Obligations.MapperAndPairAreBijections :=
  ⟨toNib_fromNib, fun _ => fromNib_toNib, fun _ => tryFrom_eq_ok_iff_codeNumber.trans codeNumber_iff_exists_fromNib,
    pairToByte_pairFromByte,
    fun h l hh hl => ⟨pairFromByte_pairToByte hh hl, rfl, toNat_pairToByte_swap h l⟩⟩

/-! ## The instructions (R110 to R113) -/

/-- An operation on a pair of Codes answers (R111, R112, R113). -/
theorem answerIf_of_codeNumbers {h l : Byte} (hh : CodeNumber h.toNat) (hl : CodeNumber l.toNat) (v : OpValue)
    (s : State) : answerIf (isCode h && isCode l) v s = .next (s.answer v) :=
  answerIf_eq_next.mpr ⟨Bool.and_eq_true_iff.mpr ⟨isCode_iff.mpr hh, isCode_iff.mpr hl⟩, rfl⟩

theorem exec_pairFromByte (b : Byte) (s : State) :
    exec (.pairFromByte b) s = .next (s.answer (.pair (fromHi b) (fromLo b))) := rfl

theorem exec_pairFromCodes {h l : Byte} (hh : CodeNumber h.toNat) (hl : CodeNumber l.toNat) (s : State) :
    exec (.pairFromCodes h l) s = .next (s.answer (.pair h l)) :=
  answerIf_of_codeNumbers hh hl _ s

theorem exec_pairToByte {h l : Byte} (hh : CodeNumber h.toNat) (hl : CodeNumber l.toNat) (s : State) :
    exec (.pairToByte h l) s = .next (s.answer (.byte (pairToByte (h, l)))) :=
  answerIf_of_codeNumbers hh hl _ s

theorem exec_pairIter {h l : Byte} (hh : CodeNumber h.toNat) (hl : CodeNumber l.toNat) (s : State) :
    exec (.pairIter h l) s = .next (s.answer (.codes [h, l])) :=
  answerIf_of_codeNumbers hh hl _ s

/-- Settles O4: what each operation answers, and the nibbles of the joined byte, which are those of the two Codes. -/
theorem pairOperationsSplitJoinAndKeepTheOrder : Obligations.PairOperationsSplitJoinAndKeepTheOrder := fun s =>
  ⟨fun b => ⟨fromHi b, fromLo b, exec_pairFromByte b s, toNat_fromHi b, toNat_fromLo b⟩,
    fun h l hh hl => ⟨exec_pairFromCodes hh hl s, exec_pairIter hh hl s, pairToByte (h, l), exec_pairToByte hh hl s,
      (toNat_pairToByte_div (h, l)).trans (toNat_toNib hh), (toNat_pairToByte_mod (h, l)).trans (toNat_toNib hl)⟩⟩

end Sys2Proof.Machine

/-! PROOFS. 42_encoder.md R120 to R123, R127: what each transition of the encoder writes, and the length and the alphabet
of the text. -/

namespace Sys2Proof.Machine

/-! ## The transitions (R120 to R123) -/

theorem exec_encEmitEoi_of_ready {s : State} (hrst : s.rst = false) (heoi : s.eEoi = true) (hready : s.txoReady = true) :
    exec .encEmitEoi s = .next { s with textOut := s.textOut ++ [.eoi], eEoi := false } := by
  simp [exec, execEncEmitEoi, hrst, heoi, hready]

theorem exec_encEmit_of_ready {s : State} {t : Byte} (hrst : s.rst = false) (hbusy : s.eBusy = true)
    (hready : s.txoReady = true) (ht : serByte s.eCode s.ePos.toNat = some t) :
    exec .encEmit s = .next (s.putText t).advance := by
  simp [exec, execEncEmit, hrst, hbusy, hready, ht]

/-- Settles O7: an idle encoder takes what is offered, and at the transfer the owed `EOI` moves. -/
theorem encoderTakesItemsAndEndsTheText : Obligations.EncoderTakesItemsAndEndsTheText := fun _ hrst =>
  ⟨fun _ _ hbusy heoi hraw => execEncByte_of_cons (rawReady_iff.mpr ⟨hrst, hbusy, heoi⟩) hraw,
    fun _ hbusy heoi hraw => execEncEoi_of_cons (rawReady_iff.mpr ⟨hrst, hbusy, heoi⟩) hraw,
    exec_encEmitEoi_of_ready hrst⟩

/-- Where `e_pos`, `e_half` and `e_busy` stand after a byte of a block (R122), in one equation. -/
theorem advance_eq {s : State} (hbusy : s.eBusy = true) :
    s.advance =
      { s with
        ePos := if s.ePos.toNat + 1 < blkLen s.eCode then s.ePos + 1 else if s.eHalf = .high then 0 else s.ePos
        eHalf := if s.ePos.toNat + 1 < blkLen s.eCode then s.eHalf else .low
        eBusy := if s.ePos.toNat + 1 < blkLen s.eCode then true else if s.eHalf = .high then true else false } := by
  by_cases hlt : s.ePos.toNat + 1 < blkLen s.eCode
  · simp [advance_of_lt hlt, hlt, hbusy]
  · cases hhalf : s.eHalf with
    | high => simp [advance_of_end_high hlt hhalf, hlt, hbusy]
    | low => simp [advance_of_end_low hlt hhalf, hlt, hhalf]

/-- Settles O8: the byte at `e_pos` goes out and the registers advance; the block is as long as `blk_len` says. -/
theorem encEmitWritesTheNextByte : Obligations.EncEmitWritesTheNextByte := by
  intro s c t hrst hbusy hready hc ht
  rw [← eCode_eq_ite] at hc
  subst hc
  rw [exec_encEmit_of_ready hrst hbusy hready ht, advance_eq (s := s.putText t) hbusy, length_render_eCode]
  rfl

/-! ## The Codes and the text of a byte sequence (R126, R127) -/

theorem encodeCodes_cons (b : Byte) (bs : List Byte) :
    encodeCodes (b :: bs) = fromHi b :: fromLo b :: encodeCodes bs := rfl

theorem encodeText_cons (b : Byte) (bs : List Byte) :
    encodeText (b :: bs) = render (fromHi b) ++ (render (fromLo b) ++ encodeText bs) := rfl

theorem length_encodeCodes (bs : List Byte) : (encodeCodes bs).length = 2 * bs.length := by
  induction bs with
  | nil => rfl
  | cons b bs ih =>
    simp only [encodeCodes_cons, List.length_cons, ih]
    omega

/-- The block of a nibble of 8 or more has one byte more: its number has three digits (R127 (b)). -/
theorem length_render_of_nibNumber {c : Byte} {v : Nat} (hc : c.toNat = nibNumber v) (hv : v < 16) :
    (render c).length = 6 + if 8 ≤ v then 1 else 0 := by
  have hcode : CodeNumber c.toNat := by
    rw [hc]; unfold nibNumber; split <;> omega
  have hlow : c < Config.highBase ↔ ¬ 8 ≤ v := by
    rw [BitVec.lt_def, hc, toNat_highBase]; unfold nibNumber; split <;> omega
  rw [length_render_of_codeNumber hcode, blkLen]
  simp only [hlow, ite_not]
  split <;> rfl

theorem length_render_fromHi (b : Byte) : (render (fromHi b)).length = 6 + if 8 ≤ b.toNat / 16 then 1 else 0 :=
  length_render_of_nibNumber (toNat_fromHi b) (by omega)

theorem length_render_fromLo (b : Byte) : (render (fromLo b)).length = 6 + if 8 ≤ b.toNat % 16 then 1 else 0 :=
  length_render_of_nibNumber (toNat_fromLo b) (by omega)

theorem length_encodeText (bs : List Byte) :
    (encodeText bs).length =
      12 * bs.length + bs.countP (fun b => 8 ≤ b.toNat / 16) + bs.countP (fun b => 8 ≤ b.toNat % 16) := by
  induction bs with
  | nil => rfl
  | cons b bs ih =>
    simp only [encodeText_cons, List.length_append, length_render_fromHi, length_render_fromLo, ih, List.countP_cons,
      List.length_cons, decide_eq_true_eq]
    omega

/-- The bytes that a text is made of (R127 (c)). -/
abbrev TextByte (t : Byte) : Prop := t = 0x1B ∨ t = 0x5B ∨ t = 0x6D ∨ t = 0x20 ∨ (0x30 ≤ t ∧ t ≤ 0x37)

theorem textByte_of_mem_render_fromNib : ∀ v : Nibble, ∀ t ∈ render (fromNib v), TextByte t := by decide

theorem exists_nibble_of_mem_encodeCodes {bs : List Byte} {c : Byte} (hc : c ∈ encodeCodes bs) :
    ∃ v : Nibble, c = fromNib v := by
  simp only [encodeCodes, pairIter, pairFromByte, List.mem_flatten, List.mem_map] at hc
  obtain ⟨_, ⟨b, -, rfl⟩, hmem⟩ := hc
  obtain rfl | rfl := by simpa using hmem
  · exact ⟨_, rfl⟩
  · exact ⟨_, rfl⟩

theorem textByte_of_mem_encodeText {bs : List Byte} {t : Byte} (ht : t ∈ encodeText bs) : TextByte t := by
  simp only [encodeText, List.mem_flatten, List.mem_map] at ht
  obtain ⟨_, ⟨c, hc, rfl⟩, hmem⟩ := ht
  obtain ⟨v, rfl⟩ := exists_nibble_of_mem_encodeCodes hc
  exact textByte_of_mem_render_fromNib v t hmem

/-- Settles O10: both lengths by induction on the bytes, and each text byte stands in the block of some nibble. -/
theorem encodedTextLengthAndAlphabet : Obligations.EncodedTextLengthAndAlphabet := fun bs =>
  ⟨length_encodeCodes bs, by simpa only [List.countP_eq_length_filter] using length_encodeText bs,
    fun _ => textByte_of_mem_encodeText⟩

end Sys2Proof.Machine

/-! PROOFS. 46_codec.md R240 to R242, 70_reset_and_hazards.md R301: with a host that takes everything, the default order
ends at rest, with both paths idle, and the streams then hold all that they were to carry. -/

namespace Sys2Proof.Machine

/-! ## The work that is left

A number that every move makes smaller. An item weighs more than what it can become: a byte of `RAW_IN` at most 14 text
bytes, an item of `TEXT_IN` at most two of `PITEM`, an item of `PITEM` at most two of `DEC_OUT`. -/

/-- The work left on the encode path. -/
def State.encWork (s : State) : Nat := 15 * s.rawIn.length + s.textOwed.length + s.eEoi.toNat

/-- The work left on the decode path. -/
def State.decWork (s : State) : Nat := 7 * s.textIn.length + 3 * s.pQ.length + s.dQ.length

def State.work (s : State) : Nat := s.encWork + s.decWork

theorem length_textOwed_le (s : State) : s.textOwed.length ≤ 14 := by
  have hfirst : ((render s.eCode).drop s.ePos.toNat).length ≤ 7 :=
    (List.drop_sublist _ _).length_le.trans (length_render_eCode s ▸ (blkLen_bounds _).2)
  have hlow : (render (fromLo s.eByte)).length ≤ 7 := length_render_fromNib _ ▸ (blkLen_bounds _).2
  unfold State.textOwed
  cases s.eBusy with
  | false => simp
  | true =>
    cases s.eHalf with
    | high => simp only [if_true, List.length_append]; omega
    | low => simp only [if_true, List.length_append, List.length_nil]; omega

/-- A host that is ready lets no move of the encoder wait. -/
theorem EncMove.work_lt {s t : State} (h : EncMove s t) (hready : s.txoReady = true) : t.work < s.work := by
  refine Nat.add_lt_add_of_lt_of_le ?_ (by rw [h.frame]; rfl)
  cases h with
  | @takeByte b xs hbusy heoi hraw =>
    have howed := length_textOwed_le { s with rawIn := xs, eByte := b, eHalf := .high, ePos := 0, eBusy := true }
    simp only [State.encWork, hraw, List.length_cons]
    omega
  | takeEoi hbusy heoi hraw =>
    simp only [State.encWork, State.textOwed, hbusy, heoi, hraw, List.length_cons]
    change 15 * _ + 0 + 1 < 15 * _ + 0 + 0
    omega
  | wait _ hwait => simp [hready] at hwait
  | @emit c hbusy _ _ hc =>
    have howed : s.textOwed = c :: (s.putText c).advance.textOwed := textOwed_advance (s := s.putText c) hbusy hc
    simp [State.encWork, howed]
  | emitEoi hbusy heoi _ =>
    simp [State.encWork, State.textOwed, hbusy, heoi]

theorem length_decStep_le (h : Option Byte) (x : PItem) : (decStep h x).2.length ≤ 2 := by
  unfold decStep
  split <;> simp

theorem ParMove.work_lt {s t : State} (h : ParMove s t) : t.work < s.work := by
  refine Nat.add_lt_add_of_le_of_lt (by rw [h.frame]; rfl) ?_
  cases h with
  | @read x xs hq htext =>
    have hout := (legalOutput_parStep s.parRegs x).1
    simp only [State.decWork, State.afterItem, htext, hq, List.length_cons, List.nil_append, List.length_nil]
    change 7 * xs.length + 3 * (parStep s.parRegs x).2.length + s.dQ.length < _
    omega
  | @deliver x xs _ hd hq haccept =>
    obtain ⟨hframe, -⟩ := decAccept_eq_decStep haccept
    have hout := length_decStep_le s.held x
    rw [hframe]
    simp only [State.decWork, hq, hd, List.length_cons, List.nil_append, List.length_nil]
    change 7 * s.textIn.length + 3 * xs.length + (decStep s.held x).2.length < _
    omega

theorem OutMove.work_lt {s t : State} (h : OutMove s t) : t.work < s.work := by
  refine Nat.add_lt_add_of_le_of_lt (by rw [h.frame]; rfl) ?_
  obtain ⟨-, hd⟩ := h
  simp [State.decWork, hd]

theorem work_le_of_parMoves {s t : State} (h : Relation.ReflTransGen ParMove s t) : t.work ≤ s.work := by
  induction h with
  | refl => exact Nat.le_refl _
  | tail _ hlast ih => exact hlast.work_lt.le.trans ih

/-! ## Every move of the default order makes progress -/

/-- The fetched word leaves its item in `p_q`. -/
theorem pQ_of_wordSelect {s t : State} {i : Instr} (hrst : s.rst = false) (hi : wordSelect s = some i)
    (h : exec i s = .next t) : t.pQ ≠ [] := by
  obtain ⟨hp, hq, rest, hdecode⟩ := wordSelect_eq_some hi
  obtain ⟨r, hr, f, rfl, hbytes⟩ := decode_eq_ok hdecode
  obtain ⟨x, hword⟩ := wordCompletes_of_mem_wordRows hr
  obtain ⟨ys, htext⟩ := eq_leadingBytes_append s.textIn
  have hoffered : s.textIn = (blockBytes (leadDigits r.lead) f).map .byte ++ (rest.map .byte ++ ys) := by
    rw [htext, hbytes, lead_of_mem_wordRows r hr]
    simp [blockBytes, leadDigits]
  rw [hword s f _ hrst hq hp hoffered] at h
  cases h
  simp

theorem work_lt_of_wordSelect {s t : State} {i : Instr} (hrst : s.rst = false) (hi : wordSelect s = some i)
    (h : exec i s = .next t) : t.work < s.work := by
  obtain rfl | ⟨u, hfirst, hrest⟩ := (parMoves_of_wordSelect hi h).cases_head
  · obtain ⟨-, hq, -⟩ := wordSelect_eq_some hi
    exact absurd hq (pQ_of_wordSelect hrst hi h)
  · exact (work_le_of_parMoves hrest).trans_lt hfirst.work_lt

theorem work_lt_of_decSelect {s t : State} {i : Instr} (hi : decSelect s = some i) (h : exec i s = .next t) :
    t.work < s.work := by
  unfold decSelect at hi
  split at hi
  · cases hi
    exact (parMove_of_pitem (.inr (decSelectItem_mem s _)) h).work_lt
  · cases hi
  · exact (outMove_of_decOutSelect hi h).work_lt

theorem work_lt_of_autoSelect {s t : State} {i : Instr} (hrst : s.rst = false) (hready : s.txoReady = true)
    (hi : autoSelect s = some i) (h : exec i s = .next t) : t.work < s.work := by
  simp only [autoSelect, Option.or_eq_some_iff] at hi
  obtain (hword | ⟨-, hpar⟩) | ⟨-, hdec | ⟨-, henc⟩⟩ := hi
  · exact work_lt_of_wordSelect hrst hword h
  · exact (parMove_of_parSelect hpar h).work_lt
  · exact work_lt_of_decSelect hdec h
  · exact (encMove_of_encSelect henc h).work_lt hready

/-! ## How the decode path ends -/

/-- The code that the pair decoder holds after a list of items (R229). -/
def heldAfter (h : Option Byte) (xs : List PItem) : Option Byte := xs.foldl (fun h x => (decStep h x).1) h

theorem heldAfter_append (h : Option Byte) (xs ys : List PItem) :
    heldAfter h (xs ++ ys) = heldAfter (heldAfter h xs) ys := List.foldl_append

/-- `END(1)` leaves no code held, whatever came before it (R223, R227). -/
theorem heldAfter_concat_end (h : Option Byte) (xs : List PItem) : heldAfter h (xs ++ [.fin true]) = none := by
  rw [heldAfter_append]
  cases heldAfter h xs <;> rfl

/-- `EOI` ends the block that it finds, and `END(1)` is the last item (R143, R146, R153, R157). -/
theorem parStep_eoi (r : ParRegs) :
    (parStep r .eoi).1.pstate = .hdr ∧ ∃ out, (parStep r .eoi).2 = out ++ [.fin true] := by
  unfold parStep
  dsimp only
  split
  · exact ⟨‹_›, [], rfl⟩
  · exact ⟨rfl, [.err .byteStreamTerminatedUnexpectedly 0], rfl⟩

theorem pstate_parRun_textStream (ts : List Byte) : ∀ r : ParRegs, (parRun r (textStream ts)).pstate = .hdr := by
  induction ts with
  | nil => exact fun r => (parStep_eoi r).1
  | cons b ts ih => exact fun r => ih (parStep r (.byte b)).1

theorem heldAfter_textStream (ts : List Byte) :
    ∀ (h : Option Byte) (r : ParRegs), heldAfter h (parseItems r (textStream ts)) = none := by
  induction ts with
  | nil =>
    intro h r
    obtain ⟨-, out, hout⟩ := parStep_eoi r
    change heldAfter h ((parStep r .eoi).2 ++ []) = none
    rw [List.append_nil, hout, heldAfter_concat_end]
  | cons b ts ih =>
    intro h r
    exact (heldAfter_append h (parStep r (.byte b)).2 _).trans (ih _ _)

/-- Where the parser and the pair decoder will stand when the items offered are used up. -/
def State.decodeEnd (s : State) : PState × Option Byte :=
  ((parRun s.parRegs s.textIn).pstate, heldAfter s.held (s.pQ ++ parseItems s.parRegs s.textIn))

theorem decodeEnd_encMove : Keeps EncMove State.decodeEnd := fun _ _ h => by rw [h.frame]; rfl

theorem decodeEnd_outMove : Keeps OutMove State.decodeEnd := fun _ _ h => by rw [h.frame]; rfl

theorem decodeEnd_parMove : Keeps ParMove State.decodeEnd := by
  intro s t h
  cases h with
  | @read x xs hq htext =>
    refine Prod.ext (?_ : (parRun (parStep s.parRegs x).1 xs).pstate = (parRun s.parRegs s.textIn).pstate)
      (?_ : heldAfter s.held (s.pQ ++ (parStep s.parRegs x).2 ++ parseItems (parStep s.parRegs x).1 xs) =
        heldAfter s.held (s.pQ ++ parseItems s.parRegs s.textIn))
    · rw [htext, parRun]
    · rw [htext, parseItems, List.append_assoc]
  | @deliver x xs _ hd hq haccept =>
    obtain ⟨hframe, hheld⟩ := decAccept_eq_decStep haccept
    have hregs : t.parRegs = s.parRegs := by rw [hframe]; rfl
    have htext : t.textIn = s.textIn := by rw [hframe]
    have hqueue : t.pQ = xs := by rw [hframe]
    simp only [State.decodeEnd, hregs, htext, hqueue, hheld, hq]
    rfl

theorem decodeEnd_edgeMove : Keeps EdgeMove State.decodeEnd :=
  keeps_edgeMove decodeEnd_encMove decodeEnd_parMove decodeEnd_outMove

/-! ## Runs of the default order -/

/-- The block runs in its default order (log 6), and the host takes everything at once. -/
structure Served (s : State) : Prop where
  inv : Inv s
  rst : s.rst = false
  txoReady : s.txoReady = true
  decReady : s.decReady = true
  sched : s.sched = []

theorem edgeMove_txoReady : Keeps EdgeMove State.txoReady :=
  keeps_edgeMove (fun _ _ h => by rw [h.frame]) (fun _ _ h => by rw [h.frame]) (fun _ _ h => by rw [h.frame])

theorem edgeMove_decReady : Keeps EdgeMove State.decReady :=
  keeps_edgeMove (fun _ _ h => by rw [h.frame]) (fun _ _ h => by rw [h.frame]) (fun _ _ h => by rw [h.frame])

theorem Served.exec_autoSelect {s t : State} {i : Instr} (hs : Served s) (hi : autoSelect s = some i)
    (h : exec i s = .next t) : Served t where
  inv := inv_exec (.of_autoSelect hi) hs.inv h
  rst := (edgeMove_rst (edgeMove_of_autoSelect hi h)).trans hs.rst
  txoReady := (edgeMove_txoReady (edgeMove_of_autoSelect hi h)).trans hs.txoReady
  decReady := (edgeMove_decReady (edgeMove_of_autoSelect hi h)).trans hs.decReady
  sched := (edgeMove_sched (edgeMove_of_autoSelect hi h)).trans hs.sched

theorem Served.step_eq_exec {s : State} {i : Instr} (hs : Served s) (hi : autoSelect s = some i) :
    step s = exec i s :=
  (step_of_sched_nil hs.sched).trans ((edge_toList_of_not_rst (sel := autoSelect) hs.rst).1 i hi)

theorem Served.quiet {s : State} (hs : Served s) : s.quiet = true := by simp [State.quiet, hs.sched]

theorem core_run_of_step {n : Nat} {s u : State} (h : step s = .next u) : core.run (n + 1) s = core.run n u := by
  have hcore : core.step s = .next u := h
  simp only [Host.Core.run, hcore]

/-- While something is selected it moves, and the work left gets less: so the block comes to rest. -/
theorem Served.exists_run_to_rest {s : State} (hs : Served s) :
    ∃ n t, core.run n s = .next t ∧ Served t ∧ autoSelect t = none ∧ t.decodeEnd = s.decodeEnd := by
  induction hwork : s.work using Nat.strong_induction_on generalizing s with
  | _ w ih =>
    subst hwork
    cases hsel : autoSelect s with
    | none => exact ⟨0, s, rfl, hs, hsel, rfl⟩
    | some i =>
      obtain ⟨u, hu⟩ := Machine.exec_autoSelect hs.rst hs.inv hsel
      obtain ⟨n, t, hrun, ht, hrest, hend⟩ :=
        ih u.work (work_lt_of_autoSelect hs.rst hs.txoReady hsel hu) (hs.exec_autoSelect hsel hu) rfl
      exact ⟨n + 1, t, (core_run_of_step ((hs.step_eq_exec hsel).trans hu)).trans hrun, ht, hrest,
        hend.trans (decodeEnd_edgeMove (edgeMove_of_autoSelect hsel hu))⟩

/-! ## At rest -/

/-- The pair decoder selects nothing where no item waits for it, or where the host does not take the one it offers. -/
theorem decSelect_eq_none {s : State} (h : decSelect s = none) :
    (s.dQ = [] ∧ s.pQ = []) ∨ (s.dQ ≠ [] ∧ s.decReady = false) := by
  unfold decSelect at h
  split at h
  · cases h
  · exact .inl ⟨‹_›, ‹_›⟩
  · rename_i hd
    have hne : s.dQ ≠ [] := by simp [hd]
    exact .inr ⟨hne, (decOutSelect_eq_none h).resolve_left hne⟩

theorem hiValid_of_held {s : State} (h : s.held = none) : s.hiValid = false := by
  simpa [State.held] using h

/-- A served block that selects nothing has used up what was offered, so it stands where the items lead it. -/
theorem Served.idle_of_rest {s : State} (hs : Served s) (hrest : autoSelect s = none)
    (hend : s.decodeEnd = (.hdr, none)) : s.idle := by
  simp only [autoSelect, Option.or_eq_none_iff] at hrest
  obtain ⟨⟨-, hpar⟩, hdec, henc⟩ := hrest
  obtain ⟨hd, hq⟩ : s.dQ = [] ∧ s.pQ = [] :=
    (decSelect_eq_none hdec).resolve_right fun hwait => by simp [hs.decReady] at hwait
  obtain ⟨-, htext⟩ := (parSelect_eq_none hpar).resolve_right fun hwait => hwait.1 hq
  obtain ⟨-, ⟨-, hrow⟩, -⟩ := hs.inv
  obtain ⟨hbusy, heoi, hraw⟩ := (encSelect_eq_none henc).resolve_right hrow
  simp only [State.decodeEnd, hq, htext] at hend
  obtain ⟨hp, hheld⟩ := Prod.mk.inj hend
  exact ⟨hp, hq, hiValid_of_held hheld, hd, hbusy, heoi, hraw, htext⟩

theorem decodePath_of_idle {s : State} (h : s.idle) : s.decodePath = (s.pitem, s.decOut) := by
  obtain ⟨-, hq, -, hd, -, -, -, htext⟩ := h
  simp [State.decodePath, State.pitemAll, State.decAll, hq, hd, htext, parseItems, decodeItems]

theorem encodePath_of_idle {s : State} (h : s.idle) : s.encodePath = (s.textOut, s.ecode) := by
  obtain ⟨-, -, -, -, hbusy, heoi, hraw, -⟩ := h
  simp [State.encodePath, State.textAll, State.codesAll, State.textOwed, State.codesOwed, hbusy, heoi, hraw,
    encodeItems, payload, encodeCodes]

/-! ## From reset -/

theorem served_freshWith (raw text : List InItem) : Served (freshWith raw text) :=
  ⟨resetMeetsTheInvariants, rfl, rfl, rfl, rfl⟩

theorem decodeEnd_freshWith (raw : List InItem) (ts : List Byte) :
    (freshWith raw (textStream ts)).decodeEnd = (.hdr, none) :=
  Prod.ext (pstate_parRun_textStream ts parStart) (heldAfter_textStream ts none parStart)

theorem decodePath_freshWith (raw : List InItem) (ts : List Byte) :
    (freshWith raw (textStream ts)).decodePath = (parse ts, decodeText ts) := rfl

theorem encodeText_append (bs cs : List Byte) : encodeText (bs ++ cs) = encodeText bs ++ encodeText cs := by
  simp [encodeText, encodeCodes]

theorem encodeItems_textStream (bs : List Byte) :
    encodeItems (textStream bs) = (encodeText bs).map .byte ++ [.eoi] := by
  induction bs with
  | nil => rfl
  | cons b bs ih =>
    have hsplit : encodeText (b :: bs) = encodeText [b] ++ encodeText bs := encodeText_append [b] bs
    change (encodeText [b]).map .byte ++ encodeItems (textStream bs) = _
    rw [ih, hsplit, List.map_append, List.append_assoc]

theorem payload_textStream (bs : List Byte) : payload (textStream bs) = bs := by
  induction bs with
  | nil => rfl
  | cons b bs ih => exact congrArg (b :: ·) ih

theorem encodePath_freshWith (bs : List Byte) (text : List InItem) :
    (freshWith (textStream bs) text).encodePath = ((encodeText bs).map .byte ++ [.eoi], encodeCodes bs) :=
  Prod.ext (encodeItems_textStream bs) (congrArg encodeCodes (payload_textStream bs))

/-- Settles O53: the run comes to rest with both paths idle, and an idle block has carried what the offered streams were
to become, which no move changes. -/
theorem runsDeliverWholeStreams : Obligations.RunsDeliverWholeStreams := by
  intro bs ts
  have hs := served_freshWith (textStream bs) (textStream ts)
  obtain ⟨n, t, hrun, ht, hrest, hend⟩ := hs.exists_run_to_rest
  have hidle : t.idle := ht.idle_of_rest hrest (hend.trans (decodeEnd_freshWith _ ts))
  obtain ⟨hdec, henc⟩ := paths_of_run hs.rst hs.quiet hrun
  rw [decodePath_of_idle hidle, decodePath_freshWith] at hdec
  rw [encodePath_of_idle hidle, encodePath_freshWith] at henc
  obtain ⟨hpitem, hdecOut⟩ := Prod.mk.inj hdec
  obtain ⟨htextOut, hecode⟩ := Prod.mk.inj henc
  exact ⟨n, t, hrun, hidle, htextOut, hecode, hpitem, hdecOut⟩

end Sys2Proof.Machine

/-! PROOFS. 43_parser.md R140 to R157: the row of R140's table that an item selects runs and no other does; and, one by
one, what the seventeen transitions that read an item do to the state. -/

namespace Sys2Proof.Machine

/-! ## The selected row (R140) -/

theorem parSelectItem_mem (s : State) (x : InItem) : parSelectItem s x ∈ parserInputs := by
  cases x with
  | byte b => exact parSelectByte_mem s b
  | eoi => exact parSelectEoi_mem s

theorem parSelect_of_cons {s : State} {x : InItem} {xs : List InItem} (hq : s.pQ = []) (htext : s.textIn = x :: xs) :
    parSelect s = some (parSelectItem s x) := by
  cases x <;> simp only [parSelect, hq, htext, parSelectItem]

/-- With an item offered, a parser transition is its row of the table. -/
theorem parRead_of_cons {s : State} {x : InItem} {xs : List InItem} (hr : s.txiReady = true)
    (htext : s.textIn = x :: xs) (i : Instr) :
    parRead i s = if parSelectItem s x = i then .next ({ s with textIn := xs }.afterItem x) else disabled := by
  simp only [parRead, takeText_of_cons hr htext]

/-- Nothing is read while `rst = 1`, while `p_q` is not empty, or while nothing is offered (R52, R54). -/
theorem takeText_eq_none {s : State} (h : s.rst = true ∨ s.pQ ≠ [] ∨ s.textIn = []) : takeText s = none := by
  refine Option.eq_none_iff_forall_ne_some.mpr fun ⟨x, s'⟩ htake => ?_
  obtain ⟨hready, xs, htext, -⟩ := takeText_eq_some.mp htake
  obtain ⟨hrst, hq⟩ := txiReady_iff.mp hready
  simp [hrst, hq, htext] at h

theorem afterItem_of_empty {s : State} (hq : s.pQ = []) (x : InItem) :
    s.afterItem x = { s with
      pstate := (parStep s.parRegs x).1.pstate
      ndig := (parStep s.parRegs x).1.ndig
      acc := (parStep s.parRegs x).1.acc
      pQ := (parStep s.parRegs x).2 } := by
  rw [State.afterItem, hq, List.nil_append]

/-- Settles O17: each of the seventeen is its row of R140's table with the effect of R159, and an item selects one
row. -/
theorem parserIsTotalAndDeterministic : Obligations.ParserIsTotalAndDeterministic := by
  constructor
  · intro s x rest hrst hq htext
    have hread := parRead_of_cons (txiReady_iff.mpr ⟨hrst, hq⟩) htext
    have hmem := parSelectItem_mem s x
    refine ⟨parSelectItem s x, hmem, parSelect_of_cons hq htext, ?_, fun j hj hne => ?_⟩
    · rw [exec_of_mem_parserInputs hmem, hread, if_pos rfl]
      exact congrArg Host.Outcome.next (afterItem_of_empty (s := { s with textIn := rest }) hq x)
    · rw [exec_of_mem_parserInputs hj, hread, if_neg hne.symm]
      rfl
  · intro s hidle j hj
    rw [exec_of_mem_parserInputs hj, parRead, takeText_eq_none hidle]
    rfl

/-! ## A transition that reads an item, where it is enabled -/

section
variable {s : State} {p : PState} {b : Byte} {rest : List InItem} {out : List PItem}

theorem pstate_of_parserReads {x : InItem} (h : ParserReads s p x rest) : s.pstate = p := by
  obtain ⟨-, -, hp, -⟩ := h
  exact hp

theorem onTextByte_of_parserReads {g : Byte → Bool} {f : Byte → State → State} (h : ParserReads s p (.byte b) rest)
    (hg : g b = true) : onTextByte s g f = .next (f b { s with textIn := rest }) := by
  obtain ⟨hrst, hq, -, htext⟩ := h
  exact onTextByte_of_cons (txiReady_iff.mpr ⟨hrst, hq⟩) htext hg

/-- The transitions that end a block emit into an empty `p_q` and go to `HDR`. -/
theorem emitP_goto_of_empty {t : State} (hq : t.pQ = []) : (t.emitP out).goto p = { t with pstate := p, pQ := out } := by
  rw [State.emitP, hq, List.nil_append]
  rfl

/-- A transition on a byte that ends a block with the items `out`; what it emits may depend on `acc` (R155). -/
theorem onTextByte_ends {g : Byte → Bool} {f : Byte → State → State} (h : ParserReads s p (.byte b) rest)
    (hg : g b = true) (hf : ∀ t : State, t.acc = s.acc → f b t = (t.emitP out).goto .hdr) :
    onTextByte s g f = .next { s with textIn := rest, pstate := .hdr, pQ := out } := by
  rw [onTextByte_of_parserReads h hg, hf { s with textIn := rest } rfl]
  obtain ⟨-, hq, -, -⟩ := h
  exact congrArg Host.Outcome.next (emitP_goto_of_empty (t := { s with textIn := rest }) hq)

theorem onTextEoi_ends {g : Bool} {f : State → State} (h : ParserReads s p .eoi rest) (hg : g = true)
    (hf : ∀ t, f t = (t.emitP out).goto .hdr) :
    onTextEoi s g f = .next { s with textIn := rest, pstate := .hdr, pQ := out } := by
  obtain ⟨hrst, hq, -, htext⟩ := h
  rw [onTextEoi_of_cons (txiReady_iff.mpr ⟨hrst, hq⟩) htext hg, hf]
  exact congrArg Host.Outcome.next (emitP_goto_of_empty (t := { s with textIn := rest }) hq)

/-- `EOI` inside a block (R146, R153, R157). -/
theorem onTextEoi_raises (h : ParserReads s p .eoi rest) :
    onTextEoi s (s.pstate == p) State.raiseEoi = .next
      { s with textIn := rest, pstate := .hdr, pQ := [.err .byteStreamTerminatedUnexpectedly 0, .fin true] } :=
  onTextEoi_ends h (by simp [pstate_of_parserReads h]) fun _ => rfl

end

/-! ## `HDR` and `PFX` -/

/-- Settles O11: at `HDR` the guards are `ESC` and not `ESC`. -/
theorem parserAtHeader : Obligations.ParserAtHeader := by
  refine fun s rest => ⟨fun h => ?_, fun b hb h => ?_, fun h => ?_⟩
  · exact onTextByte_of_parserReads h (by simp [pstate_of_parserReads h, isEsc])
  · have hp := pstate_of_parserReads h
    have hother : isEsc b = false := Bool.eq_false_iff.mpr (mt eq_esc_iff.mpr hb)
    exact onTextByte_ends h (by simp [hp, hother]) fun _ _ => rfl
  · exact onTextEoi_ends h (by simp [pstate_of_parserReads h]) fun _ => rfl

/-- Settles O12: at `PFX` the guards are `[` and not `[`. -/
theorem parserAtSecondByte : Obligations.ParserAtSecondByte := by
  refine fun s rest => ⟨fun b hb h => ?_, fun h => ?_, onTextEoi_raises⟩
  · have hp := pstate_of_parserReads h
    have hother : isLbr b = false := Bool.eq_false_iff.mpr (mt eq_lbr_iff.mpr hb)
    exact onTextByte_ends h (by simp [hp, hother]) fun _ _ => rfl
  · exact onTextByte_of_parserReads h (by simp [pstate_of_parserReads h, isLbr])

/-! ## `DIG` -/

/-- R161: below 100 another digit does not wrap the accumulator. -/
theorem toNat_acc_digit {a : BitVec 10} {b : Byte} (ha : a.toNat < 100) (hb : isDigit b = true) :
    (a * 10 + BitVec.ofNat 10 (b.toNat - 0x30)).toNat = a.toNat * 10 + (b.toNat - 0x30) := by
  have hd := digit_lt_ten b hb
  have hten : (10 : BitVec 10).toNat = 10 := rfl
  rw [BitVec.toNat_add, BitVec.toNat_mul, BitVec.toNat_ofNat, hten]
  omega

/-- Settles O13: the digit's value is `b & 0x0F`, and `ndig` is 3 or below 3. -/
theorem parserTakesThreeDigits : Obligations.ParserTakesThreeDigits := by
  intro s rest b hlo hhi h
  have hb : isDigit b = true := digit_iff.mp ⟨hlo, hhi⟩
  have hp := pstate_of_parserReads h
  refine ⟨fun hroom => ⟨?_, fun hacc => toNat_acc_digit hacc hb⟩, fun hfull => ?_⟩
  · have hguard : digitsFull s.ndig = false := lt_maxDigits_iff.mp hroom
    rw [← digitVal_of_isDigit b hb]
    exact onTextByte_of_parserReads h (by simp [hp, hb, hguard])
  · exact onTextByte_ends h (by simp [hp, hb, hfull, digitsFull]) fun _ _ => rfl

theorem noDigits_of_one_le : ∀ {n : BitVec 2}, 1 ≤ n → noDigits n = false := by decide

theorem overflows_iff {a : BitVec 10} : overflows a = true ↔ 255 < a.toNat := by
  rw [← lt_iff_overflows, BitVec.lt_def]
  rfl

theorem overflows_eq_false_iff {a : BitVec 10} : overflows a = false ↔ a.toNat ≤ 255 := by
  rw [← Bool.not_eq_true, overflows_iff, Nat.not_lt]

/-- Settles O14: the guards split on no digit, and then on the overflow test. -/
theorem parserAtTerminator : Obligations.ParserAtTerminator := by
  intro s rest h
  have hp := pstate_of_parserReads h
  refine ⟨fun hnone => ?_, fun hsome hover => ?_, fun hsome hfits => ?_⟩
  · exact onTextByte_ends h (by simp [hp, hnone, isM, noDigits]) fun _ _ => rfl
  · have hdigits := noDigits_of_one_le hsome
    exact onTextByte_ends h (by simp [hp, isM, hdigits, overflows_iff.mpr hover]) fun _ _ => rfl
  · have hdigits := noDigits_of_one_le hsome
    exact onTextByte_of_parserReads h (by simp [hp, isM, hdigits, overflows_eq_false_iff.mpr hfits])

/-- Settles O15: the guard is neither of the two other classes of `DIG`; it does not look at `ndig` and `acc`. -/
theorem parserLeavesTheDigitField : Obligations.ParserLeavesTheDigitField := by
  refine fun s rest => ⟨fun b hdigit hm h => ?_, onTextEoi_raises⟩
  have hp := pstate_of_parserReads h
  have hnoDigit : isDigit b = false := Bool.eq_false_iff.mpr (mt digit_iff.mpr hdigit)
  have hnoEnd : isM b = false := Bool.eq_false_iff.mpr (mt eq_codeEnd_iff.mpr hm)
  exact onTextByte_ends h (by simp [hp, hnoDigit, hnoEnd]) fun _ _ => rfl

/-! ## `FILL` -/

theorem blockNumber_eq_ofNat (a : BitVec 10) : blockNumber a = BitVec.ofNat 8 a.toNat := by
  rw [← blockNumber_ofNat, BitVec.ofNat_toNat, BitVec.setWidth_eq]

theorem numberOk_iff {a : BitVec 10} (ha : a.toNat ≤ 255) : numberOk a = true ↔ CodeNumber a.toNat := by
  rw [← numberOk_ofNat_iff ha, BitVec.ofNat_toNat, BitVec.setWidth_eq]

theorem isSentinel_eq_false {a : BitVec 10} (ha : 1 ≤ a.toNat) : isSentinel a = false := by
  refine Bool.eq_false_iff.mpr fun h => ?_
  obtain rfl := eq_zero_iff_isSentinel.mpr h
  exact absurd ha (by decide)

/-- Settles O16: the guards split on the block's number, and the fill byte is in none of them. -/
theorem parserAtFillByte : Obligations.ParserAtFillByte := by
  refine fun s rest => ⟨fun b h => ?_, onTextEoi_raises⟩
  have hp := pstate_of_parserReads h
  refine ⟨fun hzero => ?_, fun hcode => ?_, fun hpos hfits hcode => ?_⟩
  · exact onTextByte_ends h (by simp [hp, hzero, isSentinel]) fun _ _ => rfl
  · have hok : numberOk s.acc = true := (numberOk_iff (by omega)).mpr hcode
    rw [← blockNumber_eq_ofNat]
    exact onTextByte_ends h (by simp [hp, hok]) fun t hacc => by rw [← hacc]; rfl
  · have hok : numberOk s.acc = false := Bool.eq_false_iff.mpr (mt (numberOk_iff hfits).mp hcode)
    exact onTextByte_ends h (by simp [hp, hok, isSentinel_eq_false hpos]) fun _ _ => rfl

end Sys2Proof.Machine

/-! PROOFS. 43_parser.md R158 to R162, 45_pair_decoder.md R229: the joint transfer on `PITEM` does what `dstep` says; a unit
of work is at most seven items long; and `END(1)` stands at the end of a stream only. -/

namespace Sys2Proof.Machine

/-! ## The joint transfer (R158, R220) -/

/-- Where the numbers that would be joined are Codes, the pair decoder does to every item what `dstep` of R229 says; it
finds `d_q` empty. -/
theorem decAccept_of_codes {s : State} {x : PItem} (hd : s.dQ = [])
    (hcodes : ∀ c : Byte, x = .code c → s.hiValid = true → CodeNumber s.hiCode.toNat ∧ CodeNumber c.toNat) :
    decAccept x s = .next
      { s with
        hiValid := (decStep s.held x).1.isSome
        hiCode := (decStep s.held x).1.getD s.hiCode
        dQ := (decStep s.held x).2 } := by
  cases hv : s.hiValid with
  | false => cases x <;> simp [decAccept, State.held, hv, hd, decStep, State.holdHigh, State.emitD]
  | true =>
    cases x with
    | code c =>
      obtain ⟨hhigh, hlow⟩ := hcodes c rfl hv
      have hjoin := joinHeld_eq_next.mpr ⟨isCode_iff.mpr hhigh, isCode_iff.mpr hlow, rfl⟩
      simp [decAccept, State.held, hv, hd, decStep, hjoin, State.dropHigh, State.emitD]
    | err k info => simp [decAccept, State.held, hv, hd, decStep, State.dropHigh, State.emitD]
    | fin z => cases z <;> simp [decAccept, State.held, hv, hd, decStep, State.dropHigh, State.emitD]

/-- Settles O22: the head of `p_q` is taken, and the pair decoder, with `d_q` empty, accepts it. -/
theorem deliverIsOneJointStep : Obligations.DeliverIsOneJointStep := by
  intro s x rest hrst hd hq hcodes
  simp only [exec, execPDeliver, takePItem_of_cons (pitemReady_iff.mpr ⟨hrst, hd⟩) hq]
  exact decAccept_of_codes (s := { s with pQ := rest, pitem := s.pitem ++ [x] }) hd hcodes

/-! ## One transition in a unit of work (R159) -/

/-- How many items the parser can read at most until it is at `HDR` again: of `1B 5B`, three digits, `m` and a fill byte,
those that are still to come (R162). -/
def ParRegs.itemsLeft (r : ParRegs) : Nat :=
  match r.pstate with
  | .hdr => 7
  | .pfx => 6
  | .dig => 5 - r.ndig.toNat
  | .fill => 1

/-- What a byte can do: it ends the unit of work with one item, which is not `END(1)`, or it brings its end nearer and
emits nothing. -/
inductive ByteStep (r : ParRegs) : ParRegs × List PItem → Prop
  | ends {r' : ParRegs} {y : PItem} (hp : r'.pstate = .hdr) (hy : y ≠ .fin true) : ByteStep r (r', [y])
  | goesOn {r' : ParRegs} (hp : r'.pstate ≠ .hdr) (hleft : r'.itemsLeft < r.itemsLeft) : ByteStep r (r', [])

theorem toNat_le_three (n : BitVec 2) : n.toNat ≤ 3 := Nat.le_of_lt_succ n.isLt

/-- A digit uses up one of the items left (R147). -/
theorem itemsLeft_digit {n : BitVec 2} (h : n < Config.maxDigits) : 5 - (n + 1).toNat < 5 - n.toNat := by
  revert n
  decide

theorem byteStep_parStepByte (r : ParRegs) (b : Byte) : ByteStep r (parStepByte r b) := by
  have hdigits := toNat_le_three r.ndig
  unfold parStepByte
  cases hp : r.pstate with
  | hdr =>
    dsimp only
    split
    · exact .goesOn (by simp) (by simp [ParRegs.itemsLeft, hp])
    · exact .ends hp (by simp)
  | pfx =>
    dsimp only
    split
    · exact .goesOn (by simp) (by simp [ParRegs.itemsLeft, hp])
    · exact .ends rfl (by simp)
  | dig =>
    dsimp only
    split
    · split
      · rename_i hroom
        exact .goesOn (by simp) (by simpa [ParRegs.itemsLeft, hp] using itemsLeft_digit hroom)
      · exact .ends rfl (by simp)
    · split
      · split
        · exact .ends rfl (by simp)
        · split
          · exact .ends rfl (by simp)
          · exact .goesOn (by simp) (by simp only [ParRegs.itemsLeft, hp]; omega)
      · exact .ends rfl (by simp)
  | fill =>
    dsimp only
    split
    · exact .ends rfl (by simp)
    · split <;> exact .ends rfl (by simp)

/-- `EOI` ends the unit of work, with `END(1)` alone between blocks and after the error inside one. -/
theorem parStep_eoi_cases (r : ParRegs) :
    (parStep r .eoi).1.pstate = .hdr ∧
      ((parStep r .eoi).2 = [.fin true] ∨
        (parStep r .eoi).2 = [.err .byteStreamTerminatedUnexpectedly 0, .fin true]) := by
  refine ⟨(parStep_eoi r).1, ?_⟩
  cases hp : r.pstate <;> simp [parStep, hp]

/-! ## A unit of work (R160, R162) -/

/-- What a complete unit of work emits: one item, or the two of an `EOI` inside a block. -/
def UnitOutput (out : List PItem) : Prop :=
  out.length = 1 ∨ out = [.err .byteStreamTerminatedUnexpectedly 0, .fin true]

/-- Any item ends the unit of work with such an output, or brings its end nearer and emits nothing. -/
theorem parStep_ends_or_goesOn (r : ParRegs) (x : InItem) :
    ((parStep r x).1.pstate = .hdr ∧ UnitOutput (parStep r x).2) ∨
      ((parStep r x).1.pstate ≠ .hdr ∧ (parStep r x).2 = [] ∧ (parStep r x).1.itemsLeft < r.itemsLeft) := by
  cases x with
  | byte b =>
    have hstep := byteStep_parStepByte r b
    simp only [parStep]
    generalize parStepByte r b = u at hstep ⊢
    cases hstep with
    | ends hp _ => exact .inl ⟨hp, .inl rfl⟩
    | goesOn hp hleft => exact .inr ⟨hp, rfl, hleft⟩
  | eoi =>
    obtain ⟨hp, hout | hout⟩ := parStep_eoi_cases r
    · exact .inl ⟨hp, .inl (by simp [hout])⟩
    · exact .inl ⟨hp, .inr hout⟩

theorem itemsLeft_pos (r : ParRegs) : 1 ≤ r.itemsLeft := by
  have hdigits := toNat_le_three r.ndig
  unfold ParRegs.itemsLeft
  split <;> omega

/-- A complete unit of work read at most the items left, emitted such an output, and left the rest. -/
theorem unitOfWork_eq_some (xs : List InItem) : ∀ (r : ParRegs) (k n : Nat) (out : List PItem) (rest : List InItem),
    unitOfWork r k xs = some (out, n, rest) →
      ∃ m, n = k + m ∧ 1 ≤ m ∧ m ≤ r.itemsLeft ∧ xs.length = m + rest.length ∧ xs.drop m = rest ∧ UnitOutput out := by
  induction xs with
  | nil => intro r k n out rest h; cases h
  | cons x xs ih =>
    intro r k n out rest h
    rw [unitOfWork] at h
    obtain ⟨hp, hout⟩ | ⟨hp, hout, hleft⟩ := parStep_ends_or_goesOn r x
    · rw [if_pos hp] at h
      cases h
      exact ⟨1, rfl, le_rfl, itemsLeft_pos r, Nat.add_comm _ _, rfl, hout⟩
    · rw [if_neg hp, hout] at h
      obtain ⟨⟨out', n', rest'⟩, hu, heq⟩ := Option.map_eq_some_iff.mp h
      cases heq
      obtain ⟨m, hn, h1, hm, hlen, hdrop, hunit⟩ := ih _ _ _ _ _ hu
      exact ⟨m + 1, by omega, by omega, by omega, by rw [List.length_cons]; omega, hdrop, hunit⟩

/-- As many items as are left complete the unit of work. -/
theorem unitOfWork_ne_none (xs : List InItem) : ∀ (r : ParRegs) (k : Nat), r.itemsLeft ≤ xs.length →
    unitOfWork r k xs ≠ none := by
  induction xs with
  | nil => exact fun r _ hlen => absurd ((itemsLeft_pos r).trans hlen) (by decide)
  | cons x xs ih =>
    intro r k hlen
    rw [List.length_cons] at hlen
    rw [unitOfWork]
    obtain ⟨hp, -⟩ | ⟨hp, -, hleft⟩ := parStep_ends_or_goesOn r x
    · simp [hp]
    · rw [if_neg hp, ne_eq, Option.map_eq_none_iff]
      exact ih _ _ (by omega)

/-- Settles O18: at `HDR` seven items are left, and every transition ends the unit or leaves fewer. -/
theorem unitOfWorkIsShort : Obligations.UnitOfWorkIsShort := by
  refine fun xs => ⟨fun out n rest h => ?_, unitOfWork_ne_none xs parStart 0⟩
  obtain ⟨m, hn, h1, h7, hlen, hdrop, hout⟩ := unitOfWork_eq_some xs _ _ _ _ _ h
  obtain rfl : n = m := hn.trans (Nat.zero_add m)
  exact ⟨h1, h7, hlen, hdrop, hout⟩

/-! ## The end of a stream (R159, R229) -/

/-- `e` is the last element, and it is nowhere else. -/
def EndsOnce {α : Type} (e : α) (xs : List α) : Prop := ∃ ys, xs = ys ++ [e] ∧ e ∉ ys

theorem EndsOnce.append {α : Type} {e : α} {xs ys : List α} (hxs : e ∉ xs) (h : EndsOnce e ys) :
    EndsOnce e (xs ++ ys) := by
  obtain ⟨zs, rfl, hzs⟩ := h
  exact ⟨xs ++ zs, (List.append_assoc ..).symm, by simp [hxs, hzs]⟩

theorem fin_not_mem_parStepByte (r : ParRegs) (b : Byte) : .fin true ∉ (parStepByte r b).2 := by
  have hstep := byteStep_parStepByte r b
  generalize parStepByte r b = u at hstep ⊢
  cases hstep with
  | ends _ hy => simpa using hy.symm
  | goesOn => simp

theorem endsOnce_parStep_eoi (r : ParRegs) : EndsOnce (.fin true) (parStep r .eoi).2 := by
  obtain ⟨-, hout | hout⟩ := parStep_eoi_cases r
  · exact ⟨[], hout, by simp⟩
  · exact ⟨[.err .byteStreamTerminatedUnexpectedly 0], hout, by simp⟩

/-- Wherever the parser stands, its bytes emit no `END(1)` and the `EOI` emits one, last. -/
theorem endsOnce_parseItems (ts : List Byte) : ∀ r : ParRegs, EndsOnce (.fin true) (parseItems r (textStream ts)) := by
  induction ts with
  | nil =>
    intro r
    change EndsOnce _ ((parStep r .eoi).2 ++ [])
    rw [List.append_nil]
    exact endsOnce_parStep_eoi r
  | cons b ts ih => exact fun r => (ih (parStepByte r b).1).append (fin_not_mem_parStepByte r b)

theorem decodeItems_append (xs ys : List PItem) : ∀ h : Option Byte,
    decodeItems h (xs ++ ys) = decodeItems h xs ++ decodeItems (heldAfter h xs) ys := by
  induction xs with
  | nil => exact fun _ => rfl
  | cons x xs ih =>
    intro h
    change (decStep h x).2 ++ decodeItems (decStep h x).1 (xs ++ ys) = _ ++ _ ++ decodeItems (heldAfter _ xs) ys
    rw [ih, List.append_assoc]

/-- The pair decoder makes no `END(1)` of another item (R221 to R226). -/
theorem fin_not_mem_decStep (h : Option Byte) {x : PItem} (hx : x ≠ .fin true) : .fin true ∉ (decStep h x).2 := by
  unfold decStep
  split
  case h_3 => simpa [eq_comm] using hx
  case h_7 => exact absurd rfl hx
  all_goals simp

theorem fin_not_mem_decodeItems (xs : List PItem) : ∀ h : Option Byte, .fin true ∉ xs →
    .fin true ∉ decodeItems h xs := by
  induction xs with
  | nil => intro h _; exact List.not_mem_nil
  | cons x xs ih =>
    intro h hxs
    obtain ⟨hx, hrest⟩ := not_or.mp (mt List.mem_cons.mpr hxs)
    exact fun hmem => (List.mem_append.mp hmem).elim (fin_not_mem_decStep h (Ne.symm hx)) (ih _ hrest)

/-- `END(1)` is passed on, after the error where a high code is held (R223, R227). -/
theorem endsOnce_decodeItems_end (h : Option Byte) : EndsOnce (.fin true) (decodeItems h [.fin true]) := by
  cases h with
  | none => exact ⟨[], rfl, by simp⟩
  | some c => exact ⟨[.err .missingSecondColorCodeBlock 0], rfl, by simp⟩

theorem EndsOnce.decodeItems {xs : List PItem} (hxs : EndsOnce (.fin true) xs) (h : Option Byte) :
    EndsOnce (.fin true) (decodeItems h xs) := by
  obtain ⟨ys, rfl, hys⟩ := hxs
  rw [decodeItems_append]
  exact (endsOnce_decodeItems_end _).append (fin_not_mem_decodeItems ys h hys)

/-- Settles O20: the parser ends its stream with its only `END(1)`, and the pair decoder keeps that. -/
theorem streamsEndWithOneEnd : Obligations.StreamsEndWithOneEnd := fun ts =>
  have hparse : EndsOnce (.fin true) (parse ts) := endsOnce_parseItems ts parStart
  ⟨hparse, hparse.decodeItems none⟩

end Sys2Proof.Machine

/-! PROOFS. 44_wire_words.md R180 to R208: the instructions that have an encoding are the rows of the table, read only
at `HDR`; each is one unit of work of the parser, and the step that fetches one runs it. -/

namespace Sys2Proof.Machine

/-! ## The encoder and the rows -/

/-- Only a wire word has an encoding (R88), and the decoder reads it, whatever its fill byte, as that word. -/
theorem decode_of_encode {i : Instr} {bs : List Byte} (h : encode i = some bs) : decode bs = .ok (i, []) := by
  cases i
  all_goals cases h
  all_goals rfl

/-- What has an encoding is a row of the table with its fill byte. -/
theorem exists_row_of_encode {i : Instr} {bs : List Byte} (h : encode i = some bs) :
    ∃ r ∈ wordRows, ∃ f, i = r.build f ∧ bs = r.lead ++ [f] :=
  decode_eq_ok (decode_of_encode h)

/-- The instructions with an encoding are those with a *Result* (R88, R180). -/
theorem isSome_encode (i : Instr) : (encode i).isSome = (wordResult i).isSome := by
  cases i <;> rfl

/-- Settles O32: the decoder reads the encoding by itself, and so whatever follows it. -/
theorem decodeOfEncodeIsTheWord : Obligations.DecodeOfEncodeIsTheWord :=
  ⟨fun _ _ rest h => decode_append (decode_of_encode h) rest, isSome_encode⟩

theorem wf_of_mem_wordRows {r : WordRow} (hr : r ∈ wordRows) (f : Byte) : (r.build f).wf = true := by
  fin_cases hr <;> rfl

/-- Settles O33: the decoder's answer is a row, whose encoding is its lead and the fill byte read. -/
theorem encodeOfDecodeIsTheBytes : Obligations.EncodeOfDecodeIsTheBytes := by
  intro bs rest i h
  obtain ⟨r, hr, f, rfl, rfl⟩ := decode_eq_ok h
  exact ⟨wf_of_mem_wordRows hr f, r.lead ++ [f], encode_of_mem_wordRows hr f, by simp⟩

/-! ## The words complete -/

/-- The bytes of a row and its fill byte are a block with the row's digits (R70). -/
theorem lead_append {r : WordRow} (hr : r ∈ wordRows) (f : Byte) (rest : List Byte) :
    r.lead ++ f :: rest = blockBytes (leadDigits r.lead) f ++ rest :=
  (congrArg (· ++ f :: rest) (lead_of_mem_wordRows r hr)).trans (by simp [blockBytes])

/-- The item of a word is that of the number its digits spell (R78). -/
def wordItem (r : WordRow) : PItem := numberItem (decimalValue (leadDigits r.lead))

theorem wordResult_of_mem_wordRows {r : WordRow} (hr : r ∈ wordRows) (f : Byte) :
    wordResult (r.build f) = some (wordItem r) := by
  fin_cases hr <;> rfl

theorem wordCompletes_wordItem {r : WordRow} (hr : r ∈ wordRows) :
    WordCompletes r.build (leadDigits r.lead) (wordItem r) := by
  have hds := wordDigits_of_mem_wordRows r hr
  rw [wordRows_eq, List.mem_append] at hr
  obtain hcode | hzero := hr
  · have hok := isCode_of_mem_codeRows r hcode
    have hnumber : CodeNumber (decimalValue (leadDigits r.lead)) := by
      rwa [← numberOk_ofNat_iff hds.fits, numberOk, blockNumber_ofNat]
    rw [wordItem, numberItem_of_codeNumber hnumber]
    exact wordCompletes_of_readCode hds hok (exec_of_mem_codeRows r hcode)
  · have hvalue := decimalValue_of_mem_rowsSentinel r hzero
    rw [wordItem, hvalue]
    exact wordCompletes_of_readSentinel hds hvalue (exec_of_mem_rowsSentinel r hzero)

/-- The rows of a part of the table, one after another. -/
theorem wordCompletes_of_subset {rows : List WordRow} (h : rows ⊆ wordRows) :
    rows.Forall fun r => WordCompletes r.build (leadDigits r.lead) (wordItem r) :=
  List.forall_iff_forall_mem.mpr fun _ hr => wordCompletes_wordItem (h hr)

/-- Settles O29: the rows R181 to R196, each with the item of its number. -/
theorem canonicalWordsGiveTheirCode : Obligations.CanonicalWordsGiveTheirCode :=
  wordCompletes_of_subset (rows := rowsLow ++ rowsHigh) fun _ hr =>
    List.mem_append_left _ (List.mem_append_left _ hr)

/-- Settles O30: the rows R197 to R207, each with the item of its number. -/
theorem otherSpellingsGiveTheirItem : Obligations.OtherSpellingsGiveTheirItem :=
  wordCompletes_of_subset (rows := rowsLeadingZero ++ rowsSentinel) (by
    rw [wordRows, List.append_assoc]
    exact List.subset_append_right _ _)

/-! ## Where a word is not recognised (R180) -/

theorem stripItems_eq_some (bs : List Byte) : ∀ {xs rest : List InItem}, stripItems bs xs = some rest →
    xs = bs.map .byte ++ rest := by
  induction bs with
  | nil => exact fun h => Option.some.inj h
  | cons b bs ih =>
    intro xs rest h
    cases xs with
    | nil => cases h
    | cons x xs =>
      cases x with
      | eoi => cases h
      | byte c =>
        rw [stripItems] at h
        split at h
        · rename_i hbc
          rw [hbc, ih h, List.map_cons, List.cons_append]
        · cases h

/-- A word is read from its first byte on: its path begins with R141. -/
theorem exec_eq_readWord {r : WordRow} (hr : r ∈ wordRows) (f : Byte) :
    ∃ path, ∀ s, exec (r.build f) s = readWord (r.lead ++ [f]) (execPHdrEsc :: path) s := by
  rw [lead_append hr f [], List.append_nil]
  rw [wordRows_eq, List.mem_append] at hr
  obtain hcode | hzero := hr
  · exact ⟨_, exec_of_mem_codeRows r hcode f⟩
  · exact ⟨_, exec_of_mem_rowsSentinel r hzero f⟩

theorem onTextByte_of_not_ready {s : State} {g : Byte → Bool} {f : Byte → State → State}
    (h : s.txiReady = false) : onTextByte s g f = disabled := by
  simp [onTextByte, takeText, h]

/-- With `rst = 1` or an item waiting in `p_q` the parser reads nothing, and so no word. -/
theorem readWord_of_not_ready {s : State} {bs : List Byte} {path : List (State → Out)} (h : s.txiReady = false) :
    readWord bs (execPHdrEsc :: path) s = disabled := by
  have hEsc : execPHdrEsc s = disabled := onTextByte_of_not_ready h
  rw [readWord, alongPath, hEsc]
  exact ite_self _

theorem readWord_of_not_offered {s : State} {bs : List Byte} {path : List (State → Out)}
    (h : ¬ (s.pstate = .hdr ∧ ∃ rest, s.textIn = bs.map .byte ++ rest)) : readWord bs path s = disabled := by
  refine if_neg fun ⟨hp, hoffered⟩ => h ⟨hp, ?_⟩
  obtain ⟨rest, hrest⟩ := Option.isSome_iff_exists.mp hoffered
  exact ⟨rest, stripItems_eq_some bs hrest⟩

/-- Settles O31: a parser that is not ready stops at the word's first byte; elsewhere the word is not begun. -/
theorem wordsAreRecognisedOnlyAtHeader : Obligations.WordsAreRecognisedOnlyAtHeader := by
  intro i bs s hencode hnot
  obtain ⟨r, hr, f, rfl, rfl⟩ := exists_row_of_encode hencode
  obtain ⟨path, hpath⟩ := exec_eq_readWord hr f
  rw [hpath]
  obtain hrst | hq | hp | hbytes := hnot
  · exact readWord_of_not_ready (by simp [State.txiReady, hrst])
  · exact readWord_of_not_ready (by simp [State.txiReady, hq])
  · exact readWord_of_not_offered fun ⟨hhdr, _⟩ => hp hhdr
  · exact readWord_of_not_offered fun ⟨_, rest, htext⟩ => hbytes rest htext

/-! ## A word is a unit of work of the parser (R208) -/

theorem unitOfWork_of_wordDigits {ds : List Byte} (hds : WordDigits ds) (f : Byte) (rest : List InItem) :
    unitOfWork parStart 0 ((blockBytes ds f).map .byte ++ rest) =
      some ([numberItem (decimalValue ds)], ds.length + 4, rest) := by
  rw [unitOfWork_block hds.digits hds.atMostThree, unitOfWork_end hds.nonempty hds.atMostThree hds.fits,
    unitOfWork_fill hds.fits]

theorem unitOfWork_of_decode {bs rest : List Byte} {i : Instr} (h : decode bs = .ok (i, rest)) :
    ∃ x n, wordResult i = some x ∧ unitOfWork parStart 0 (bs.map .byte) = some ([x], n, rest.map .byte) := by
  obtain ⟨r, hr, f, rfl, rfl⟩ := decode_eq_ok h
  refine ⟨wordItem r, (leadDigits r.lead).length + 4, wordResult_of_mem_wordRows hr f, ?_⟩
  rw [lead_append hr, List.map_append]
  exact unitOfWork_of_wordDigits (wordDigits_of_mem_wordRows r hr) f _

/-- What the parser emits for rejected bytes is an error (R78, R79). -/
theorem exists_err_of_rejectItem {e : Reject} {x : PItem} (h : rejectItem e = some x) :
    ∃ k info, x = .err k info := by
  cases e <;> cases h <;> exact ⟨_, _, rfl⟩

/-- Settles O36: a decoded word is the unit of work of its block; bytes that are rejected make the parser emit an
error or nothing, so a unit that emits another item was decoded. -/
theorem wordsAreWhatTheParserAccepts : Obligations.WordsAreWhatTheParserAccepts := by
  refine ⟨fun bs rest i => unitOfWork_of_decode, fun bs x n xs hunit hx => ?_⟩
  cases hdecode : decode bs with
  | error e =>
    have hreject := rejectionNamesTheParsersError bs e hdecode
    rw [hunit] at hreject
    obtain ⟨y, hy, hxy⟩ := Option.map_eq_some_iff.mp hreject.symm
    obtain ⟨k, info, rfl⟩ := exists_err_of_rejectItem hy
    obtain rfl := List.singleton_inj.mp hxy
    simp at hx
  | ok u =>
    obtain ⟨i, rest⟩ := u
    obtain ⟨y, m, hresult, hword⟩ := unitOfWork_of_decode hdecode
    rw [hunit] at hword
    cases hword
    exact ⟨i, rest, rfl, hresult, rfl⟩

/-! ## The step runs the word it fetches (R180) -/

theorem wordSelect_of_decode {s : State} {i : Instr} {rest : List Byte} (hq : s.pQ = []) (hp : s.pstate = .hdr)
    (h : decode (leadingBytes s.textIn) = .ok (i, rest)) : wordSelect s = some i := by
  rw [wordSelect, if_pos ⟨hp, List.isEmpty_iff.mpr hq⟩, h]

/-- The word offered completes with its *Result*. -/
theorem exec_of_decode {s : State} {i : Instr} {rest : List Byte} (hrst : s.rst = false) (hq : s.pQ = [])
    (hp : s.pstate = .hdr) (h : decode (leadingBytes s.textIn) = .ok (i, rest)) :
    ∃ t x, exec i s = .next t ∧ wordResult i = some x ∧ t.pQ = [x] ∧ t.pstate = .hdr := by
  obtain ⟨r, hr, f, rfl, hbytes⟩ := decode_eq_ok h
  obtain ⟨ys, htext⟩ := eq_leadingBytes_append s.textIn
  rw [hbytes, lead_append hr, List.map_append, List.append_assoc] at htext
  exact ⟨_, wordItem r, wordCompletes_wordItem hr s f _ hrst hq hp htext, wordResult_of_mem_wordRows hr f, rfl, hp⟩

/-- Settles O38: the word offered is what the parser fetches, and the default order and the turn `word` run that. -/
theorem stepRunsTheDecodedWord : Obligations.StepRunsTheDecodedWord := by
  intro s i rest hrst hq hp hdecode
  refine ⟨fun hsched => ?_, fun ts hsched => ?_, (encodeOfDecodeIsTheBytes _ _ _ hdecode).1,
    exec_of_decode hrst hq hp hdecode⟩
  · rw [step_of_sched_nil hsched]
    exact (edge_toList_of_not_rst hrst).1 i (autoSelect_of_wordSelect (wordSelect_of_decode hq hp hdecode))
  · rw [step_of_sched_cons hsched]
    exact (edge_toList_of_not_rst (sel := wordSelect) (s := { s with sched := ts }) hrst).1 i
      (wordSelect_of_decode hq hp hdecode)

end Sys2Proof.Machine

/-! PROOFS. 45_pair_decoder.md R220 to R230: the row of R220's table that an item selects runs and no other does; what
each transition of the pair decoder does to the state; and what the decoder does to errors and to pairs of Codes. -/

namespace Sys2Proof.Machine

/-! ## A transition that reads an item, where it is enabled -/

section
variable {s : State} {hv : Bool} {x : PItem} {rest : List PItem} {out : List DItem} {i : Instr}

theorem hiValid_of_decoderReads (h : DecoderReads s hv x rest) : s.hiValid = hv := by
  obtain ⟨-, -, hvalid, -⟩ := h
  exact hvalid

theorem takePItem_of_decoderReads (h : DecoderReads s hv x rest) :
    takePItem s = some (x, { s with pQ := rest, pitem := s.pitem ++ [x] }) := by
  obtain ⟨hrst, hd, -, hq⟩ := h
  exact takePItem_of_cons (pitemReady_iff.mpr ⟨hrst, hd⟩) hq

/-- The transition selected for an item of the head of `p_q` is the joint step (log 7), so it does what `dstep` says
(R229); the numbers that it joins must be Codes. -/
theorem exec_of_decoderReads (h : DecoderReads s hv x rest) (hsel : decSelectItem s x = i)
    (hcodes : ∀ c : Byte, x = .code c → s.hiValid = true → CodeNumber s.hiCode.toNat ∧ CodeNumber c.toNat) :
    exec i s = .next
      { s with
        pQ := rest
        pitem := s.pitem ++ [x]
        hiValid := (decStep s.held x).1.isSome
        hiCode := (decStep s.held x).1.getD s.hiCode
        dQ := (decStep s.held x).2 } := by
  rw [← hsel, exec_decSelectItem (takePItem_of_decoderReads h)]
  obtain ⟨hrst, hd, -, hq⟩ := h
  exact deliverIsOneJointStep s x rest hrst hd hq hcodes

/-- Without a pending code, an item that `dstep` does not hold back: the registers stay. -/
theorem exec_passes (h : DecoderReads s false x rest) (hsel : decSelectItem s x = i)
    (hstep : decStep none x = (none, out)) :
    exec i s = .next { s with pQ := rest, pitem := s.pitem ++ [x], dQ := out } := by
  have hvalid := hiValid_of_decoderReads h
  have hheld : s.held = none := by simp [State.held, hvalid]
  rw [exec_of_decoderReads h hsel (by simp [hvalid]), hheld, hstep, Option.isSome_none, ← hvalid]
  rfl

/-- With a pending code, every item ends the unit of work: the code is dropped. -/
theorem exec_drops (h : DecoderReads s true x rest) (hsel : decSelectItem s x = i)
    (hcodes : ∀ c : Byte, x = .code c → CodeNumber s.hiCode.toNat ∧ CodeNumber c.toNat)
    (hstep : decStep (some s.hiCode) x = (none, out)) :
    exec i s = .next { s with pQ := rest, pitem := s.pitem ++ [x], dQ := out, hiValid := false } := by
  have hheld : s.held = some s.hiCode := by simp [State.held, hiValid_of_decoderReads h]
  rw [exec_of_decoderReads h hsel fun c hc _ => hcodes c hc, hheld, hstep]
  rfl

end

/-! ## The transitions one by one -/

/-- Settles O23: the rows of R220 with `hi_valid = 0`. -/
theorem decoderWithoutAHighCode : Obligations.DecoderWithoutAHighCode := by
  intro s rest
  refine ⟨fun c h => ?_, fun k info h => ?_, fun z h => ?_⟩
  all_goals have hvalid := hiValid_of_decoderReads h
  · have hheld : s.held = none := by simp [State.held, hvalid]
    rw [exec_of_decoderReads h (by simp [decSelectItem, hvalid]) (by simp [hvalid]), hheld]
    obtain ⟨-, hd, -, -⟩ := h
    simp [decStep, hd]
  · exact exec_passes h (by simp [decSelectItem, hvalid]) rfl
  · exact exec_passes h (by simp [decSelectItem, hvalid]) rfl

/-- Settles O24: the byte is `PAIR.TO_BYTE` of the two Codes, whose halves are their nibbles. -/
theorem decoderJoinsThePair : Obligations.DecoderJoinsThePair := by
  intro s rest c h hhigh hlow
  have hvalid := hiValid_of_decoderReads h
  refine ⟨pairToByte (s.hiCode, c), ?_, toNat_pairToByte_div _, toNat_pairToByte_mod _⟩
  refine exec_drops h (by simp [decSelectItem, hvalid]) (fun d hd => ?_) rfl
  cases hd
  exact ⟨hhigh, hlow⟩

/-- Settles O25: the rows of R220 with `hi_valid = 1` in which no pair is joined. -/
theorem decoderDropsTheHighCode : Obligations.DecoderDropsTheHighCode := by
  intro s rest
  refine ⟨fun k info h => ?_, fun h => ?_, fun h => ?_⟩
  all_goals
    have hvalid := hiValid_of_decoderReads h
    exact exec_drops h (by simp [decSelectItem, hvalid]) nofun rfl

/-- Settles O26: with `rst = 0` and `dec_ready = 1` the guard holds. -/
theorem decoderDeliversItsHead : Obligations.DecoderDeliversItsHead := by
  intro s x rest hrst hready hd
  simp only [exec, execDDeliver, hrst, hready, hd, and_self, if_true]

/-! ## The selected row (R220) -/

theorem decSelect_of_cons {s : State} {x : PItem} {xs : List PItem} (hd : s.dQ = []) (hq : s.pQ = x :: xs) :
    decSelect s = some (decSelectItem s x) := by
  simp only [decSelect, hd, hq]

/-- Nothing moves on `PITEM` while `rst = 1`, while `d_q` is not empty, or while `p_q` is empty (R52, R228). -/
theorem takePItem_eq_none {s : State} (h : s.rst = true ∨ s.dQ ≠ [] ∨ s.pQ = []) : takePItem s = none := by
  refine Option.eq_none_iff_forall_ne_some.mpr fun ⟨x, s'⟩ htake => ?_
  obtain ⟨hready, xs, hq, -⟩ := takePItem_eq_some.mp htake
  obtain ⟨hrst, hd⟩ := pitemReady_iff.mp hready
  simp [hrst, hd, hq] at h

/-- R220 has a row for every item: where the pair decoder does not complete, it faults on a number that is no Code
(log 9). -/
theorem decAccept_ne_refused (x : PItem) (s : State) (r : Refusal) : decAccept x s ≠ .refused r := by
  unfold decAccept
  split
  case h_4 =>
    unfold joinHeld
    split <;> nofun
  all_goals nofun

theorem exec_dDeliver_of_idle {s : State} (h : s.rst = true ∨ s.dQ = [] ∨ s.decReady = false) :
    exec .dDeliver s = .refused .notEnabled := by
  change execDDeliver s = disabled
  unfold execDDeliver
  split
  · rename_i hready
    obtain ⟨hrst, hdec⟩ := hready
    have hd : s.dQ = [] := by simpa [hrst, hdec] using h
    rw [hd]
  · rfl

/-- Settles O27: each of the seven is its row of R220's table, and an item selects one row. -/
theorem decoderIsTotalAndDeterministic : Obligations.DecoderIsTotalAndDeterministic := by
  refine ⟨fun s x rest hrst hd hq => ?_, fun s hidle => ?_, fun s => exec_dDeliver_of_idle⟩
  · have htake := takePItem_of_cons (pitemReady_iff.mpr ⟨hrst, hd⟩) hq
    have hmem := decSelectItem_mem s x
    refine ⟨decSelectItem s x, hmem, decSelect_of_cons hd hq, exec_decSelectItem htake, fun r => ?_,
      fun j hj hne => ?_⟩
    · simp only [exec_of_mem_decoderInputs hmem, decTake, htake, if_true]
      exact decAccept_ne_refused x _ r
    · simp only [exec_of_mem_decoderInputs hj, decTake, htake, if_neg hne.symm]
      rfl
  · have htake := takePItem_eq_none hidle
    refine ⟨?_, fun j hj => ?_⟩
    · simp only [exec, execPDeliver, htake]
      rfl
    · simp only [exec_of_mem_decoderInputs hj, decTake, htake]
      rfl

/-! ## Errors and pairs on whole streams (R230) -/

/-- Of one item: the parser's error is passed on as it is, and the decoder's own error is none of the parser's. -/
theorem errorsD_decStep (h : Option Byte) {x : PItem} (hx : pitemOk x = true) :
    errorsD (decStep h x).2 = errorsP [x] := by
  cases x with
  | code c => cases h <;> rfl
  | err k info =>
    obtain ⟨hkind, -⟩ := Bool.and_eq_true_iff.mp hx
    have hk : k ≠ .missingSecondColorCodeBlock := bne_iff_ne.mp hkind
    cases h <;> simp [decStep, errorsD, errorsP, hk]
  | fin z => cases h <;> cases z <;> rfl

theorem errorsD_decodeItems (xs : List PItem) : ∀ h : Option Byte, (∀ x ∈ xs, pitemOk x = true) →
    errorsD (decodeItems h xs) = errorsP xs := by
  induction xs with
  | nil => exact fun _ _ => rfl
  | cons x xs ih =>
    intro h hok
    obtain ⟨hx, hxs⟩ := List.forall_mem_cons.mp hok
    calc errorsD (decodeItems h (x :: xs))
        = errorsD (decStep h x).2 ++ errorsD (decodeItems (decStep h x).1 xs) := List.filterMap_append
      _ = errorsP [x] ++ errorsP xs := by rw [errorsD_decStep h hx, ih _ hxs]
      _ = errorsP (x :: xs) := List.filterMap_append.symm

/-- Two numbers make a byte and leave nothing pending, whatever follows. -/
theorem decodeItems_pairs (ps : List (Byte × Byte)) (ys : List PItem) :
    decodeItems none ((ps.map fun p => [PItem.code p.1, PItem.code p.2]).flatten ++ ys) =
      ps.map (fun p => .byte (pairToByte p)) ++ decodeItems none ys := by
  induction ps with
  | nil => rfl
  | cons p ps ih => exact congrArg (DItem.byte (pairToByte p) :: ·) ih

/-- Settles O28: each half is an induction on the stream, item by item and pair by pair. -/
theorem decoderPassesErrorsAndPairsCodes : Obligations.DecoderPassesErrorsAndPairsCodes :=
  ⟨fun h xs => errorsD_decodeItems xs h, fun ps => decodeItems_pairs ps [.fin true]⟩

end Sys2Proof.Machine

/-! PROOFS. 46_codec.md R244, R247: the parser reads a text block by block, each apart from what follows it, and so the
decoder gives back the bytes of an encoded text, with the end that a `RESET` sets. -/

namespace Sys2Proof.Machine

/-! ## The parser reads block by block (R160) -/

/-- What the parser emits does not rest on the dead registers (R33 (d)). -/
theorem parseItems_eq_of_live_eq (xs : List InItem) : ∀ {r r' : ParRegs}, r.live = r'.live →
    parseItems r xs = parseItems r' xs := by
  induction xs with
  | nil => exact fun _ => rfl
  | cons x xs ih =>
    intro r r' h
    obtain ⟨hregs, hout⟩ := parStep_live r x
    obtain ⟨hregs', hout'⟩ := parStep_live r' x
    rw [h] at hregs hout
    rw [parseItems, parseItems, ← hout, hout', ih (hregs.symm.trans hregs')]

/-- Between blocks nothing of the registers is live. -/
theorem live_of_hdr {r : ParRegs} (hp : r.pstate = .hdr) : r.live = parStart := by
  simp [ParRegs.live, hp, parStart]

theorem parseItems_of_hdr {r : ParRegs} (hp : r.pstate = .hdr) (xs : List InItem) :
    parseItems r xs = parseItems parStart xs :=
  parseItems_eq_of_live_eq xs ((live_of_hdr hp).trans (live_of_hdr rfl).symm)

/-- A complete unit of work is the first part of the parse, and the parser begins anew after it. -/
theorem parseItems_of_unitOfWork (xs : List InItem) : ∀ {r : ParRegs} {k n : Nat} {out : List PItem}
    {rest : List InItem}, unitOfWork r k xs = some (out, n, rest) →
      parseItems r xs = out ++ parseItems parStart rest := by
  induction xs with
  | nil => intro r k n out rest h; cases h
  | cons x xs ih =>
    intro r k n out rest h
    rw [unitOfWork] at h
    split at h
    next hp =>
      cases h
      rw [parseItems, parseItems_of_hdr hp]
    next =>
      obtain ⟨⟨out', n', rest'⟩, hunit, heq⟩ := Option.map_eq_some_iff.mp h
      cases heq
      rw [parseItems, ih hunit, List.append_assoc]

theorem textStream_append (ts us : List Byte) : textStream (ts ++ us) = ts.map .byte ++ textStream us := by
  simp [textStream]

/-- A block of a wire word's digits is read as its number's item, whatever text follows it. -/
theorem parse_blockBytes_append {ds : List Byte} (hds : WordDigits ds) (f : Byte) (ts : List Byte) :
    parse (blockBytes ds f ++ ts) = numberItem (decimalValue ds) :: parse ts := by
  rw [parse, textStream_append]
  exact parseItems_of_unitOfWork _ (unitOfWork_of_wordDigits hds f (textStream ts))

/-! ## The canonical block of a Code (R105) -/

theorem toNat_digitByte (d : Nat) : (digitByte d).toNat = 0x30 + d % 10 := by
  rw [digitByte, BitVec.toNat_ofNat]
  omega

theorem isDigit_digitByte (d : Nat) : isDigit (digitByte d) = true := by
  have hlo : Config.digitLo.toNat = 0x30 := rfl
  have hhi : Config.digitHi.toNat = 0x39 := rfl
  rw [← digit_iff, BitVec.le_def, BitVec.le_def, toNat_digitByte, hlo, hhi]
  omega

/-- The decimal spelling is read back as the number that it spells (R13, R74). -/
theorem decimalValue_asciiDec {n : Nat} (h : n < 1000) : decimalValue (asciiDec n) = n := by
  unfold asciiDec
  split_ifs <;> simp only [decimalValue, List.foldl, toNat_digitByte] <;> omega

theorem wordDigits_asciiDec {n : Nat} (h : n ≤ 255) : WordDigits (asciiDec n) where
  digits := by unfold asciiDec; split_ifs <;> simp [isDigit_digitByte]
  nonempty := by unfold asciiDec; split_ifs <;> simp
  atMostThree := by unfold asciiDec; split_ifs <;> simp
  fits := (decimalValue_asciiDec (by omega)).trans_le h

theorem render_eq_blockBytes (c : Byte) : render c = blockBytes (asciiDec c.toNat) Config.fill := rfl

/-- Fact (a) of R244: the canonical block of a Code is read as that Code. -/
theorem parse_render_append {c : Byte} (hc : CodeNumber c.toNat) (ts : List Byte) :
    parse (render c ++ ts) = .code c :: parse ts := by
  have hlt := c.isLt
  rw [render_eq_blockBytes, parse_blockBytes_append (wordDigits_asciiDec (by omega)),
    decimalValue_asciiDec (by omega), numberItem_of_codeNumber hc, BitVec.ofNat_toNat, BitVec.setWidth_eq]

/-- The `RESET` word is the block of the number 0, the sentinel (R154, R247 (b)). -/
theorem parse_resetWord_append (ts : List Byte) : parse (Config.resetWord ++ ts) = .fin false :: parse ts :=
  parse_blockBytes_append (ds := [0x30]) ⟨rfl, by decide, by decide, by decide⟩ Config.fill ts

/-! ## What the decoder makes of the parts of a text (R242) -/

/-- Two blocks are the pair of a byte, which joins to that byte (fact (b) of R244). -/
theorem decodeText_pair_append (b : Byte) (ts : List Byte) :
    decodeText (render (fromHi b) ++ (render (fromLo b) ++ ts)) = .byte b :: decodeText ts := by
  have hhi : CodeNumber (fromHi b).toNat := codeNumber_fromNib _
  have hlo : CodeNumber (fromLo b).toNat := codeNumber_fromNib _
  rw [decodeText, parse_render_append hhi, parse_render_append hlo]
  exact congrArg (.byte · :: decodeText ts) (pairToByte_pairFromByte b)

theorem decodeText_encodeText_append (bs ts : List Byte) :
    decodeText (encodeText bs ++ ts) = bs.map .byte ++ decodeText ts := by
  induction bs with
  | nil => rfl
  | cons b bs ih =>
    rw [encodeText_cons, List.append_assoc, List.append_assoc, decodeText_pair_append, ih]
    rfl

theorem decodeText_nil : decodeText [] = [.fin true] := rfl

theorem decodeText_encodeText (bs : List Byte) : decodeText (encodeText bs) = bs.map .byte ++ [.fin true] := by
  simpa only [List.append_nil, decodeText_nil] using decodeText_encodeText_append bs []

/-- Between texts the sentinel is passed on (R223). -/
theorem decodeText_resetWord_append (ts : List Byte) :
    decodeText (Config.resetWord ++ ts) = .fin false :: decodeText ts := by
  rw [decodeText, parse_resetWord_append]
  rfl

/-- After the high block of a pair the sentinel is the decoder's error, and the high code is dropped (R226). -/
theorem decodeText_high_resetWord_append (b : Byte) (ts : List Byte) :
    decodeText (render (fromHi b) ++ (Config.resetWord ++ ts)) =
      .err .missingSecondColorCodeBlock 0 :: decodeText ts := by
  have hhi : CodeNumber (fromHi b).toNat := codeNumber_fromNib _
  rw [decodeText, parse_render_append hhi, parse_resetWord_append]
  rfl

/-- The document's view of bytes and an `END` is the bytes (R243). -/
theorem untilEndD_bytes_append_fin (bs : List Byte) (z : Bool) (ys : List DItem) :
    untilEndD (bs.map .byte ++ .fin z :: ys) = bs.map .byte := by
  induction bs with
  | nil => rfl
  | cons b bs ih => exact congrArg (.byte b :: ·) ih

/-! ## The obligations -/

/-- Settles O54: the text is decoded byte by byte, and its `END(1)` is where the document stops reading. -/
theorem roundTripOfTheCodec : Obligations.RoundTripOfTheCodec := fun bs =>
  ⟨decodeText_encodeText bs,
    (congrArg untilEndD (decodeText_encodeText bs)).trans (untilEndD_bytes_append_fin bs true [])⟩

/-- A `RESET` after a text adds its `END(0)` before the `END(1)` (R247 (c)). -/
theorem decodeText_encodeText_resetWord (bs : List Byte) :
    decodeText (encodeText bs ++ Config.resetWord) = bs.map .byte ++ [.fin false, .fin true] := by
  rw [decodeText_encodeText_append]
  exact congrArg (bs.map .byte ++ ·) (decodeText_resetWord_append [])

/-- Settles O55: each text is its parts, decoded one after another. -/
theorem resetWordEndsASequence : Obligations.ResetWordEndsASequence := by
  intro xs ys b
  refine ⟨decodeText_encodeText_resetWord xs, ?_, ?_, ?_⟩
  · rw [docDecode, decodeText_encodeText_resetWord]
    exact untilEndD_bytes_append_fin xs false [.fin true]
  · rw [List.append_assoc, decodeText_encodeText_append, decodeText_resetWord_append, decodeText_encodeText]
    simp
  · rw [List.append_assoc, List.append_assoc, decodeText_encodeText_append, decodeText_high_resetWord_append,
      decodeText_encodeText]
    simp

end Sys2Proof.Machine

/-! PROOFS. 70_reset_and_hazards.md R299, 00_scope.md R6: streams that follow one another without reset, and the parser
with its parameters at the values of this hardware. -/

namespace Sys2Proof.Machine

/-! ## One stream after another (R299) -/

theorem parseItems_append (xs ys : List InItem) : ∀ r : ParRegs,
    parseItems r (xs ++ ys) = parseItems r xs ++ parseItems (parRun r xs) ys := by
  induction xs with
  | nil => exact fun _ => rfl
  | cons x xs ih =>
    intro r
    rw [List.cons_append, parseItems, ih, ← List.append_assoc]
    rfl

/-- `EOI` leaves the parser at `HDR`, where no register of the stream before it is live. -/
theorem parseItems_textStream_append (ts : List Byte) (xs : List InItem) :
    parseItems parStart (textStream ts ++ xs) = parse ts ++ parseItems parStart xs := by
  rw [parseItems_append, parseItems_of_hdr (pstate_parRun_textStream ts parStart), parse]

/-- Settles O56: at the end of a stream the parser is at `HDR`, and the pair decoder holds no code. -/
theorem consecutiveStreamsAreIndependent : Obligations.ConsecutiveStreamsAreIndependent := by
  intro ts xs
  have hparse := parseItems_textStream_append ts xs
  have hheld : heldAfter none (parse ts) = none := heldAfter_textStream ts none parStart
  refine ⟨hparse, ?_⟩
  rw [hparse, decodeItems_append, hheld, decodeText]

/-! ## The parameters at this hardware's values (R6) -/

/-- A complete number ends its block with one item (R154, R155, R156). -/
theorem parStepByte_fill {r : ParRegs} (hp : r.pstate = .fill) (b : Byte) :
    parStepByte r b = ({ r with pstate := .hdr }, [blockItem r.acc]) := by
  simp only [parStepByte, hp, blockItem, eq_zero_iff_isSentinel, tryFrom_truncate]
  split
  · rfl
  · cases numberOk r.acc <;> rfl

/-- `MAX_DIGITS` is the largest value of `ndig`. -/
theorem lt_maxDigits_ite {α : Type} (n : BitVec 2) (a b : α) :
    (if n < Config.maxDigits then a else b) = if digitsFull n then b else a := by
  simp only [lt_maxDigits_iff]
  cases digitsFull n <;> rfl

theorem parStepWith_default_byte (r : ParRegs) (b : Byte) :
    parStepWith Params.default r (.byte b) = parStepByte r b := by
  cases hp : r.pstate with
  | hdr =>
    have hhome : { r with pstate := .hdr } = r := by rw [← hp]
    simp only [parStepWith, parStepByte, hp, hhome, eq_esc_iff]
  | pfx => simp only [parStepWith, parStepByte, hp, eq_lbr_iff]
  | dig =>
    simp only [parStepWith, parStepByte, hp, eq_codeEnd_iff, digit_iff, lt_maxDigits_ite, eq_zero_iff_noDigits,
      lt_iff_overflows, Params.default, reduceCtorEq, false_and, if_false, digitVal]
  | fill =>
    rw [parStepByte_fill hp]
    simp only [parStepWith, hp]

theorem parStepWith_default_eoi (r : ParRegs) : parStepWith Params.default r .eoi = parStep r .eoi := by
  cases hp : r.pstate with
  | hdr =>
    have hhome : { r with pstate := .hdr } = r := by rw [← hp]
    simp only [parStepWith, parStep, hp, hhome]
  | pfx => simp only [parStepWith, parStep, hp]
  | dig => simp only [parStepWith, parStep, hp]
  | fill => simp [parStepWith, parStep, hp, Params.default]

theorem parStepWith_default (r : ParRegs) : ∀ x : InItem, parStepWith Params.default r x = parStep r x
  | .byte b => parStepWith_default_byte r b
  | .eoi => parStepWith_default_eoi r

theorem parseItemsWith_default (xs : List InItem) : ∀ r : ParRegs,
    parseItemsWith Params.default r xs = parseItems r xs := by
  induction xs with
  | nil => exact fun _ => rfl
  | cons x xs ih => exact fun r => by rw [parseItemsWith, parseItems, parStepWith_default, ih]

/-- Settles O21: item by item the two tables agree, so they agree on every stream. -/
theorem defaultParametersGiveTheParser : Obligations.DefaultParametersGiveTheParser :=
  ⟨parStepWith_default, fun ts => parseItemsWith_default (textStream ts) parStart⟩

end Sys2Proof.Machine

/-! PROOFS. 70_reset_and_hazards.md R290, R292, R300 (a): the rising edge with `rst = 1`, and what the host does between
edges. -/

namespace Sys2Proof.Machine

/-! ## The rising edge with `rst = 1` (R290) -/

theorem edge_of_rst {pick : State → List Instr} {s : State} (hrst : s.rst = true) : edge pick s = .next s.resetRegs :=
  if_pos hrst

/-- Every turn that is an edge resets, whoever would have moved. -/
theorem turn_of_rst {u : Turn} {s : State} (hu : u = .word ∨ u = .clock ∨ ∃ a, u = .agent a) (hrst : s.rst = true) :
    turn u s = .next s.resetRegs := by
  obtain rfl | rfl | ⟨a, rfl⟩ := hu
  · exact edge_of_rst (pick := fun s => (wordSelect s).toList) hrst
  · exact edge_of_rst (pick := clockSelect) hrst
  · exact edge_of_rst (pick := fun s => (agentSelect a s).toList) hrst

theorem step_of_rst {s : State} (hrst : s.rst = true) (hedge : EdgeNext s) : step s = .next s.popTurn.resetRegs := by
  obtain hnil | ⟨u, us, hcons, hu⟩ := hedge
  · have hpop : s.popTurn = s := by rw [State.popTurn, hnil, List.tail_nil, ← hnil]
    rw [step_of_sched_nil hnil, edge_of_rst hrst, hpop]
  · have hpop : s.popTurn = { s with sched := us } := by rw [State.popTurn, hcons, List.tail_cons]
    rw [step_of_sched_cons hcons, hpop]
    exact turn_of_rst (s := { s with sched := us }) hu hrst

/-- Settles O45: the step is `State.resetRegs`, which writes registers only. -/
theorem resetEdgeDiscardsEverything : Obligations.ResetEdgeDiscardsEverything := fun _ hrst hedge =>
  ⟨_, step_of_rst hrst hedge, rfl, rfl, rfl, rfl, rfl, rfl, rfl, rfl, rfl, rfl, rfl, rfl, rfl, rfl, rfl, rfl, rfl⟩

/-! ## The host's turns (R292, R300 (a)) -/

/-- With `rst = 0` an offered item cannot be taken back (R300 (a)). -/
theorem withdraw_refused {s : State} (hoffered : ¬ (s.rawIn = [] ∧ s.textIn = [])) (hrst : s.rst = false) :
    withdraw s = .refused .hostBreaksHandshake := by
  rw [withdraw, if_neg hoffered, hrst, if_neg Bool.false_ne_true]

/-- `rst` cannot fall while a rising edge is owed (R300 (a)). -/
theorem driveRst_refused {s : State} (hrst : s.rst = true) (howed : s.rstPhase = .owed) :
    driveRst false s = .refused .hostBreaksHandshake := by
  rw [driveRst, if_neg Bool.false_ne_true, if_pos ⟨hrst, howed⟩]

/-- Settles O46: the step is the host's turn, and the two turns that can be refused have one lemma per outcome. -/
theorem hostTurnsKeepTheHandshake : Obligations.HostTurnsKeepTheHandshake := by
  intro s ts
  refine ⟨fun raw text h => step_of_sched_cons h, fun x d h => step_of_sched_cons h, fun h => step_of_sched_cons h,
    fun h hmay => ?lower, fun h hrst howed => ?lowerOwed, fun h hraw htext => ?nothing,
    fun h hoffered hrst => ?takeBack, fun h hoffered hrst => ?breach⟩
  all_goals rw [step_of_sched_cons h]
  case lower =>
    have hnotOwed : ¬ (s.rst = true ∧ s.rstPhase = .owed) := by
      rintro ⟨hrst, howed⟩
      simp [hrst, howed] at hmay
    exact driveRst_eq_next.mpr (.inr ⟨rfl, hnotOwed, rfl⟩)
  case lowerOwed => exact driveRst_refused (s := { s with sched := ts }) hrst howed
  case nothing => exact withdraw_eq_next.mpr (.inl ⟨hraw, htext, rfl⟩)
  case takeBack => exact withdraw_eq_next.mpr (.inr ⟨not_and_or.mpr hoffered, hrst, rfl⟩)
  case breach => exact withdraw_refused (s := { s with sched := ts }) (not_and_or.mpr hoffered) hrst

/-! ## Between two edges (R300 (a)) -/

/-- What the host offered is offered still, or it was taken back for a reset that no rising edge has seen yet. -/
inductive OfferKept (raw text : List InItem) (s : State) : Prop
  | offered (hphase : s.rstPhase = .quiet) (hraw : raw <+: s.rawIn) (htext : text <+: s.textIn)
  | takenBack (hrst : s.rst = true) (hphase : s.rstPhase = .owed)

section
variable {raw text : List InItem}

/-- The coming turns and the ready pins are no part of it. -/
theorem OfferKept.turnsAndReadys {s : State} (hs : OfferKept raw text s) (ts : List Turn) (x d : Bool) :
    OfferKept raw text { s with sched := ts, txoReady := x, decReady := d } := by
  cases hs with
  | offered hphase hraw htext => exact .offered hphase hraw htext
  | takenBack hrst hphase => exact .takenBack hrst hphase

/-- Raising `rst` keeps the phase of a reset that has begun. -/
theorem OfferKept.driveRst {level : Bool} {s t : State} (hs : OfferKept raw text s)
    (h : driveRst level s = .next t) : OfferKept raw text t := by
  obtain ⟨-, rfl⟩ | ⟨-, hmay, rfl⟩ := driveRst_eq_next.mp h
  · cases hs with
    | offered hphase hraw htext => exact .offered (by simp [hphase]) hraw htext
    | takenBack hrst hphase => exact .takenBack rfl (by simp [hrst, hphase])
  · cases hs with
    | offered _ hraw htext => exact .offered rfl hraw htext
    | takenBack hrst hphase => exact absurd ⟨hrst, hphase⟩ hmay

theorem OfferKept.withdraw {s t : State} (hs : OfferKept raw text s) (h : withdraw s = .next t) :
    OfferKept raw text t := by
  obtain ⟨-, -, rfl⟩ | ⟨-, hrst, rfl⟩ := withdraw_eq_next.mp h
  · exact hs
  · have hnotTaken : s.rstPhase ≠ .taken := by
      cases hs with
      | offered hphase _ _ => simp [hphase]
      | takenBack _ hphase => simp [hphase]
    exact .takenBack hrst (if_neg hnotTaken)

theorem OfferKept.turn {u : Turn} {s t : State} (hs : OfferKept raw text s) (hu : u.byHost = true)
    (h : turn u s = .next t) : OfferKept raw text t := by
  cases u with
  | send raw' text' =>
    cases h
    cases hs with
    | offered hphase hraw htext =>
      exact .offered hphase (hraw.trans (List.prefix_append _ _)) (htext.trans (List.prefix_append _ _))
    | takenBack hrst hphase => exact .takenBack hrst hphase
  | ready x d =>
    cases h
    exact hs.turnsAndReadys s.sched x d
  | reset level => exact hs.driveRst h
  | withdraw => exact hs.withdraw h
  | agent _ => cases hu
  | word => cases hu
  | clock => cases hu

/-- The host's turns one after another: with no edge among them none ends the reset that a withdrawal owes. -/
theorem OfferKept.run {p : List Turn} (hp : p.all Turn.byHost = true) {s t : State} (hs : OfferKept raw text s)
    (hsched : s.sched = p) (h : core.run p.length s = .next t) : OfferKept raw text t := by
  induction p generalizing s with
  | nil => cases h; exact hs
  | cons u us ih =>
    obtain ⟨hu, hus⟩ := Bool.and_eq_true_iff.mp hp
    obtain ⟨s', hstep, hrun⟩ := core_run_succ h
    rw [step_of_sched_cons hsched] at hstep
    have hs' : OfferKept raw text { s with sched := us } := hs.turnsAndReadys us s.txoReady s.decReady
    have hsched' : s'.sched = us := by rw [turn_frame_of_byHost hu hstep]
    exact ih hus (hs'.turn hu hstep) hsched' hrun

end

/-- Settles O59: an item that was taken back leaves a rising edge owed, and then `rst` is still 1 at the end. -/
theorem offeredInputsStayBetweenEdges : Obligations.OfferedInputsStayBetweenEdges := by
  intro s t p _ hphase hp hrun hrst
  have hstart : OfferKept s.rawIn s.textIn { s with sched := p } := .offered hphase List.prefix_rfl List.prefix_rfl
  cases hstart.run hp rfl hrun with
  | offered _ hraw htext => exact ⟨hraw, htext⟩
  | takenBack hrst' _ => simp [hrst] at hrst'

end Sys2Proof.Machine

/-! PROOFS. 40_code_mapper.md R103, 42_encoder.md R120 to R124: where the operations and the transitions stop on values
outside their types, and the selection table of the encoder. -/

namespace Sys2Proof.Machine

/-! ## Values outside their types (R103, R124) -/

theorem answerIf_of_not {ok : Bool} (h : ok = false) (v : OpValue) (s : State) :
    answerIf ok v s = .refused .illFormed := by
  rw [answerIf, h, if_neg Bool.false_ne_true]

/-- An operation on a number that is no Code is refused, and only such an instruction is ill-formed (log 9). -/
theorem exec_of_not_wf {i : Instr} (h : i.wf = false) (s : State) : exec i s = .refused .illFormed := by
  cases i
  case codeToNib => exact answerIf_of_not h _ s
  case codeRender => exact answerIf_of_not h _ s
  case pairFromCodes => exact answerIf_of_not h _ s
  case pairToByte => exact answerIf_of_not h _ s
  case pairIter => exact answerIf_of_not h _ s
  all_goals cases h

theorem isCode_eq_false {c : Byte} (h : ¬ CodeNumber c.toNat) : isCode c = false :=
  Bool.eq_false_iff.mpr (mt isCode_iff.mp h)

theorem isCode_and_eq_false {h l : Byte} (hhl : ¬ (CodeNumber h.toNat ∧ CodeNumber l.toNat)) :
    (isCode h && isCode l) = false := by
  simpa only [← Bool.not_eq_true, Bool.and_eq_true, isCode_iff] using hhl

/-- Joining a number that is no Code is the pair decoder's one fault (R103, log 9). -/
theorem exec_pDeliver_notACode {s : State} {rest : List PItem} {c : Byte} (h : DecoderReads s true (.code c) rest)
    (hcodes : ¬ (CodeNumber s.hiCode.toNat ∧ CodeNumber c.toNat)) : exec .pDeliver s = .fault .notACode := by
  simp [exec, execPDeliver, takePItem_of_decoderReads h, decAccept, hiValid_of_decoderReads h, joinHeld,
    isCode_and_eq_false hcodes]

/-- `D.HELD.CODE` is the row that a code after a code selects, so it is the same joint step (R220, log 7). -/
theorem exec_dHeldCode {s : State} {rest : List PItem} {c : Byte} (h : DecoderReads s true (.code c) rest) :
    exec .dHeldCode s = exec .pDeliver s := by
  have hsel : decSelectItem s (.code c) = .dHeldCode := by simp [decSelectItem, hiValid_of_decoderReads h]
  rw [← hsel, exec_decSelectItem (takePItem_of_decoderReads h)]

/-- `ser_byte` has no byte at or beyond the block's length (R124). -/
theorem serByte_eCode_eq_none {s : State} {i : Nat} (h : blkLen s.eCode ≤ i) : serByte s.eCode i = none :=
  List.getElem?_eq_none (length_render_eCode s ▸ h)

/-- Settles O5: ill-formed operands once for every instruction, then the two faults. -/
theorem valuesOutsideTheirTypeStop : Obligations.ValuesOutsideTheirTypeStop := by
  refine ⟨fun c s hc => ?_, fun h l s hhl => ?_, fun s rest c h hcodes => ?_, fun s hrst hbusy hready hpos => ?_,
    fun _ => exec_of_not_wf⟩
  · have hcode := isCode_eq_false hc
    exact ⟨exec_of_not_wf (i := .codeToNib c) hcode s, exec_of_not_wf (i := .codeRender c) hcode s⟩
  · have hcodes := isCode_and_eq_false hhl
    exact ⟨exec_of_not_wf (i := .pairFromCodes h l) hcodes s, exec_of_not_wf (i := .pairToByte h l) hcodes s,
      exec_of_not_wf (i := .pairIter h l) hcodes s⟩
  · have hfault := exec_pDeliver_notACode h hcodes
    exact ⟨(exec_dHeldCode h).trans hfault, hfault⟩
  · simp [exec, execEncEmit, hrst, hbusy, hready, serByte_eCode_eq_none hpos]

/-! ## When an encoder transition is enabled (R120 to R123) -/

theorem not_refused_encByte_iff {s : State} :
    (∀ r, exec .encByte s ≠ .refused r) ↔ s.rawReady = true ∧ ∃ b xs, s.rawIn = .byte b :: xs := by
  constructor
  · intro h
    simp only [exec, execEncByte] at h
    split at h
    next b _ htake =>
      obtain ⟨hready, xs, hraw, -⟩ := takeRaw_eq_some.mp htake
      exact ⟨hready, b, xs, hraw⟩
    next => exact absurd rfl (h .notEnabled)
  · rintro ⟨hready, b, xs, hraw⟩ r
    simp [exec, execEncByte_of_cons hready hraw]

theorem not_refused_encEoi_iff {s : State} :
    (∀ r, exec .encEoi s ≠ .refused r) ↔ s.rawReady = true ∧ ∃ xs, s.rawIn = .eoi :: xs := by
  constructor
  · intro h
    simp only [exec, execEncEoi] at h
    split at h
    next htake =>
      obtain ⟨hready, xs, hraw, -⟩ := takeRaw_eq_some.mp htake
      exact ⟨hready, xs, hraw⟩
    next => exact absurd rfl (h .notEnabled)
  · rintro ⟨hready, xs, hraw⟩ r
    simp [exec, execEncEoi_of_cons hready hraw]

/-- Past its guard `ENC.EMIT` waits, writes or faults (R122, log 10, log 20). -/
theorem not_refused_encEmit_iff {s : State} :
    (∀ r, exec .encEmit s ≠ .refused r) ↔ s.rst = false ∧ s.eBusy = true := by
  simp only [exec, execEncEmit]
  split
  next hoff => exact iff_of_false (fun h => h .notEnabled rfl) fun ⟨hrst, hbusy⟩ => by simp [hrst, hbusy] at hoff
  next hon =>
    refine iff_of_true (fun r => ?_) (by simpa using hon)
    split
    · nofun
    · split <;> nofun

/-- Past its guard `ENC.EMIT_EOI` waits or writes (R123, log 20). -/
theorem not_refused_encEmitEoi_iff {s : State} :
    (∀ r, exec .encEmitEoi s ≠ .refused r) ↔ s.rst = false ∧ s.eEoi = true := by
  simp only [exec, execEncEmitEoi]
  split
  next hoff => exact iff_of_false (fun h => h .notEnabled rfl) fun ⟨hrst, heoi⟩ => by simp [hrst, heoi] at hoff
  next hon =>
    refine iff_of_true (fun r => ?_) (by simpa using hon)
    split <;> nofun

/-! ## The selection table, row by row (42_encoder.md) -/

theorem encSelect_eq_encByte_iff {s : State} :
    encSelect s = some .encByte ↔ s.eBusy = false ∧ s.eEoi = false ∧ ∃ b xs, s.rawIn = .byte b :: xs := by
  unfold encSelect
  split <;> simp_all

theorem encSelect_eq_encEoi_iff {s : State} :
    encSelect s = some .encEoi ↔ s.eBusy = false ∧ s.eEoi = false ∧ ∃ xs, s.rawIn = .eoi :: xs := by
  unfold encSelect
  split <;> simp_all

theorem encSelect_eq_encEmit_iff {s : State} : encSelect s = some .encEmit ↔ s.eBusy = true ∧ s.eEoi = false := by
  unfold encSelect
  split <;> simp_all

theorem encSelect_eq_encEmitEoi_iff {s : State} :
    encSelect s = some .encEmitEoi ↔ s.eBusy = false ∧ s.eEoi = true := by
  unfold encSelect
  split <;> simp_all

theorem encSelect_mem {s : State} {i : Instr} (h : encSelect s = some i) : i ∈ encoderTransitions := by
  unfold encSelect at h
  split at h <;> cases h
  all_goals decide

/-- Outside the unreachable row the enabled transition is the one that the table selects. -/
theorem not_refused_iff_encSelect {s : State} (hrow : ¬ (s.eBusy = true ∧ s.eEoi = true)) {i : Instr}
    (hi : i ∈ encoderTransitions) : (∀ r, exec i s ≠ .refused r) ↔ s.rst = false ∧ encSelect s = some i := by
  fin_cases hi
  · rw [not_refused_encByte_iff, encSelect_eq_encByte_iff, rawReady_iff, and_assoc, and_assoc]
  · rw [not_refused_encEoi_iff, encSelect_eq_encEoi_iff, rawReady_iff, and_assoc, and_assoc]
  · have heoi : s.eBusy = true → s.eEoi = false := by simpa using hrow
    rw [not_refused_encEmit_iff, encSelect_eq_encEmit_iff, and_iff_left_of_imp heoi]
  · have hbusy : s.eEoi = true → s.eBusy = false := by simpa using mt And.symm hrow
    rw [not_refused_encEmitEoi_iff, encSelect_eq_encEmitEoi_iff, and_iff_right_of_imp hbusy]

/-- Settles O9: a table selects one transition, and it selects nothing only where there is no work. -/
theorem encoderIsDeterministic : Obligations.EncoderIsDeterministic := by
  intro s hrow
  refine ⟨fun i hi j hj hi' hj' => ?_, fun hrst hwork => ?_, fun hrst hbusy hwait => ?_, fun hrst heoi hwait => ?_⟩
  · obtain ⟨-, hseli⟩ := (not_refused_iff_encSelect hrow hi).mp hi'
    obtain ⟨-, hselj⟩ := (not_refused_iff_encSelect hrow hj).mp hj'
    exact Option.some.inj (hseli.symm.trans hselj)
  · cases hsel : encSelect s with
    | none =>
      obtain ⟨hbusy, heoi, hraw⟩ := (encSelect_eq_none hsel).resolve_right hrow
      simp [hbusy, heoi, hraw] at hwork
    | some i =>
      have hi := encSelect_mem hsel
      exact ⟨i, hi, rfl, (not_refused_iff_encSelect hrow hi).mpr ⟨hrst, hsel⟩⟩
  · simp [exec, execEncEmit, hrst, hbusy, hwait]
  · simp [exec, execEncEmitEoi, hrst, heoi, hwait]

end Sys2Proof.Machine
